-- ==== Sys2Proof/Word.lean ====
section
/-! DEFINITION. The words of the S-DES cipher core: the vector widths of R7 and the bus word widths of R8; the agents and the
moves of a run. -/

namespace Sys2Proof

/-- A block, BLOCK_W = 8 bits (R7). -/
abbrev Block := BitVec 8
/-- A master key, KEY_W = 10 bits (R7). -/
abbrev Key := BitVec 10
/-- A round key, RK_W = 8 bits (R7). -/
abbrev RoundKey := BitVec 8
/-- A block half, HALF_W = 4 bits (R7). -/
abbrev Half := BitVec 4
/-- A key-schedule half, KHALF_W = 5 bits (R7). -/
abbrev KeyHalf := BitVec 5
/-- A command word, CMD_W = 32 bits (R8, R60). -/
abbrev CmdWord := BitVec 32
/-- A response word, RSP_W = 32 bits (R8, R65). -/
abbrev RspWord := BitVec 32
/-- A search-result word, RES_W = 16 bits (R8, R68). -/
abbrev ResWord := BitVec 16

/-- A stream's direction: the value of `S_DIR` and of the field `D` (R21, R60). -/
inductive Dir where
  | encrypt   -- 0
  | decrypt   -- 1
  deriving DecidableEq, Repr, Inhabited

/-- The two agents of the core that take steps (R16.1). -/
inductive Agent where
  | cmd    -- the command executor
  | srch   -- the search engine
  deriving DecidableEq, Repr, Inhabited

/-- One move of a run: a step of CMD or SRCH, or one of the HOST's liberties (R223, R230). -/
inductive Move where
  /-- CMD takes a step if it has one -/
  | cmd
  /-- SRCH takes a step if it has one -/
  | srch
  /-- the HOST puts a word into `CMDQ` -/
  | put (w : CmdWord)
  /-- the HOST takes the oldest word of `RSPQ` -/
  | takeResponse
  /-- the HOST takes the oldest word of `RESQ` -/
  | takeResult
  /-- the HOST sets the level of the pin `CANCEL` (R24) -/
  | setCancel (level : Bool)
  /-- the HOST signals reset on the pin `RST` (R220) -/
  | rst
  deriving DecidableEq, Repr, Inhabited

/-- "The ordered pair (K1, K2)" of round keys (R15, R110). -/
structure KeyPair where
  k1 : RoundKey
  k2 : RoundKey
  deriving DecidableEq, Repr

/-- NKEYS, the size of the key space (R7). -/
abbrev nKeys : Nat := 1024

end Sys2Proof
end

