-- ==== Sys2Proof/Machine/Vectors.lean ====
section
/-! DEFINITION. The spec's bit-vector notation (R9 to R12): positions are 1-based and position 1 is the most significant bit. -/

namespace Sys2Proof.Machine

/-- `v<i>`, the bit at 1-based position `i` (R9); position 1 is the most significant (R11). Used for `1 ≤ i ≤ n` only. -/
def bitAt {n : Nat} (v : BitVec n) (i : Nat) : Bool := v.getMsbD (i - 1)

/-- The bits of `v` as a sequence, position 1 first. -/
def bitsOf {n : Nat} (v : BitVec n) : List Bool := (List.range n).map (fun i => bitAt v (i + 1))

/-- The vector whose positions 1, 2, ... hold the bits of a sequence, in order. -/
def ofBits (l : List Bool) : BitVec l.length := BitVec.ofBoolListBE l

/-- `int(v)`: position `i` of an `n`-bit vector has weight `2^(n - i)` (R11). -/
def intOf {n : Nat} (v : BitVec n) : Nat := v.toNat

/-- `vec_n(x)`, the inverse of `int` on `0 ≤ x < 2^n` (R11). -/
def vecOf (n : Nat) (x : Nat) : BitVec n := BitVec.ofNat n x

/-- `v<1..4>`, the left half of an 8-bit vector (R93). -/
def leftHalf (v : BitVec 8) : Half := v.extractLsb' 4 4

/-- `v<5..8>`, the right half of an 8-bit vector (R93). -/
def rightHalf (v : BitVec 8) : Half := v.extractLsb' 0 4

/-- `v<1..5>`, the left half of a 10-bit vector (R93). -/
def leftKeyHalf (v : BitVec 10) : KeyHalf := v.extractLsb' 5 5

/-- `v<6..10>`, the right half of a 10-bit vector (R93). -/
def rightKeyHalf (v : BitVec 10) : KeyHalf := v.extractLsb' 0 5

/-- The `w`-bit word whose field of width `n` from bit `lo` up holds `v`, all else 0 (R12). -/
def inField (w : Nat) {n : Nat} (v : BitVec n) (lo : Nat) : BitVec w := v.setWidth w <<< lo

/-- `a || b` for the 2-bit S-box outputs (R9, R131). -/
def joinPairs (a b : BitVec 2) : Half := inField 4 a 2 ||| inField 4 b 0

/-- `left || right` for block halves (R9, R93). -/
def joinHalves (l r : Half) : BitVec 8 := inField 8 l 4 ||| inField 8 r 0

/-- `left || right` for key-schedule halves (R9, R93). -/
def joinKeyHalves (l r : KeyHalf) : BitVec 10 := inField 10 l 5 ||| inField 10 r 0

end Sys2Proof.Machine
end

