-- ==== Sys2Proof/Syntax.lean ====
section
/-! DEFINITION. The command set: one constructor per row of `spec/opcode_table.json` (R62). -/

namespace Sys2Proof

/-- The seven commands (R2, R62). Operands stand block first and key second, as the source writes its calls (R14, R76). -/
inductive Instr where
  /-- ENC: `DATA`, `KEY` (R147). -/
  | enc (blk : Block) (key : Key)
  /-- DEC: `DATA`, `KEY` (R148). -/
  | dec (blk : Block) (key : Key)
  /-- KEYINFO: `KEY` (R114). -/
  | keyinfo (key : Key)
  /-- SOPEN: `D`, `KEY` (R161). -/
  | sopen (dir : Dir) (key : Key)
  /-- SBYTE: `DATA` (R162). -/
  | sbyte (blk : Block)
  /-- SCLOSE: no operand (R163). -/
  | sclose
  /-- SEARCH: `DATA` is the known plaintext, `AUX` the known ciphertext (R182). -/
  | search (plain : Block) (cipher : Block)
  deriving DecidableEq, Repr

end Sys2Proof
end

