-- ==== Sys2Proof/Machine/Operands.lean ====
section
/-! DEFINITION. The fields of a command word and the assembly of operands from them (R60, R61). Every operand is copied
whole from its field; nothing is extended, scaled or shifted. -/

namespace Sys2Proof.Machine

/-- `cmd[31:28]`, the operation code (R60). -/
def opField (w : CmdWord) : BitVec 4 := w.extractLsb' 28 4

/-- `cmd[27]`, the direction (R60). -/
def dField (w : CmdWord) : BitVec 1 := w.extractLsb' 27 1

/-- `cmd[26]`, reserved (R60). -/
def zField (w : CmdWord) : BitVec 1 := w.extractLsb' 26 1

/-- `cmd[25:16]`, the master key: `key<i> = cmd[26 - i]` (R61). -/
def keyField (w : CmdWord) : Key := w.extractLsb' 16 10

/-- `cmd[15:8]`, the auxiliary block: `aux<i> = cmd[16 - i]` (R61). -/
def auxField (w : CmdWord) : Block := w.extractLsb' 8 8

/-- `cmd[7:0]`, the data block: `blk<i> = cmd[8 - i]` (R61). -/
def dataField (w : CmdWord) : Block := w.extractLsb' 0 8

/-- The direction a `D` bit names: 0 encrypt, 1 decrypt (R60). -/
def dirOfBit (d : BitVec 1) : Dir := if d = 0#1 then .encrypt else .decrypt

/-- The `D` bit of a direction (R60). -/
def bitOfDir : Dir → BitVec 1
  | .encrypt => 0#1
  | .decrypt => 1#1

/-- A command word from its six fields, format C (R60). -/
def commandWord (op : BitVec 4) (d z : BitVec 1) (key : Key) (aux data : Block) : CmdWord :=
  inField 32 op 28 ||| inField 32 d 27 ||| inField 32 z 26 ||| inField 32 key 16 ||| inField 32 aux 8 ||| inField 32 data 0

end Sys2Proof.Machine
end

