-- ==== Sys2Proof/Decode.lean ====
section
/-! DEFINITION. The decoder and the encoder of command words (R60 to R64), both from the table of R62. -/

namespace Sys2Proof

/-- Why a word spells no command (R64, R202). Both are answered `ERR_ILLEGAL`; the names say which cause it is. -/
inductive DecodeReject where
  /-- `OP` is 0x0 or 0x8 to 0xF. -/
  | unknownOp
  /-- `OP` is 0x1 to 0x7 and a must-be-zero field of its row holds a 1. -/
  | mustBeZero
  deriving DecidableEq, Repr

/-- One row of the opcode map (R62): a word `w` is the row's command exactly when `w AND mask = match`. -/
structure OpRow where
  matchBits : CmdWord
  mask : CmdWord
  /-- the row's command with its operands taken from the word's fields (R61) -/
  read : CmdWord → Instr

/-- ENC's row (R62). -/
def rowEnc : OpRow :=
  { matchBits := 0x10000000, mask := 0xFC00FF00, read := fun w => .enc (Machine.dataField w) (Machine.keyField w) }
/-- DEC's row (R62). -/
def rowDec : OpRow :=
  { matchBits := 0x20000000, mask := 0xFC00FF00, read := fun w => .dec (Machine.dataField w) (Machine.keyField w) }
/-- KEYINFO's row (R62). -/
def rowKeyinfo : OpRow :=
  { matchBits := 0x30000000, mask := 0xFC00FFFF, read := fun w => .keyinfo (Machine.keyField w) }
/-- SOPEN's row (R62). -/
def rowSopen : OpRow :=
  { matchBits := 0x40000000, mask := 0xF400FFFF
    read := fun w => .sopen (Machine.dirOfBit (Machine.dField w)) (Machine.keyField w) }
/-- SBYTE's row (R62). -/
def rowSbyte : OpRow :=
  { matchBits := 0x50000000, mask := 0xFFFFFF00, read := fun w => .sbyte (Machine.dataField w) }
/-- SCLOSE's row (R62). -/
def rowSclose : OpRow :=
  { matchBits := 0x60000000, mask := 0xFFFFFFFF, read := fun _ => .sclose }
/-- SEARCH's row (R62). -/
def rowSearch : OpRow :=
  { matchBits := 0x70000000, mask := 0xFFFF0000, read := fun w => .search (Machine.dataField w) (Machine.auxField w) }

/-- The opcode map, in the order of R62. -/
def opRows : List OpRow := [rowEnc, rowDec, rowKeyinfo, rowSopen, rowSbyte, rowSclose, rowSearch]

/-- Whether a word is the command of a row (R62). -/
def OpRow.hits (r : OpRow) (w : CmdWord) : Bool := decide (w &&& r.mask = r.matchBits)

/-- The cause for which a word that matches no row is illegal (R64). -/
def rejectReason (w : CmdWord) : DecodeReject :=
  if Machine.opField w = 0#4 ∨ 8#4 ≤ Machine.opField w then .unknownOp else .mustBeZero

/-- Decoding (R63): total, reads no state, rejects by name. -/
def decode (w : CmdWord) : Except DecodeReject Instr :=
  match opRows.find? (fun r => r.hits w) with
  | some r => .ok (r.read w)
  | none => .error (rejectReason w)

/-- The operation code of a command (R62). -/
def opcode : Instr → BitVec 4
  | .enc _ _ => 1#4
  | .dec _ _ => 2#4
  | .keyinfo _ => 3#4
  | .sopen _ _ => 4#4
  | .sbyte _ => 5#4
  | .sclose => 6#4
  | .search _ _ => 7#4

/-- The word of a command (R60, R62): its fields in place, every field it does not use 0. -/
def encode (i : Instr) : CmdWord :=
  match i with
  | .enc blk key => Machine.commandWord (opcode i) 0 0 key 0 blk
  | .dec blk key => Machine.commandWord (opcode i) 0 0 key 0 blk
  | .keyinfo key => Machine.commandWord (opcode i) 0 0 key 0 0
  | .sopen dir key => Machine.commandWord (opcode i) (Machine.bitOfDir dir) 0 key 0 0
  | .sbyte blk => Machine.commandWord (opcode i) 0 0 0 0 blk
  | .sclose => Machine.commandWord (opcode i) 0 0 0 0 0
  | .search plain cipher => Machine.commandWord (opcode i) 0 0 0 cipher plain

/-- The row a command stands in (R62). -/
def rowOf : Instr → OpRow
  | .enc _ _ => rowEnc
  | .dec _ _ => rowDec
  | .keyinfo _ => rowKeyinfo
  | .sopen _ _ => rowSopen
  | .sbyte _ => rowSbyte
  | .sclose => rowSclose
  | .search _ _ => rowSearch

/-- The command word whose bits, numbered from bit 0 of the word, are those of `w` up to `nbits`, all above being 0. -/
def tableWord (nbits w : Nat) : CmdWord := BitVec.ofNat 32 (w % 2 ^ nbits)

/-- What the decoder reads from a word given in the opcode table's bit numbering; a command is one 32-bit word (R60, R69). -/
def decodeTableWord (nbits w : Nat) : Option Instr :=
  match decode (tableWord nbits w) with
  | .ok i => some i
  | .error _ => none

end Sys2Proof
end

