-- ==== Sys2Proof/Machine/Permutation.lean ====
section
/-! DEFINITION. The permutation engine (R90 to R103): the generic `permute` and `rotate_left` on bit sequences, the six
constant tables, and the fixed wirings the core uses. -/

namespace Sys2Proof.Machine

/-- `TableRead(T, i)`, and likewise position `i` of a bit sequence: entry `i`, 1-based, defined only for `1 ≤ i ≤ len` (R40). -/
def entryAt {α : Type} (l : List α) (i : Nat) : Option α :=
  if i = 0 then none else l[i - 1]?

/-- `permute(input, table)` (R90), refused unless every entry of the table is in `1..len(input)` (R91). -/
def permute (input : List Bool) : List Nat → Option (List Bool)
  | [] => some []
  | t :: ts =>
    match entryAt input t, permute input ts with
    | some b, some bs => some (b :: bs)
    | _, _ => none

/-- `rotate_left(input, shift)`, the shift taken modulo the length; the empty vector stays empty (R92). -/
def rotateLeft (input : List Bool) (shift : Nat) : List Bool :=
  input.drop (shift % input.length) ++ input.take (shift % input.length)

/-- Table IP (R94). -/
def tableIP : List Nat := [2, 6, 3, 1, 4, 8, 5, 7]
/-- Table IPINV (R95). -/
def tableIPINV : List Nat := [4, 1, 3, 5, 7, 2, 8, 6]
/-- Table EP (R96). -/
def tableEP : List Nat := [4, 1, 2, 3, 2, 3, 4, 1]
/-- Table SP, also called P4 (R97). -/
def tableSP : List Nat := [2, 4, 3, 1]
/-- Table P10 (R98). -/
def tableP10 : List Nat := [3, 5, 2, 7, 4, 10, 1, 9, 8, 6]
/-- Table P8 (R99). -/
def tableP8 : List Nat := [6, 3, 7, 4, 8, 5, 10, 9]

/-- The fixed wiring of a table whose entries are all in range of its input (R100, R103): `out<i> = in<table<i>>`. -/
def wire {m : Nat} (table : List Nat) (v : BitVec m) : BitVec table.length :=
  (ofBits (table.map (bitAt v))).cast (List.length_map _)

/-- IP, 8 bits to 8 (R94). -/
def ip (v : Block) : Block := wire tableIP v
/-- IPINV, 8 bits to 8 (R95). -/
def ipInv (v : Block) : Block := wire tableIPINV v
/-- EP, 4 bits to 8 (R96). -/
def ep (v : Half) : BitVec 8 := wire tableEP v
/-- SP, 4 bits to 4 (R97). -/
def sp (v : Half) : Half := wire tableSP v
/-- P10, 10 bits to 10 (R98). -/
def p10 (v : Key) : BitVec 10 := wire tableP10 v
/-- P8, 10 bits to 8 (R99). -/
def p8 (v : BitVec 10) : RoundKey := wire tableP8 v

/-- `rotate_left` on a 5-bit key-schedule half (R92, R103). -/
def rotateKeyHalf (v : KeyHalf) (shift : Nat) : KeyHalf := v.rotateLeft shift

end Sys2Proof.Machine
end

