-- ==== Sys2Proof/Machine/KeySchedule.lean ====
section
/-! DEFINITION. The key scheduler (R110 to R115). -/

namespace Sys2Proof.Machine

/-- `KeySchedule(key) -> (K1, K2)`, step by step as R110 writes it. -/
def keySchedule (key : Key) : KeyPair :=
  let p := p10 key
  let left1 := rotateKeyHalf (leftKeyHalf p) 1
  let right1 := rotateKeyHalf (rightKeyHalf p) 1
  let left3 := rotateKeyHalf left1 2
  let right3 := rotateKeyHalf right1 2
  { k1 := p8 (joinKeyHalves left1 right1), k2 := p8 (joinKeyHalves left3 right3) }

end Sys2Proof.Machine
end

