-- ==== Sys2Proof/Machine/RoundFunction.lean ====
section
/-! DEFINITION. The round function F and its two S-boxes (R125 to R134). The S-boxes are the source's, not the textbook's. -/

namespace Sys2Proof.Machine

/-- A 4x4 matrix of values 0 to 3, rows in list order from row 0 (R129). -/
abbrev SBox := Vector (Vector (Fin 4) 4) 4

/-- S-box S1 (R129). -/
def sbox1 : SBox := #v[#v[1, 0, 3, 2], #v[3, 2, 1, 0], #v[0, 2, 1, 3], #v[3, 1, 0, 2]]

/-- S-box S2 (R130). -/
def sbox2 : SBox := #v[#v[0, 1, 2, 3], #v[2, 3, 1, 0], #v[3, 0, 1, 2], #v[2, 1, 0, 3]]

/-- `SboxRead(S, row, col)`; rows and columns are 0 to 3 by type (R40). -/
def sboxRead (s : SBox) (row col : Fin 4) : Fin 4 := (s[row])[col]

/-- A row or column index: twice the first bit plus the second (R128). -/
def sboxIndex (hi lo : Bool) : Fin 4 :=
  ⟨2 * hi.toNat + lo.toNat, by cases hi <;> cases lo <;> decide⟩

/-- `row = 2 * h<1> + h<4>`, the outer two bits (R128). -/
def sboxRow (h : Half) : Fin 4 := sboxIndex (bitAt h 1) (bitAt h 4)

/-- `col = 2 * h<2> + h<3>`, the inner two bits (R128). -/
def sboxCol (h : Half) : Fin 4 := sboxIndex (bitAt h 2) (bitAt h 3)

/-- `vec_2(SboxRead(S, row, col))` for a 4-bit half (R131). -/
def sboxOut (s : SBox) (h : Half) : BitVec 2 := vecOf 2 (sboxRead s (sboxRow h) (sboxCol h)).val

/-- `F(right, k)` (R133): expansion, key mixing, S1 on the left half and S2 on the right, then SP. -/
def roundF (right : Half) (k : RoundKey) : Half :=
  let x := ep right ^^^ k
  let a := leftHalf x
  let b := rightHalf x
  let s := joinPairs (sboxOut sbox1 a) (sboxOut sbox2 b)
  sp s

end Sys2Proof.Machine
end

