-- ==== Sys2Proof/Machine/BlockCipher.lean ====
section
/-! DEFINITION. The Feistel combiner and the block functions (R140 to R150), and the functions the adapter and the search
are made of: StreamMap (R160) and Search (R180). -/

namespace Sys2Proof.Machine

/-- The Feistel combiner `fk(L, R, k) = (L ^ F(R, k), R)` (R140). -/
def fk (l r : Half) (k : RoundKey) : Half × Half := (l ^^^ roundF r k, r)

/-- The swap between the two rounds (R141). -/
def sw (lr : Half × Half) : Half × Half := (lr.2, lr.1)

/-- `Crypt(block, ka, kb)` (R142): IP, round 1 with `ka` and the swap, round 2 with `kb` and no swap, IPINV. -/
def crypt (block : Block) (ka kb : RoundKey) : Block :=
  let p := ip block
  let lr1 := sw (fk (leftHalf p) (rightHalf p) ka)
  let lr2 := fk lr1.1 lr1.2 kb
  ipInv (joinHalves lr2.1 lr2.2)

/-- `Crypt` under a key pair in the order a direction consumes it: K1 then K2, or K2 then K1 (R143, R144, R162). -/
def cryptDir (dir : Dir) (kp : KeyPair) (block : Block) : Block :=
  match dir with
  | .encrypt => crypt block kp.k1 kp.k2
  | .decrypt => crypt block kp.k2 kp.k1

/-- `Encrypt(plaintext, key)` (R143). -/
def encrypt (plain : Block) (key : Key) : Block := cryptDir .encrypt (keySchedule key) plain

/-- `Decrypt(ciphertext, key)` (R144). -/
def decrypt (cipher : Block) (key : Key) : Block := cryptDir .decrypt (keySchedule key) cipher

/-- `StreamMap(dir, key, bytes)` (R160): each byte on its own. -/
def streamMap (dir : Dir) (key : Key) (bytes : List Block) : List Block :=
  match dir with
  | .encrypt => bytes.map (fun b => encrypt b key)
  | .decrypt => bytes.map (fun b => decrypt b key)

/-- The keys below `n` that map `plain` to `cipher`, ascending (R180, R185). -/
def keysBelow (plain cipher : Block) (n : Nat) : List Nat :=
  (List.range n).filter (fun k => decide (encrypt plain (vecOf 10 k) = cipher))

/-- `Search(P, C)` (R180), as the ascending list of keys 0 to 1023. -/
def searchKeys (plain cipher : Block) : List Nat := keysBelow plain cipher nKeys

end Sys2Proof.Machine
end

