-- ==== Sys2Proof/Config.lean ====
section
/-! DEFINITION. What an implementation fixes and the spec leaves open: the channel depths (R8, R48) and the free choices of the
next agent and of the outside's next move (`93_implementation_defined.md` U13). -/

namespace Sys2Proof

/-- How many words beyond one the response channel holds (open: `92_eei_decisions.md` D19; log entry 6). -/
opaque Config.rspExtra : Nat

/-- How many words beyond one the result channel holds (open: `92_eei_decisions.md` D19; log entry 6). -/
opaque Config.resExtra : Nat

/-- RSP_DEPTH, at least 1 (R8). -/
def Config.rspDepth : Nat := Config.rspExtra + 1

/-- RES_DEPTH, at least 1 (R8). -/
def Config.resDepth : Nat := Config.resExtra + 1

/-- FREE VALUE: which agent steps when both have a step and no move of the script says so: the spec gives no rule for the
order of CMD and SRCH (R49, U13). Applied to the draw counter `turn` of State (log entry 4). -/
opaque Config.freeAgent : Nat → Agent

/-- FREE VALUE: the moves of an outside that goes on for ever (R223, R230; log entry 18): any infinite sequence of moves.
Applied to the draw counter `turn` of State. -/
opaque Config.freeMove : Nat → Move

end Sys2Proof
end

