-- ==== Sys2Proof/Machine/State.lean ====
section
/-! DEFINITION. The state of the core (R21 to R34), as plain data, and its value after reset. -/

namespace Sys2Proof.Machine

/-- The registers that hold a value while a stream is open (R21, R33). -/
structure StreamCtx where
  /-- `S_DIR` -/
  dir : Dir
  /-- `S_K1` -/
  k1 : RoundKey
  /-- `S_K2` -/
  k2 : RoundKey
  deriving DecidableEq, Repr

/-- The registers that hold a value while a search runs (R22, R33). -/
structure SearchCtx where
  /-- `Q_P` -/
  p : Block
  /-- `Q_C` -/
  c : Block
  /-- `Q_CAND`: 11 bits wide, "takes only the values 0 to 1024" (R22) -/
  cand : Fin 1025
  deriving DecidableEq, Repr

/-- The machine's state. -/
structure State where
  /-- the stream context (R21): `S_OPEN = 1` exactly when it is present, and then `S_DIR`, `S_K1`, `S_K2` hold values -/
  stream : Option StreamCtx
  /-- the search context (R22): `Q_BUSY = 1` exactly when it is present, and then `Q_P`, `Q_C`, `Q_CAND` hold values -/
  search : Option SearchCtx
  /-- `CMDQ`, oldest word first (R23) -/
  cmdq : List CmdWord
  /-- `RSPQ`, oldest word first (R23) -/
  rspq : List RspWord
  /-- `RESQ`, oldest word first (R23) -/
  resq : List ResWord
  /-- the level the HOST drives on the pin `CANCEL` (R24) -/
  cancel : Bool
  /-- the model's own: the moves to come that the outside has fixed, oldest first (log entry 3) -/
  script : List Move
  /-- the model's own: whether, the script's moves made, the outside goes on for ever with moves the free value gives (R223, log
  entry 18); if not, the HOST makes no further move -/
  hostGoesOn : Bool
  /-- the model's own: how many choices were drawn from `Config.freeAgent` and `Config.freeMove` (log entries 4 and 18) -/
  turn : Nat
  deriving DecidableEq, Repr

/-- Why the machine would stop with a fault. It has no constructor: nothing in the core is fatal (R200), and every command
word, in every state, has one defined response and one defined next state. -/
inductive Fault where
  deriving DecidableEq, Repr

/-- Why an instruction would have no meaning. -/
inductive Refusal where
  /-- An instruction the model does not give a meaning to. No arm of exec answers it: all seven commands are modelled. Safe. -/
  | notModelled (mnemonic : String)
  deriving DecidableEq, Repr

/-- The state after reset (R34): no stream, no search, the three channels empty. `CANCEL` is not the core's; its level here is
DESIGN CHOICE 0 (log entry 5). The model's own `script` and `turn` start empty and at 0, and the HOST is silent (log entries 3, 4 and 18). -/
def State.reset : State :=
  { stream := none, search := none, cmdq := [], rspq := [], resq := []
    cancel := false, script := [], hostGoesOn := false, turn := 0 }

end Sys2Proof.Machine
end

