-- ==== Sys2Proof/Machine/Flags.lean ====
section
/-! DEFINITION. The one-bit conditions the core tests (R28): `S_OPEN`, `Q_BUSY`, room in a channel (R48), and the flag `INC`
that the end of a search computes (R68). There are no arithmetic flags. -/

namespace Sys2Proof.Machine

/-- `S_OPEN`: a byte stream is open (R21). -/
def State.sOpen (s : State) : Bool := s.stream.isSome

/-- `Q_BUSY`: a key search is running (R22). -/
def State.qBusy (s : State) : Bool := s.search.isSome

/-- `RSPQ` is not full: `len(RSPQ) < RSP_DEPTH` (R48). -/
def State.rspRoom (s : State) : Bool := decide (s.rspq.length < Config.rspDepth)

/-- `RESQ` is not full: `len(RESQ) < RES_DEPTH` (R48). -/
def State.resRoom (s : State) : Bool := decide (s.resq.length < Config.resDepth)

/-- `INC` of an END word: 1 if the search was cancelled before all 1024 candidates were tested, else 0 (R68). -/
def incFlag (cancelled : Bool) : BitVec 1 := BitVec.ofBool cancelled

end Sys2Proof.Machine
end

