-- ==== Sys2Proof/Machine/Words.lean ====
section
/-! DEFINITION. The words the core sends: responses with their status codes (R65 to R67) and search results (R68). -/

namespace Sys2Proof.Machine

/-- The status codes that are produced (R66). -/
inductive Status where
  | ok           -- 0x0
  | errIllegal   -- 0x1: the word spells no command
  | errBusy      -- 0x2: SOPEN with a stream open, SEARCH with a search running
  | errNoStream  -- 0x3: SBYTE or SCLOSE with no stream open
  deriving DecidableEq, Repr

/-- The `STATUS` field of a status (R66). -/
def statusCode : Status → BitVec 4
  | .ok => 0#4
  | .errIllegal => 1#4
  | .errBusy => 2#4
  | .errNoStream => 3#4

/-- `rsp[31:28]` (R65). -/
def rspStatus (r : RspWord) : BitVec 4 := r.extractLsb' 28 4
/-- `rsp[27:16]`, always 0 (R65). -/
def rspZero (r : RspWord) : BitVec 12 := r.extractLsb' 16 12
/-- `rsp[15:8]`, the first payload byte (R65). -/
def rspHi (r : RspWord) : BitVec 8 := r.extractLsb' 8 8
/-- `rsp[7:0]`, the second payload byte (R65). -/
def rspLo (r : RspWord) : BitVec 8 := r.extractLsb' 0 8

/-- The response word of `respond(status, hi, lo)` (R65). -/
def rspWord (st : Status) (hi lo : BitVec 8) : RspWord :=
  inField 32 (statusCode st) 28 ||| inField 32 hi 8 ||| inField 32 lo 0

/-- `res[15]`: 0 in a HIT word, 1 in an END word (R68). -/
def resEnd (r : ResWord) : BitVec 1 := r.extractLsb' 15 1
/-- `res[14]`, the flag `INC` of an END word (R28, R68). -/
def resInc (r : ResWord) : BitVec 1 := r.extractLsb' 14 1
/-- `res[13:11]`, always 0 (R68). -/
def resZero (r : ResWord) : BitVec 3 := r.extractLsb' 11 3
/-- `res[10:0]`: the key of a HIT word, `CHECKED` of an END word (R68). -/
def resVal (r : ResWord) : BitVec 11 := r.extractLsb' 0 11

/-- The HIT word of `emit_hit(k)` (R68). -/
def hitWord (k : Nat) : ResWord := inField 16 (vecOf 11 k) 0

/-- The END word of `emit_end(inc, checked)` (R68). -/
def endWord (inc : BitVec 1) (checked : Nat) : ResWord :=
  inField 16 1#1 15 ||| inField 16 inc 14 ||| inField 16 (vecOf 11 checked) 0

end Sys2Proof.Machine
end

