-- ==== Sys2Proof/Machine/Ops.lean ====
section
/-! DEFINITION. The named operations over the state: registers, channels, the error response that stands in place of exception
entry (R200, R205), the HOST's moves (R230) and reset (R220). -/

namespace Sys2Proof.Machine

/-- `S_DIR`: no value while no stream is open (R33). -/
def State.sDir (s : State) : Option Dir := s.stream.map StreamCtx.dir
/-- `S_K1`: no value while no stream is open (R33). -/
def State.sK1 (s : State) : Option RoundKey := s.stream.map StreamCtx.k1
/-- `S_K2`: no value while no stream is open (R33). -/
def State.sK2 (s : State) : Option RoundKey := s.stream.map StreamCtx.k2
/-- `Q_P`: no value while no search runs (R33). -/
def State.qP (s : State) : Option Block := s.search.map SearchCtx.p
/-- `Q_C`: no value while no search runs (R33). -/
def State.qC (s : State) : Option Block := s.search.map SearchCtx.c
/-- `Q_CAND`, the 11-bit register: no value while no search runs (R33). -/
def State.qCand (s : State) : Option (BitVec 11) := s.search.map (fun q => BitVec.ofNat 11 q.cand.val)

/-- The key pair a stream context holds (R21). -/
def StreamCtx.keys (c : StreamCtx) : KeyPair := { k1 := c.k1, k2 := c.k2 }

/-- `S_K1 <- K1; S_K2 <- K2; S_DIR <- D; S_OPEN <- 1` (R161). -/
def State.openStream (s : State) (dir : Dir) (kp : KeyPair) : State :=
  { s with stream := some { dir := dir, k1 := kp.k1, k2 := kp.k2 } }

/-- `S_OPEN <- 0; S_DIR, S_K1, S_K2 <- no value` (R163). -/
def State.closeStream (s : State) : State := { s with stream := none }

/-- `Q_P <- blk; Q_C <- aux; Q_CAND <- 0; Q_BUSY <- 1` (R182). -/
def State.startSearch (s : State) (plain cipher : Block) : State :=
  { s with search := some { p := plain, c := cipher, cand := 0 } }

/-- The search context a search step leaves: the next candidate, or no value at the end (R183). -/
def State.setSearch (s : State) (q : Option SearchCtx) : State := { s with search := q }

/-- Append a word to `RSPQ` (R23). -/
def State.pushResponse (s : State) (r : RspWord) : State := { s with rspq := s.rspq ++ [r] }

/-- Append a word to `RESQ` (R23). -/
def State.pushResult (s : State) (r : ResWord) : State := { s with resq := s.resq ++ [r] }

/-- `respond(status, hi, lo)` (R65). -/
def State.respond (s : State) (st : Status) (hi lo : BitVec 8) : State := s.pushResponse (rspWord st hi lo)

/-- An error, in place of taking an exception (R200, R205): one response with the status and a zero payload, and nothing else.
There is no saved state and nothing to return from (R207). -/
def State.respondError (s : State) (st : Status) : State := s.respond st 0 0

/-- CMD takes the oldest word of `CMDQ`; `rest` is what stays (R47). -/
def State.setCmdq (s : State) (rest : List CmdWord) : State := { s with cmdq := rest }

/-- The HOST puts a word into `CMDQ` (R230). -/
def State.putCommand (s : State) (w : CmdWord) : State := { s with cmdq := s.cmdq ++ [w] }

/-- The HOST takes the oldest response; nothing happens when there is none (R230, log entry 7). -/
def State.takeResponse (s : State) : State := { s with rspq := s.rspq.tail }

/-- The HOST takes the oldest result word; nothing happens when there is none (R230, log entry 7). -/
def State.takeResult (s : State) : State := { s with resq := s.resq.tail }

/-- The HOST changes the level of `CANCEL` (R24). -/
def State.setCancel (s : State) (level : Bool) : State := { s with cancel := level }

/-- The reset event (R220, R221): every register and channel as in `State.reset`; `CANCEL` neither read nor changed; what the
outside does next and the draw counter are not the core's and stay (log entry 14). -/
def State.resetCore (s : State) : State :=
  { State.reset with cancel := s.cancel, script := s.script, hostGoesOn := s.hostGoesOn, turn := s.turn }

/-- The moves of the script that are still to come. -/
def State.setScript (s : State) (ms : List Move) : State := { s with script := ms }

/-- A choice was drawn from `Config.freeAgent` or `Config.freeMove` (log entries 4 and 18). -/
def State.nextTurn (s : State) : State := { s with turn := s.turn + 1 }

/-- Place a word so that the very next step is CMD executing it (log entry 8): at the head of `CMDQ`, with CMD the next to move;
a full `RSPQ`, on which CMD would hold (R48), is taken empty by the HOST. -/
def State.placeCommand (s : State) (w : CmdWord) : State :=
  { s with
    cmdq := w :: s.cmdq
    rspq := if s.rspRoom then s.rspq else []
    script := Move.cmd :: s.script }

end Sys2Proof.Machine
end

