-- ==== Sys2Proof/Machine/BlockCommands.lean ====
section
/-! DEFINITION. The stateless commands ENC, DEC (R147, R148) and KEYINFO (R114): they read and write no register. -/

namespace Sys2Proof.Machine

/-- ENC (R147). -/
def execEnc (blk : Block) (key : Key) (s : State) : Host.Outcome State Fault Refusal :=
  .next (s.respond .ok 0 (encrypt blk key))

/-- DEC (R148). -/
def execDec (blk : Block) (key : Key) (s : State) : Host.Outcome State Fault Refusal :=
  .next (s.respond .ok 0 (decrypt blk key))

/-- KEYINFO (R114): `HI = K1`, `LO = K2`. -/
def execKeyinfo (key : Key) (s : State) : Host.Outcome State Fault Refusal :=
  let kp := keySchedule key
  .next (s.respond .ok kp.k1 kp.k2)

end Sys2Proof.Machine
end

