-- ==== Sys2Proof/Machine/SearchCommands.lean ====
section
/-! DEFINITION. The key search: the command SEARCH (R182) and the step of agent SRCH (R183). -/

namespace Sys2Proof.Machine

/-- SEARCH (R182): start a search; refused with `ERR_BUSY`, the running search undisturbed. -/
def execSearch (plain cipher : Block) (s : State) : Host.Outcome State Fault Refusal :=
  if s.qBusy then .next (s.respondError .errBusy)
  else .next ((s.startSearch plain cipher).respond .ok 0 0)

/-- What one search step appends to `RESQ`, if anything, and the search context it leaves (R183), for a sample of `CANCEL`. -/
def searchAdvance (q : SearchCtx) (cancel : Bool) : Option ResWord × Option SearchCtx :=
  if h : q.cand.val = 1024 then
    (some (endWord (incFlag false) 1024), none)
  else if cancel then
    (some (endWord (incFlag true) q.cand.val), none)
  else
    (if encrypt q.p (vecOf 10 q.cand.val) = q.c then some (hitWord q.cand.val) else none,
      some { q with cand := ⟨q.cand.val + 1, by have := q.cand.isLt; omega⟩ })

/-- The engine alone, one sample of `CANCEL` a step until the search ends: the words it appends, in order, and the context it
leaves (R183, R189). -/
def searchRun : List Bool → SearchCtx → List ResWord × Option SearchCtx
  | [], q => ([], some q)
  | cancel :: later, q =>
    match searchAdvance q cancel with
    | (r, none) => (r.toList, none)
    | (r, some q') => (r.toList ++ (searchRun later q').1, (searchRun later q').2)

/-- The next search step of a state: none while `Q_BUSY = 0`, and none that would append to a full `RESQ` (R48). -/
def searchStep? (s : State) : Option (Option ResWord × Option SearchCtx) :=
  match s.search with
  | none => none
  | some q =>
    if (searchAdvance q s.cancel).1.isSome && !s.resRoom then none else some (searchAdvance q s.cancel)

/-- SRCH has a step (R48). -/
def State.srchReady (s : State) : Bool := (searchStep? s).isSome

/-- The step of agent SRCH (R183); an SRCH that has no step changes nothing (R48). -/
def srchStep (s : State) : State :=
  match searchStep? s with
  | none => s
  | some (none, q') => s.setSearch q'
  | some (some r, q') => (s.setSearch q').pushResult r

end Sys2Proof.Machine
end

