-- ==== Sys2Proof/Machine/StreamCommands.lean ====
section
/-! DEFINITION. The byte-stream adapter's commands SOPEN, SBYTE, SCLOSE (R161 to R163). -/

namespace Sys2Proof.Machine

/-- SOPEN (R161): latch the key pair and the direction; refused with `ERR_BUSY`, the open stream undisturbed. -/
def execSopen (dir : Dir) (key : Key) (s : State) : Host.Outcome State Fault Refusal :=
  if s.sOpen then .next (s.respondError .errBusy)
  else .next ((s.openStream dir (keySchedule key)).respond .ok 0 0)

/-- SBYTE (R162): one byte under the latched pair, in the order the direction consumes it. -/
def execSbyte (blk : Block) (s : State) : Host.Outcome State Fault Refusal :=
  match s.stream with
  | none => .next (s.respondError .errNoStream)
  | some c => .next (s.respond .ok 0 (cryptDir c.dir c.keys blk))

/-- SCLOSE (R163): discard the key pair. -/
def execSclose (s : State) : Host.Outcome State Fault Refusal :=
  if s.sOpen then .next (s.closeStream.respond .ok 0 0)
  else .next (s.respondError .errNoStream)

end Sys2Proof.Machine
end

