-- ==== Sys2Proof/Machine/Dispatch.lean ====
section
/-! DEFINITION. One arm per command of R62. -/

namespace Sys2Proof.Machine

def exec (i : Instr) (s : State) : Host.Outcome State Fault Refusal :=
  match i with
  | .enc blk key => Sys2Proof.Machine.execEnc blk key s
  | .dec blk key => Sys2Proof.Machine.execDec blk key s
  | .keyinfo key => Sys2Proof.Machine.execKeyinfo key s
  | .sopen dir key => Sys2Proof.Machine.execSopen dir key s
  | .sbyte blk => Sys2Proof.Machine.execSbyte blk s
  | .sclose => Sys2Proof.Machine.execSclose s
  | .search plain cipher => Sys2Proof.Machine.execSearch plain cipher s

end Sys2Proof.Machine
end

