-- ==== Sys2Proof/Machine/Agents.lean ====
section
/-! DEFINITION. What one step of a run is: the step of agent CMD (R47, R63), the choice of the next move (R51, log entries 3,
4 and 18) and the HOST's moves (R230). -/

namespace Sys2Proof.Machine

/-- One command word executed (R63): a command by its own rule, any other word by R64. -/
def execWord (w : CmdWord) (s : State) : Host.Outcome State Fault Refusal :=
  match decode w with
  | .ok i => exec i s
  | .error _ => .next (s.respondError .errIllegal)

/-- CMD has a step: a word waits in `CMDQ` and `RSPQ` has room (R48). -/
def State.cmdReady (s : State) : Bool := !s.cmdq.isEmpty && s.rspRoom

/-- The step of agent CMD (R44, R47): take the oldest word and execute it to completion; a CMD that has no step changes
nothing (R48). -/
def cmdStep (s : State) : Host.Outcome State Fault Refusal :=
  match s.cmdq with
  | [] => .next s
  | w :: rest => if s.rspRoom then execWord w (s.setCmdq rest) else .next s

/-- The move of an agent. -/
def moveOf : Agent → Move
  | .cmd => .cmd
  | .srch => .srch

/-- The next move and the state in which it is made. The script's oldest move comes first. With no script: an outside that goes
on makes the move the free value gives (R223); beside a silent one the agent that has a step takes it, and when both have one the
free value chooses (U13). `none`: no agent has a step until the HOST acts (R215). -/
def nextMove (s : State) : Option Move × State :=
  match s.script with
  | m :: ms => (some m, s.setScript ms)
  | [] =>
    if s.hostGoesOn then (some (Config.freeMove s.turn), s.nextTurn)
    else
      match s.cmdReady, s.srchReady with
      | true, true => (some (moveOf (Config.freeAgent s.turn)), s.nextTurn)
      | true, false => (some .cmd, s)
      | false, true => (some .srch, s)
      | false, false => (none, s)

/-- One move made. -/
def makeMove (m : Move) (s : State) : Host.Outcome State Fault Refusal :=
  match m with
  | .cmd => cmdStep s
  | .srch => .next (srchStep s)
  | .put w => .next (s.putCommand w)
  | .takeResponse => .next s.takeResponse
  | .takeResult => .next s.takeResult
  | .setCancel level => .next (s.setCancel level)
  | .rst => .next s.resetCore

/-- One step of a run. -/
def runStep (s : State) : Host.Outcome State Fault Refusal :=
  match nextMove s with
  | (some m, s') => makeMove m s'
  | (none, s') => .next s'

end Sys2Proof.Machine
end

