-- ==== Sys2Proof/Machine/Step.lean ====
section
/-! DEFINITION. The step of the machine, and the placing of a command word where it takes its next one. -/

namespace Sys2Proof.Machine

/-- One step: one atomic move of CMD, SRCH or the HOST (R44, R51, R223). -/
def step (s : State) : Host.Outcome State Fault Refusal := runStep s

/-- `s` with the command word `w` placed so that the next step executes it (log entry 8). -/
def State.withFetchWord (s : State) (nbits w : Nat) : State := s.placeCommand (tableWord nbits w)

end Sys2Proof.Machine
end

