-- ==== Sys2Proof/Machine/Boundary.lean ====
section
/-! DEFINITION. The string boundary (R70 to R75): predicates on strings of '0' and '1', the conversions, and the commands
formed from strings that pass. Host-side functions beside the machine. -/

namespace Sys2Proof.Machine

/-- The typed errors of the host-side functions (R201): they are told apart from each other and from every `STATUS`. -/
inductive BoundaryError where
  /-- class (a): a malformed block or key string, a code point above 255, a code point that is no scalar value -/
  | shape
  /-- class (b): decrypted bytes that are not well-formed UTF-8 (R168) -/
  | decoding
  deriving DecidableEq, Repr

/-- A character is '0' or '1' (R72). -/
def isBinaryChar (c : Char) : Bool := c == '0' || c == '1'

/-- `is_valid_key(s)` (R72): total on strings. -/
def isValidKey (s : List Char) : Bool := s.length == 10 && s.all isBinaryChar

/-- `is_valid_block(s)` (R73): total on strings. -/
def isValidBlock (s : List Char) : Bool := s.length == 8 && s.all isBinaryChar

/-- `vec(s)` (R71), the first character at position 1. -/
def vecOfString (s : List Char) : BitVec s.length :=
  (ofBits (s.map (fun c => c == '1'))).cast (List.length_map _)

/-- `str(v)` (R71). -/
def strOfVec {n : Nat} (v : BitVec n) : List Char := (bitsOf v).map (fun b => if b then '1' else '0')

/-- A key string as a key, or a shape error: never padded, never truncated (R74). -/
def parseKey (s : List Char) : Except BoundaryError Key :=
  if isValidKey s then .ok ((vecOfString s).setWidth 10) else .error .shape

/-- A block string as a block, or a shape error: never padded, never truncated (R74). -/
def parseBlock (s : List Char) : Except BoundaryError Block :=
  if isValidBlock s then .ok ((vecOfString s).setWidth 8) else .error .shape

/-- The command `key_info(s)` issues; for an invalid key none, and an error value (R75). -/
def keyInfoCommand (s : List Char) : Except BoundaryError CmdWord :=
  match parseKey s with
  | .ok key => .ok (encode (.keyinfo key))
  | .error e => .error e

/-- The pair of strings `key_info` returns from the response (R75). -/
def keyInfoReply (r : RspWord) : List Char × List Char :=
  (strOfVec (rspHi r), strOfVec (rspLo r))

end Sys2Proof.Machine
end

