-- ==== Sys2Proof/Machine/TextLayer.lean ====
section
/-! DEFINITION. The text layer (R165 to R171): strict UTF-8 and the text functions over StreamMap. Host-side functions beside
the machine; a text is a list of code points. -/

namespace Sys2Proof.Machine

/-- A byte from its integer value. -/
def byteOf (x : Nat) : Block := BitVec.ofNat 8 x

/-- A Unicode scalar value: 0 to 0x10FFFF, not a surrogate (R167). -/
def isScalar (c : Nat) : Bool := decide (c ≤ 0x10FFFF ∧ ¬ (0xD800 ≤ c ∧ c ≤ 0xDFFF))

/-- The 1 to 4 bytes of a scalar value; none for any other code point (R167). -/
def utf8EncodePoint (c : Nat) : Option (List Block) :=
  if !isScalar c then none
  else if c ≤ 0x7F then some [byteOf c]
  else if c ≤ 0x7FF then some [byteOf (0xC0 + c / 64), byteOf (0x80 + c % 64)]
  else if c ≤ 0xFFFF then
    some [byteOf (0xE0 + c / 4096), byteOf (0x80 + c / 64 % 64), byteOf (0x80 + c % 64)]
  else
    some [byteOf (0xF0 + c / 262144), byteOf (0x80 + c / 4096 % 64), byteOf (0x80 + c / 64 % 64), byteOf (0x80 + c % 64)]

/-- `utf8_encode(text)` (R167). -/
def utf8Encode : List Nat → Option (List Block)
  | [] => some []
  | c :: cs =>
    match utf8EncodePoint c, utf8Encode cs with
    | some b, some bs => some (b ++ bs)
    | _, _ => none

/-- The forms of a well-formed sequence, as ranges per byte (R167). -/
def utf8Forms : List (List (Nat × Nat)) :=
  [ [(0x00, 0x7F)],
    [(0xC2, 0xDF), (0x80, 0xBF)],
    [(0xE0, 0xE0), (0xA0, 0xBF), (0x80, 0xBF)],
    [(0xE1, 0xEC), (0x80, 0xBF), (0x80, 0xBF)],
    [(0xED, 0xED), (0x80, 0x9F), (0x80, 0xBF)],
    [(0xEE, 0xEF), (0x80, 0xBF), (0x80, 0xBF)],
    [(0xF0, 0xF0), (0x90, 0xBF), (0x80, 0xBF), (0x80, 0xBF)],
    [(0xF1, 0xF3), (0x80, 0xBF), (0x80, 0xBF), (0x80, 0xBF)],
    [(0xF4, 0xF4), (0x80, 0x8F), (0x80, 0xBF), (0x80, 0xBF)] ]

/-- A sequence of byte values has a form: as many bytes, each in its range. -/
def hasForm : List (Nat × Nat) → List Nat → Bool
  | [], [] => true
  | (lo, hi) :: rs, x :: xs => decide (lo ≤ x ∧ x ≤ hi) && hasForm rs xs
  | _, _ => false

/-- A sequence of byte values is one of the well-formed sequences of R167. -/
def isUtf8Seq (xs : List Nat) : Bool := utf8Forms.any (fun f => hasForm f xs)

/-- Put a decoded code point before the decoded rest. -/
def consPoint (c : Nat) (rest : Option (List Nat)) : Option (List Nat) := rest.map (fun cs => c :: cs)

/-- `utf8_decode(bytes)`, defined exactly on well-formed sequences (R167). -/
def utf8Decode : List Block → Option (List Nat)
  | [] => some []
  | b0 :: r0 =>
    if isUtf8Seq [b0.toNat] then consPoint b0.toNat (utf8Decode r0)
    else match r0 with
      | [] => none
      | b1 :: r1 =>
        if isUtf8Seq [b0.toNat, b1.toNat] then
          consPoint (b0.toNat % 32 * 64 + b1.toNat % 64) (utf8Decode r1)
        else match r1 with
          | [] => none
          | b2 :: r2 =>
            if isUtf8Seq [b0.toNat, b1.toNat, b2.toNat] then
              consPoint (b0.toNat % 16 * 4096 + b1.toNat % 64 * 64 + b2.toNat % 64) (utf8Decode r2)
            else match r2 with
              | [] => none
              | b3 :: r3 =>
                if isUtf8Seq [b0.toNat, b1.toNat, b2.toNat, b3.toNat] then
                  consPoint (b0.toNat % 8 * 262144 + b1.toNat % 64 * 4096 + b2.toNat % 64 * 64 + b3.toNat % 64)
                    (utf8Decode r3)
                else none

/-- `Encrypt-text(text, key)` (R165): one code point 0 to 255 per byte of the text's UTF-8 form; a text that cannot be encoded
is a shape error (R167). -/
def encryptText (text : List Nat) (key : Key) : Except BoundaryError (List Nat) :=
  match utf8Encode text with
  | none => .error .shape
  | some bytes => .ok ((streamMap .encrypt key bytes).map intOf)

/-- `Decrypt-text(cps, key)` (R166): a code point above 255 is a shape error (R169), bytes that are not well-formed UTF-8 are
the decoding error and nothing else (R168). -/
def decryptText (cps : List Nat) (key : Key) : Except BoundaryError (List Nat) :=
  if cps.all (fun c => decide (c ≤ 255)) then
    match utf8Decode (streamMap .decrypt key (cps.map byteOf)) with
    | none => .error .decoding
    | some text => .ok text
  else .error .shape

/-- The commands `ENCTEXT` expands to (R77). -/
def encTextCommands (text : List Nat) (key : Key) : Except BoundaryError (List Instr) :=
  match utf8Encode text with
  | none => .error .shape
  | some bytes => .ok (.sopen .encrypt key :: (bytes.map Instr.sbyte ++ [.sclose]))

/-- The commands `DECTEXT` expands to (R77); none when a code point is above 255 (R169). -/
def decTextCommands (cps : List Nat) (key : Key) : Except BoundaryError (List Instr) :=
  if cps.all (fun c => decide (c ≤ 255)) then
    .ok (.sopen .decrypt key :: ((cps.map byteOf).map Instr.sbyte ++ [.sclose]))
  else .error .shape

end Sys2Proof.Machine
end

