-- ==== Sys2Proof/Machine/Assembler.lean ====
section
/-! DEFINITION. The textual form of commands (R76) and the pseudo-instructions (R77): a line is split into its parts, and the
parts become command words or an error value. Host-side functions beside the machine; what the spec leaves open about white
space and numerals is log entry 10. -/

namespace Sys2Proof.Machine

/-- Why a line is no line of the textual form. -/
inductive AsmError where
  /-- the first word is none of R76 and R77 -/
  | unknownMnemonic
  /-- the operands are not as many, or not of the kind, the mnemonic takes -/
  | operands
  /-- an operand string has a wrong length or character, or a code point is out of range: never padded (R74, R76) -/
  | shape
  deriving DecidableEq, Repr

/-- A line of the textual form, its operands still as written (R76, R77). -/
inductive Line where
  | blank
  | enc (blk key : List Char)
  | dec (blk key : List Char)
  | keyinfo (key : List Char)
  | sopen (dir : Dir) (key : List Char)
  | sbyte (blk : List Char)
  | sclose
  | search (plain cipher : List Char)
  | word (hex : List Char)
  | encText (text : List Nat) (key : List Char)
  | decText (codes : List Nat) (key : List Char)
  | brute (plain cipher : List Char)
  deriving DecidableEq, Repr

/-- A shape error of the boundary, in a line. -/
def ofBoundary {α : Type} : Except BoundaryError α → Except AsmError α
  | .ok a => .ok a
  | .error _ => .error .shape

/-- The value of a hexadecimal digit. -/
def hexDigit (c : Char) : Option Nat :=
  let x := c.toNat
  if 48 ≤ x ∧ x ≤ 57 then some (x - 48)
  else if 65 ≤ x ∧ x ≤ 70 then some (x - 55)
  else if 97 ≤ x ∧ x ≤ 102 then some (x - 87)
  else none

/-- The value of a numeral in a base whose digits `digit` reads, on top of the value read so far. -/
def numeral (base : Nat) (digit : Char → Option Nat) : Nat → List Char → Option Nat
  | acc, [] => some acc
  | acc, c :: cs =>
    match digit c with
    | some d => if d < base then numeral base digit (acc * base + d) cs else none
    | none => none

/-- The word of `.word <hex32>`: 0x and eight hexadecimal digits (log entry 10). -/
def parseWord : List Char → Option CmdWord
  | '0' :: 'x' :: ds => if ds.length = 8 then (numeral 16 hexDigit 0 ds).map (BitVec.ofNat 32) else none
  | _ => none

/-- A decimal integer: one or more digits. -/
def parseDecimal (s : List Char) : Option Nat := if s.isEmpty then none else numeral 10 hexDigit 0 s

/-- Two operand strings, block and key, made into a command (R76). -/
def blockKeyWord (mk : Block → Key → Instr) (blk key : List Char) : Except AsmError (List CmdWord) :=
  match parseBlock blk, parseKey key with
  | .ok b, .ok k => .ok [encode (mk b k)]
  | _, _ => .error .shape

/-- A command from one key string. -/
def keyWord (mk : Key → Instr) (key : List Char) : Except AsmError (List CmdWord) :=
  match parseKey key with
  | .ok k => .ok [encode (mk k)]
  | .error _ => .error .shape

/-- A command from two block strings. -/
def twoBlockWord (mk : Block → Block → Instr) (x y : List Char) : Except AsmError (List CmdWord) :=
  match parseBlock x, parseBlock y with
  | .ok a, .ok b => .ok [encode (mk a b)]
  | _, _ => .error .shape

/-- A text pseudo-instruction: the words of its commands under the key of a key string (R77). -/
def textWords (cmds : Key → Except BoundaryError (List Instr)) (key : List Char) : Except AsmError (List CmdWord) :=
  match parseKey key with
  | .ok k =>
    match cmds k with
    | .ok is => .ok (is.map encode)
    | .error _ => .error .shape
  | .error _ => .error .shape

/-- The command words of a line (R76, R77); none are formed when an operand is malformed (R74). -/
def assemble : Line → Except AsmError (List CmdWord)
  | .blank => .ok []
  | .enc blk key => blockKeyWord .enc blk key
  | .dec blk key => blockKeyWord .dec blk key
  | .keyinfo key => keyWord .keyinfo key
  | .sopen dir key => keyWord (.sopen dir) key
  | .sbyte blk =>
    match parseBlock blk with
    | .ok b => .ok [encode (.sbyte b)]
    | .error _ => .error .shape
  | .sclose => .ok [encode .sclose]
  | .search plain cipher => twoBlockWord .search plain cipher
  | .word hex =>
    match parseWord hex with
    | some w => .ok [w]
    | none => .error .shape
  | .encText text key => textWords (encTextCommands text) key
  | .decText codes key => textWords (decTextCommands codes) key
  | .brute plain cipher => twoBlockWord .search plain cipher

/-- A space or a tab. -/
def isSpace (c : Char) : Bool := c == ' ' || c == '\t'

/-- A string without the white space at its two ends. -/
def trim (s : List Char) : List Char :=
  ((s.dropWhile isSpace).reverse.dropWhile isSpace).reverse

/-- A line without its comment: `;` starts one, except inside a quoted text (R76). -/
def stripComment : Bool → List Char → List Char
  | _, [] => []
  | quoted, c :: cs =>
    if c == ';' && !quoted then []
    else c :: stripComment (if c == '"' then !quoted else quoted) cs

/-- A string cut at each character `cut` holds of, except inside a quoted text; `part` is the part being read. -/
def splitAt (cut : Char → Bool) : Bool → List Char → List Char → List (List Char)
  | _, part, [] => [part]
  | quoted, part, c :: cs =>
    if cut c && !quoted then part :: splitAt cut quoted [] cs
    else splitAt cut (if c == '"' then !quoted else quoted) (part ++ [c]) cs

/-- The operands of a line: what follows the mnemonic, cut at commas, each without white space at its ends. -/
def operandsOf (rest : List Char) : List (List Char) :=
  if rest.isEmpty then [] else (splitAt (fun c => c == ',') false [] rest).map trim

/-- The code points of a quoted text (R77). DESIGN CHOICE (log entry 10): the spec does not say whether the text may itself hold a
double quote; here it holds none, and a line in which it would is no line. -/
def parseQuoted : List Char → Option (List Nat)
  | '"' :: cs =>
    if cs.getLast? = some '"' ∧ '"' ∉ cs.dropLast then some (cs.dropLast.map Char.toNat) else none
  | _ => none

/-- The integers of a list separated by white space (R77). -/
def parseCodes (s : List Char) : Option (List Nat) :=
  ((splitAt isSpace false [] s).filter (fun p => !p.isEmpty)).mapM parseDecimal

/-- The direction letter of SOPEN (R76). -/
def parseDir : List Char → Option Dir
  | ['E'] => some .encrypt
  | ['D'] => some .decrypt
  | _ => none

/-- A line's parts from its mnemonic and operands (R76, R77). -/
def lineOf (mnemonic : List Char) (ops : List (List Char)) : Except AsmError Line :=
  if mnemonic = "ENC".toList then
    match ops with | [b, k] => .ok (.enc b k) | _ => .error .operands
  else if mnemonic = "DEC".toList then
    match ops with | [b, k] => .ok (.dec b k) | _ => .error .operands
  else if mnemonic = "KEYINFO".toList then
    match ops with | [k] => .ok (.keyinfo k) | _ => .error .operands
  else if mnemonic = "SOPEN".toList then
    match ops with
    | [d, k] => match parseDir d with | some dir => .ok (.sopen dir k) | none => .error .operands
    | _ => .error .operands
  else if mnemonic = "SBYTE".toList then
    match ops with | [b] => .ok (.sbyte b) | _ => .error .operands
  else if mnemonic = "SCLOSE".toList then
    match ops with | [] => .ok .sclose | _ => .error .operands
  else if mnemonic = "SEARCH".toList then
    match ops with | [p, c] => .ok (.search p c) | _ => .error .operands
  else if mnemonic = ".word".toList then
    match ops with | [h] => .ok (.word h) | _ => .error .operands
  else if mnemonic = "ENCTEXT".toList then
    match ops with
    | [t, k] => match parseQuoted t with | some cps => .ok (.encText cps k) | none => .error .operands
    | _ => .error .operands
  else if mnemonic = "DECTEXT".toList then
    match ops with
    | [cs, k] => match parseCodes cs with | some codes => .ok (.decText codes k) | none => .error .operands
    | _ => .error .operands
  else if mnemonic = "BRUTE".toList then
    match ops with | [p, c] => .ok (.brute p c) | _ => .error .operands
  else .error .unknownMnemonic

/-- One line of text read (R76). -/
def parseLine (s : List Char) : Except AsmError Line :=
  let body := trim (stripComment false s)
  let mnemonic := body.takeWhile (fun c => !isSpace c)
  if body.isEmpty then .ok .blank
  else lineOf mnemonic (operandsOf (trim (body.drop mnemonic.length)))

/-- The command words of one line of text. -/
def assembleLine (s : List Char) : Except AsmError (List CmdWord) :=
  match parseLine s with
  | .ok l => assemble l
  | .error e => .error e

/-- The command words of a program, line by line; the first bad line stops it. -/
def assembleProgram : List (List Char) → Except AsmError (List CmdWord)
  | [] => .ok []
  | l :: ls =>
    match assembleLine l, assembleProgram ls with
    | .ok ws, .ok rest => .ok (ws ++ rest)
    | .error e, _ => .error e
    | _, .error e => .error e

end Sys2Proof.Machine
end

