-- ==== Sys2Proof/Machine/HostSide.lean ====
section
/-! DEFINITION. The HOST's transactions with the core: a command sent and its response taken (R47, R227), and the boundary and
text functions of R75, R165, R166 and the collection of R77 run through the commands. -/

namespace Sys2Proof.Machine

/-- The HOST puts a word, lets CMD step, and takes the oldest response: the word's own when no earlier command is unanswered
and no earlier response untaken (R227). None when CMD had no response to give. -/
def transact (w : CmdWord) (s : State) : Option (RspWord × State) :=
  match cmdStep (s.putCommand w) with
  | .next t =>
    match t.rspq with
    | r :: _ => some (r, t.takeResponse)
    | [] => none
  | .fault _ => none
  | .refused _ => none

/-- Transactions in order; the responses in the same order (R47). -/
def transactAll : List CmdWord → State → Option (List RspWord × State)
  | [], s => some ([], s)
  | w :: ws, s =>
    match transact w s with
    | some (r, t) => (transactAll ws t).map (fun rt => (r :: rt.1, rt.2))
    | none => none

/-- `key_info(s)` through the core (R75): an invalid key is reported and issues no command. -/
def keyInfoOn (str : List Char) (s : State) : Option (Except BoundaryError (List Char × List Char) × State) :=
  match keyInfoCommand str with
  | .error e => some (.error e, s)
  | .ok w => (transact w s).map (fun rt => (.ok (keyInfoReply rt.1), rt.2))

/-- The bytes the SBYTE responses of one stream carry: all responses but SOPEN's and SCLOSE's (R77). -/
def streamBytes (rs : List RspWord) : List Block := (rs.drop 1).dropLast.map rspLo

/-- `Encrypt-text` through the core, by the expansion of ENCTEXT (R77, R165). -/
def encryptTextOn (text : List Nat) (key : Key) (s : State) : Option (Except BoundaryError (List Nat) × State) :=
  match encTextCommands text key with
  | .error e => some (.error e, s)
  | .ok is => (transactAll (is.map encode) s).map (fun rt => (.ok ((streamBytes rt.1).map intOf), rt.2))

/-- The result of `Decrypt-text` from decrypted bytes: a text or the decoding error (R166, R168). -/
def decodeBytes (bytes : List Block) : Except BoundaryError (List Nat) :=
  match utf8Decode bytes with
  | none => .error .decoding
  | some text => .ok text

/-- `Decrypt-text` through the core, by the expansion of DECTEXT (R77, R166). -/
def decryptTextOn (cps : List Nat) (key : Key) (s : State) : Option (Except BoundaryError (List Nat) × State) :=
  match decTextCommands cps key with
  | .error e => some (.error e, s)
  | .ok is => (transactAll (is.map encode) s).map (fun rt => (decodeBytes (streamBytes rt.1), rt.2))

/-- What the HOST collects for BRUTE (R77): the keys of the HIT words up to the first END word, and that END word. -/
def collectSearch : List ResWord → Option (List Nat × ResWord)
  | [] => none
  | r :: rs =>
    if resEnd r = 1#1 then some ([], r)
    else (collectSearch rs).map (fun ke => (intOf (resVal r) :: ke.1, ke.2))

/-- SRCH steps, the HOST taking each result word as it comes (R228), up to and including the first END word: the keys of the HIT
words and the END word (R77). None when `fuel` steps bring no END. -/
def collectSteps : Nat → State → Option ((List Nat × ResWord) × State)
  | 0, _ => none
  | fuel + 1, s =>
    match (srchStep s).resq with
    | [] => collectSteps fuel (srchStep s)
    | r :: _ =>
      if resEnd r = 1#1 then some (([], r), (srchStep s).takeResult)
      else (collectSteps fuel (srchStep s).takeResult).map (fun x => ((intOf (resVal r) :: x.1.1, x.1.2), x.2))

/-- `BRUTE` through the core (R77) with no result word untaken: SEARCH, then its result words; a search takes at most 1025 steps
(R189). None when the SEARCH is answered an error. -/
def bruteOn (plain cipher : Block) (s : State) : Option ((List Nat × ResWord) × State) :=
  match transact (encode (.search plain cipher)) s with
  | some (r, t) => if rspStatus r = statusCode .ok then collectSteps 1025 t else none
  | none => none

end Sys2Proof.Machine
end

