-- ==== Sys2Proof/Safety.lean ====
section
/-! DEFINITION. The terms the claims are stated in: well-formed words, the invariant of the machine, quiescence, and the moves
a run makes with the words it puts, takes and appends. -/

namespace Sys2Proof.Machine

/-- A response word as R65 and R66 allow it: bits 27 to 16 are 0, the status is one of the four, and an error has no payload. -/
def RspOk (r : RspWord) : Prop :=
  rspZero r = 0#12 ∧ rspStatus r ≤ 3#4 ∧ (rspStatus r ≠ 0#4 → rspHi r = 0#8 ∧ rspLo r = 0#8)

/-- A result word as R68 allows it: a HIT carries a key 0 to 1023 and nothing else; an END has `CHECKED` at most 1024, and
`INC = 0` if and only if `CHECKED = 1024`. -/
def ResOk (r : ResWord) : Prop :=
  resZero r = 0#3 ∧
  (resEnd r = 0#1 → resInc r = 0#1 ∧ resVal r < 1024#11) ∧
  (resEnd r = 1#1 → resVal r ≤ 1024#11 ∧ (resInc r = 0#1 ↔ resVal r = 1024#11))

/-- The HIT words for the matching keys below `n`, ascending (R185). -/
def hitsBelow (plain cipher : Block) (n : Nat) : List ResWord := (keysBelow plain cipher n).map hitWord

/-- The words of a result sequence after its last END word: HITs of a search that has not ended (R227). -/
def openHits (rs : List ResWord) : List ResWord :=
  (rs.reverse.takeWhile (fun r => decide (resEnd r = 0#1))).reverse

/-- The HITs that wait behind the last END belong to the running search: the last of its matches below `Q_CAND`, in ascending
order; with no search running there are none (R49, R185). -/
def HitsBelongToSearch (s : State) : Prop :=
  match s.search with
  | none => openHits s.resq = []
  | some q => openHits s.resq <:+ hitsBelow q.p q.c q.cand.val

/-- The invariant of the machine. -/
structure State.Inv (s : State) : Prop where
  /-- `RSPQ` holds at most `RSP_DEPTH` words (R23, R48) -/
  rspBound : s.rspq.length ≤ Config.rspDepth
  /-- `RESQ` holds at most `RES_DEPTH` words (R23, R48) -/
  resBound : s.resq.length ≤ Config.resDepth
  /-- every waiting response is well formed (R65, R66) -/
  rspOk : ∀ r ∈ s.rspq, RspOk r
  /-- every waiting result word is well formed (R68) -/
  resOk : ∀ r ∈ s.resq, ResOk r
  /-- an open stream holds the round keys of some master key (R21) -/
  streamKeys : ∀ c, s.stream = some c → ∃ key, c.keys = keySchedule key
  /-- waiting HITs belong to the running search (R49, R185) -/
  hits : HitsBelongToSearch s

/-- The core is quiescent: no command waits and no search runs (R223). -/
def State.quiescent (s : State) : Prop := s.cmdq = [] ∧ s.qBusy = false

/-- Commands executed one after the other (R47). -/
def execAll : List Instr → State → Option State
  | [], s => some s
  | i :: is, s =>
    match exec i s with
    | .next t => execAll is t
    | _ => none

/-- The move the next step makes, if it makes one. -/
def moveMade (s : State) : List Move := (nextMove s).1.toList

/-- The moves the next `n` steps make, in order (R223). -/
def movesIn : Nat → State → List Move
  | 0, _ => []
  | n + 1, s =>
    match step s with
    | .next t => moveMade s ++ movesIn n t
    | _ => []

/-- What the next step appends to `RESQ`. -/
def resultOf (s : State) : List ResWord :=
  match nextMove s with
  | (some .srch, s') =>
    match searchStep? s' with
    | some (some r, _) => [r]
    | _ => []
  | _ => []

/-- What the next `n` steps append to `RESQ`, in order. -/
def resultsIn : Nat → State → List ResWord
  | 0, _ => []
  | n + 1, s =>
    match step s with
    | .next t => resultOf s ++ resultsIn n t
    | _ => []

/-- The word CMD takes in the next step with the response it appends, if it takes one. -/
def answerOf (s : State) : List (CmdWord × RspWord) :=
  match nextMove s with
  | (some .cmd, s') =>
    match s'.cmdq, cmdStep s' with
    | w :: _, .next t => (t.rspq.drop s'.rspq.length).map (fun r => (w, r))
    | _, _ => []
  | _ => []

/-- The words CMD takes in the next `n` steps, each with its response, in order. -/
def answersIn : Nat → State → List (CmdWord × RspWord)
  | 0, _ => []
  | n + 1, s =>
    match step s with
    | .next t => answerOf s ++ answersIn n t
    | _ => []

/-- The word the HOST puts into `CMDQ` in the next step, if it puts one. -/
def putOf (s : State) : List CmdWord :=
  match nextMove s with
  | (some (.put w), _) => [w]
  | _ => []

/-- The words the HOST puts into `CMDQ` in the next `n` steps, in order. -/
def putsIn : Nat → State → List CmdWord
  | 0, _ => []
  | n + 1, s =>
    match step s with
    | .next t => putOf s ++ putsIn n t
    | _ => []

/-- The response the HOST takes in the next step, if it takes one. -/
def takenResponseOf (s : State) : List RspWord :=
  match nextMove s with
  | (some .takeResponse, s') => s'.rspq.head?.toList
  | _ => []

/-- The responses the HOST takes in the next `n` steps, in order. -/
def takenResponsesIn : Nat → State → List RspWord
  | 0, _ => []
  | n + 1, s =>
    match step s with
    | .next t => takenResponseOf s ++ takenResponsesIn n t
    | _ => []

/-- The result word the HOST takes in the next step, if it takes one. -/
def takenResultOf (s : State) : List ResWord :=
  match nextMove s with
  | (some .takeResult, s') => s'.resq.head?.toList
  | _ => []

/-- The result words the HOST takes in the next `n` steps, in order. -/
def takenResultsIn : Nat → State → List ResWord
  | 0, _ => []
  | n + 1, s =>
    match step s with
    | .next t => takenResultOf s ++ takenResultsIn n t
    | _ => []

end Sys2Proof.Machine
end

