-- ==== Sys2Proof/WellFormed.lean ====
section
/-! DEFINITION. Well-formedness. A command's operands are fixed-width vectors, so a wrong width cannot be expressed (R43,
`93_implementation_defined.md` U5) and every `Instr` is well formed; what can be ill formed is a bus word (R64). The shape
checks of strings and texts are the boundary's own predicates (R72, R73), in `Machine/Boundary.lean`. -/

namespace Sys2Proof

/-- Every command is well formed: all operand combinations are legal (R43, R147, R148, R162, R182). One arm per
constructor, so that a new one must say what its checks are. -/
def Instr.wellFormed : Instr → Bool
  | .enc _ _ => true
  | .dec _ _ => true
  | .keyinfo _ => true
  | .sopen _ _ => true
  | .sbyte _ => true
  | .sclose => true
  | .search _ _ => true

/-- Whether a bus word spells a command: it matches a row of the opcode map (R62, R64). -/
def legalWord (w : CmdWord) : Bool := opRows.any (fun r => r.hits w)

end Sys2Proof
end

