-- ==== Sys2Proof/Certificates/Slice0/Obligations.lean ====
section
/-! DEFINITION. The statements for the provers, from the numbered rules of spec/. -/

open Sys2Proof Sys2Proof.Machine

/-! ### The permutation engine -/

/-- R90: `output<i> = input<table<i>>` for every `i`; the empty table gives the empty vector, the table (1, ..., m) is the
identity, and the rule's example. -/
def Obligations.PermuteReadsNamedPositions : Prop :=
  (∀ (v : List Bool) (table : List Nat) (out : List Bool), permute v table = some out →
    out.length = table.length ∧
    ∀ (i t : Nat), table[i]? = some t → 1 ≤ t ∧ ∃ b, v[t - 1]? = some b ∧ out[i]? = some b) ∧
  (∀ v : List Bool, permute v [] = some []) ∧
  (∀ v : List Bool, permute v (List.range' 1 v.length) = some v) ∧
  permute (bitsOf 0b10111101#8) [2, 6, 3, 1, 4, 8, 5, 7] = some (bitsOf 0b01111110#8)

/-- R91: `permute` is defined exactly when every entry of the table is in `1..len(input)`, and so each of the six fixed tables
is total on its input width. -/
def Obligations.PermuteDefinedExactlyInRange : Prop :=
  (∀ (v : List Bool) (table : List Nat),
    (permute v table).isSome = true ↔ ∀ t ∈ table, 1 ≤ t ∧ t ≤ v.length) ∧
  (∀ v : BitVec 8, (permute (bitsOf v) tableIP).isSome = true ∧ (permute (bitsOf v) tableIPINV).isSome = true) ∧
  (∀ v : BitVec 4, (permute (bitsOf v) tableEP).isSome = true ∧ (permute (bitsOf v) tableSP).isSome = true) ∧
  (∀ v : BitVec 10, (permute (bitsOf v) tableP10).isSome = true ∧ (permute (bitsOf v) tableP8).isSome = true)

/-- R92: the cyclic left rotation, the shift taken modulo the length; multiples of the length change nothing, two rotations add
up, the empty vector stays empty, and the rule's examples. -/
def Obligations.RotateLeftIsCyclic : Prop :=
  (∀ (v : List Bool) (shift : Nat), (rotateLeft v shift).length = v.length ∧
    ∀ i, i < v.length → (rotateLeft v shift)[i]? = v[(i + shift) % v.length]?) ∧
  (∀ (v : List Bool) (k : Nat), rotateLeft v (k * v.length) = v) ∧
  (∀ (v : List Bool) (a b : Nat), rotateLeft (rotateLeft v a) b = rotateLeft v (a + b)) ∧
  (∀ shift, rotateLeft [] shift = []) ∧
  rotateLeft (bitsOf 0b10000#5) 1 = bitsOf 0b00001#5 ∧
  rotateLeft (bitsOf 0b01100#5) 1 = bitsOf 0b11000#5 ∧
  rotateLeft (bitsOf 0b00001#5) 2 = bitsOf 0b00100#5 ∧
  rotateLeft (bitsOf 0b11000#5) 2 = bitsOf 0b00011#5 ∧
  rotateLeft (bitsOf 0b10110#5) 7 = bitsOf 0b11010#5

/-- R93: the left half is the lower-numbered positions, the right half the rest, and joining is concatenation. -/
def Obligations.HalvesSplitAndJoin : Prop :=
  (∀ v : BitVec 8, bitsOf (leftHalf v) = (bitsOf v).take 4 ∧ bitsOf (rightHalf v) = (bitsOf v).drop 4) ∧
  (∀ v : BitVec 10, bitsOf (leftKeyHalf v) = (bitsOf v).take 5 ∧ bitsOf (rightKeyHalf v) = (bitsOf v).drop 5) ∧
  (∀ l r : Half, bitsOf (joinHalves l r) = bitsOf l ++ bitsOf r) ∧
  (∀ l r : KeyHalf, bitsOf (joinKeyHalves l r) = bitsOf l ++ bitsOf r)

/-- R94 to R99: each table with its wiring written out, what kind of table it is, and the rules' examples. -/
def Obligations.FixedWiringsFollowTables : Prop :=
  (tableIP = [2, 6, 3, 1, 4, 8, 5, 7] ∧ tableIP.Perm (List.range' 1 8) ∧
    (∀ v, bitsOf (ip v) =
      [bitAt v 2, bitAt v 6, bitAt v 3, bitAt v 1, bitAt v 4, bitAt v 8, bitAt v 5, bitAt v 7]) ∧
    ip 0b10111101 = 0b01111110 ∧ ip 0b10000000 = 0b00010000) ∧
  (tableIPINV = [4, 1, 3, 5, 7, 2, 8, 6] ∧ tableIPINV.Perm (List.range' 1 8) ∧
    (∀ v, bitsOf (ipInv v) =
      [bitAt v 4, bitAt v 1, bitAt v 3, bitAt v 5, bitAt v 7, bitAt v 2, bitAt v 8, bitAt v 6]) ∧
    (∀ v, ipInv (ip v) = v) ∧
    ipInv 0b01010101 = 0b10000111 ∧ ipInv 0b00010000 = 0b10000000) ∧
  (tableEP = [4, 1, 2, 3, 2, 3, 4, 1] ∧ (∀ i ∈ List.range' 1 4, tableEP.count i = 2) ∧
    (∀ v, bitsOf (ep v) =
      [bitAt v 4, bitAt v 1, bitAt v 2, bitAt v 3, bitAt v 2, bitAt v 3, bitAt v 4, bitAt v 1]) ∧
    ep 0b1110 = 0b01111101 ∧ ep 0b1000 = 0b01000001) ∧
  (tableSP = [2, 4, 3, 1] ∧ tableSP.Perm (List.range' 1 4) ∧
    (∀ v, bitsOf (sp v) = [bitAt v 2, bitAt v 4, bitAt v 3, bitAt v 1]) ∧
    sp 0b1110 = 0b1011 ∧ sp 0b0100 = 0b1000) ∧
  (tableP10 = [3, 5, 2, 7, 4, 10, 1, 9, 8, 6] ∧ tableP10.Perm (List.range' 1 10) ∧
    (∀ v, bitsOf (p10 v) = [bitAt v 3, bitAt v 5, bitAt v 2, bitAt v 7, bitAt v 4, bitAt v 10, bitAt v 1, bitAt v 9,
      bitAt v 8, bitAt v 6]) ∧
    p10 0b1010000010 = 0b1000001100) ∧
  (tableP8 = [6, 3, 7, 4, 8, 5, 10, 9] ∧ tableP8.Perm (List.range' 3 8) ∧
    (∀ v, bitsOf (p8 v) =
      [bitAt v 6, bitAt v 3, bitAt v 7, bitAt v 4, bitAt v 8, bitAt v 5, bitAt v 10, bitAt v 9]) ∧
    p8 0b0000111000 = 0b10100100)

/-- R101 and R103: IPINV undoes IP in both orders; the fixed wirings agree with the generic functions on the tables, and the two
rotations on 5 bits are the maps the rule writes out. -/
def Obligations.WiringsAgreeWithGeneric : Prop :=
  (∀ v : BitVec 8, ipInv (ip v) = v ∧ ip (ipInv v) = v ∧
    permute (bitsOf v) [2, 6, 3, 1, 4, 8, 5, 7] = some (bitsOf (ip v)) ∧
    permute (bitsOf v) [4, 1, 3, 5, 7, 2, 8, 6] = some (bitsOf (ipInv v))) ∧
  (∀ v : BitVec 4, permute (bitsOf v) [4, 1, 2, 3, 2, 3, 4, 1] = some (bitsOf (ep v)) ∧
    permute (bitsOf v) [2, 4, 3, 1] = some (bitsOf (sp v))) ∧
  (∀ v : BitVec 10, permute (bitsOf v) [3, 5, 2, 7, 4, 10, 1, 9, 8, 6] = some (bitsOf (p10 v)) ∧
    permute (bitsOf v) [6, 3, 7, 4, 8, 5, 10, 9] = some (bitsOf (p8 v))) ∧
  (∀ v : BitVec 5,
    bitsOf (rotateKeyHalf v 1) = [bitAt v 2, bitAt v 3, bitAt v 4, bitAt v 5, bitAt v 1] ∧
    bitsOf (rotateKeyHalf v 2) = [bitAt v 3, bitAt v 4, bitAt v 5, bitAt v 1, bitAt v 2] ∧
    rotateLeft (bitsOf v) 1 = bitsOf (rotateKeyHalf v 1) ∧
    rotateLeft (bitsOf v) 2 = bitsOf (rotateKeyHalf v 2))

/-! ### The key schedule -/

/-- R110: the steps of `KeySchedule`, each by the generic `permute` and `rotate_left`, with the corner cases and the example. -/
def Obligations.KeyScheduleFollowsSteps : Prop :=
  (∀ key : Key, ∃ p, permute (bitsOf key) [3, 5, 2, 7, 4, 10, 1, 9, 8, 6] = some p ∧
    let left1 := rotateLeft (p.take 5) 1
    let right1 := rotateLeft (p.drop 5) 1
    let left3 := rotateLeft left1 2
    let right3 := rotateLeft right1 2
    permute (left1 ++ right1) [6, 3, 7, 4, 8, 5, 10, 9] = some (bitsOf (keySchedule key).k1) ∧
    permute (left3 ++ right3) [6, 3, 7, 4, 8, 5, 10, 9] = some (bitsOf (keySchedule key).k2)) ∧
  keySchedule 0b0000000000 = ⟨0b00000000, 0b00000000⟩ ∧
  keySchedule 0b1111111111 = ⟨0b11111111, 0b11111111⟩ ∧
  keySchedule 0b1010000010 = ⟨0b10100100, 0b01000011⟩

/-- R111, R112, R113: the rotations are cumulative, and the round keys as wirings of the master key. -/
def Obligations.RoundKeysAsWirings : Prop :=
  (∀ h : KeyHalf, rotateKeyHalf (rotateKeyHalf h 1) 2 = rotateKeyHalf h 3) ∧
  (∀ k : Key,
    bitsOf (p10 k) = [bitAt k 3, bitAt k 5, bitAt k 2, bitAt k 7, bitAt k 4, bitAt k 10, bitAt k 1, bitAt k 9,
      bitAt k 8, bitAt k 6] ∧
    bitsOf (rotateKeyHalf (leftKeyHalf (p10 k)) 1) = [bitAt k 5, bitAt k 2, bitAt k 7, bitAt k 4, bitAt k 3] ∧
    bitsOf (rotateKeyHalf (rightKeyHalf (p10 k)) 1) = [bitAt k 1, bitAt k 9, bitAt k 8, bitAt k 6, bitAt k 10] ∧
    bitsOf (keySchedule k).k1 = [bitAt k 1, bitAt k 7, bitAt k 9, bitAt k 4, bitAt k 8, bitAt k 3, bitAt k 10,
      bitAt k 6] ∧
    bitsOf (rotateKeyHalf (leftKeyHalf (p10 k)) 3) = [bitAt k 7, bitAt k 4, bitAt k 3, bitAt k 5, bitAt k 2] ∧
    bitsOf (rotateKeyHalf (rightKeyHalf (p10 k)) 3) = [bitAt k 8, bitAt k 6, bitAt k 10, bitAt k 1, bitAt k 9] ∧
    bitsOf (keySchedule k).k2 = [bitAt k 8, bitAt k 3, bitAt k 6, bitAt k 5, bitAt k 10, bitAt k 2, bitAt k 9,
      bitAt k 1])

/-- R115: neither round key determines the master key, the pair does; K1 depends on exactly the positions other than 2 and 5,
K2 on exactly those other than 4 and 7. -/
def Obligations.KeyPairDeterminesKey : Prop :=
  (∀ k k' : Key, keySchedule k = keySchedule k' → k = k') ∧
  (∀ k k' : Key, (keySchedule k).k1 = (keySchedule k').k1 ↔
    ∀ i ∈ [1, 3, 4, 6, 7, 8, 9, 10], bitAt k i = bitAt k' i) ∧
  (∀ k k' : Key, (keySchedule k).k2 = (keySchedule k').k2 ↔
    ∀ i ∈ [1, 2, 3, 5, 6, 8, 9, 10], bitAt k i = bitAt k' i)

/-! ### The round function -/

/-- R133: F from its steps, with EP, the two S-boxes and SP written out as literals, and the rule's three examples. -/
def Obligations.RoundFunctionFollowsSteps : Prop :=
  (∀ (right : Half) (k : RoundKey),
    let e := [bitAt right 4, bitAt right 1, bitAt right 2, bitAt right 3, bitAt right 2, bitAt right 3, bitAt right 4,
      bitAt right 1]
    let x := fun i => xor (e.getD (i - 1) false) (bitAt k i)
    let ra := 2 * (x 1).toNat + (x 4).toNat
    let ca := 2 * (x 2).toNat + (x 3).toNat
    let rb := 2 * (x 5).toNat + (x 8).toNat
    let cb := 2 * (x 6).toNat + (x 7).toNat
    let sa := ([[1, 0, 3, 2], [3, 2, 1, 0], [0, 2, 1, 3], [3, 1, 0, 2]].getD ra []).getD ca 0
    let sb := ([[0, 1, 2, 3], [2, 3, 1, 0], [3, 0, 1, 2], [2, 1, 0, 3]].getD rb []).getD cb 0
    let s := [decide (sa / 2 = 1), decide (sa % 2 = 1), decide (sb / 2 = 1), decide (sb % 2 = 1)]
    bitsOf (roundF right k) = [s.getD 1 false, s.getD 3 false, s.getD 2 false, s.getD 0 false]) ∧
  roundF 0b0000 0b00000000 = 0b1000 ∧
  roundF 0b1110 0b10100100 = 0b0010 ∧
  roundF 0b0101 0b01000011 = 0b1011

/-- R134: the S-boxes as functions of the half, and F at four round keys, for all 16 halves in ascending order. -/
def Obligations.DerivedFunctionTables : Prop :=
  (List.range 16).map (fun h => sboxOut sbox1 (vecOf 4 h)) =
    [0b01, 0b11, 0b00, 0b10, 0b11, 0b01, 0b10, 0b00, 0b00, 0b11, 0b10, 0b01, 0b01, 0b00, 0b11, 0b10] ∧
  (List.range 16).map (fun h => sboxOut sbox2 (vecOf 4 h)) =
    [0b00, 0b10, 0b01, 0b11, 0b10, 0b01, 0b11, 0b00, 0b11, 0b10, 0b00, 0b01, 0b01, 0b00, 0b10, 0b11] ∧
  (List.range 16).map (fun r => roundF (vecOf 4 r) 0b00000000) =
    [0b1000, 0b0100, 0b1011, 0b1111, 0b0110, 0b0001, 0b0101, 0b1010, 0b1011, 0b1110, 0b1100, 0b0000, 0b0011, 0b1101,
     0b0000, 0b0111] ∧
  (List.range 16).map (fun r => roundF (vecOf 4 r) 0b11111111) =
    [0b0111, 0b0000, 0b1101, 0b0011, 0b0000, 0b1100, 0b1110, 0b1011, 0b1010, 0b0101, 0b0001, 0b0110, 0b1111, 0b1011,
     0b0100, 0b1000] ∧
  (List.range 16).map (fun r => roundF (vecOf 4 r) 0b10100100) =
    [0b0011, 0b0110, 0b1000, 0b0101, 0b0100, 0b1010, 0b1111, 0b1001, 0b1101, 0b0001, 0b0011, 0b0110, 0b1000, 0b1111,
     0b0010, 0b1100] ∧
  (List.range 16).map (fun r => roundF (vecOf 4 r) 0b01000011) =
    [0b1111, 0b1010, 0b1000, 0b0100, 0b0101, 0b1011, 0b0110, 0b0001, 0b1100, 0b0000, 0b1111, 0b1011, 0b0000, 0b0111,
     0b0011, 0b1100]

/-! ### The block cipher and the stream map -/

/-- R140, R141, R142: the combiner is its own inverse, the swap stands between the two rounds only, and `Crypt` from its steps. -/
def Obligations.FeistelRounds : Prop :=
  (∀ l r k, fk l r k = (l ^^^ roundF r k, r) ∧ fk (fk l r k).1 (fk l r k).2 k = (l, r)) ∧
  (∀ l r, sw (l, r) = (r, l)) ∧
  (∀ block ka kb,
    let l0 := leftHalf (ip block)
    let r0 := rightHalf (ip block)
    let r1 := l0 ^^^ roundF r0 ka
    let l1 := r0
    let l2 := l1 ^^^ roundF r1 kb
    let r2 := r1
    (l1, r1) = sw (fk l0 r0 ka) ∧ crypt block ka kb = ipInv (joinHalves l2 r2))

/-- R143, R144: encryption consumes K1 then K2, decryption K2 then K1, with the worked examples and the corner cases. -/
def Obligations.RoundKeyOrder : Prop :=
  (∀ plain key, encrypt plain key = crypt plain (keySchedule key).k1 (keySchedule key).k2) ∧
  (∀ cipher key, decrypt cipher key = crypt cipher (keySchedule key).k2 (keySchedule key).k1) ∧
  keySchedule 0b1010000010 = ⟨0b10100100, 0b01000011⟩ ∧
  ip 0b10111101 = 0b01111110 ∧ roundF 0b1110 0b10100100 = 0b0010 ∧ roundF 0b0101 0b01000011 = 0b1011 ∧
  encrypt 0b10111101 0b1010000010 = 0b10000111 ∧
  ip 0b10000111 = 0b01010101 ∧ decrypt 0b10000111 0b1010000010 = 0b10111101 ∧
  encrypt 0b00000000 0b0000000000 = 0b11110000 ∧ decrypt 0b11110000 0b0000000000 = 0b00000000

/-- R145: the round trip in both orders, for every block and every key. -/
def Obligations.DecryptUndoesEncrypt : Prop :=
  ∀ (b : Block) (key : Key), decrypt (encrypt b key) key = b ∧ encrypt (decrypt b key) key = b

/-- R146: for a fixed key both functions are permutations of the blocks and each the inverse of the other; they coincide for
exactly the eight keys whose round keys are equal. -/
def Obligations.EncryptIsBijective : Prop :=
  (∀ key : Key, Function.Bijective (fun b => encrypt b key) ∧ Function.Bijective (fun b => decrypt b key) ∧
    Function.LeftInverse (fun b => decrypt b key) (fun b => encrypt b key) ∧
    Function.RightInverse (fun b => decrypt b key) (fun b => encrypt b key)) ∧
  (∀ key : Key, (keySchedule key).k1 = (keySchedule key).k2 ↔
    key.toNat ∈ [0, 96, 392, 488, 535, 631, 927, 1023]) ∧
  (∀ key : Key, (∀ b, encrypt b key = decrypt b key) ↔ (keySchedule key).k1 = (keySchedule key).k2)

/-- R160: `StreamMap` transforms each byte on its own, decryption undoes encryption, and the rule's example. -/
def Obligations.StreamMapIsPerByte : Prop :=
  (∀ (dir : Dir) (key : Key) (bytes : List Block), (streamMap dir key bytes).length = bytes.length ∧
    ∀ (i : Nat) (b : Block), bytes[i]? = some b →
      (streamMap dir key bytes)[i]? = some (if dir = .encrypt then encrypt b key else decrypt b key)) ∧
  (∀ dir key, streamMap dir key [] = []) ∧
  (∀ key bytes, streamMap .decrypt key (streamMap .encrypt key bytes) = bytes) ∧
  streamMap .encrypt 0b1010000010 [0x48, 0x69] = [0xC4, 0xC7]

/-! ### Encodings -/

/-- R61: each operand is copied whole from its field, position 1 at the field's highest bit. -/
def Obligations.OperandBitsOfAWord : Prop :=
  ∀ w : CmdWord,
    (∀ i, 1 ≤ i → i ≤ 10 → bitAt (keyField w) i = w.getLsbD (26 - i)) ∧
    (∀ i, 1 ≤ i → i ≤ 8 → bitAt (dataField w) i = w.getLsbD (8 - i)) ∧
    (∀ i, 1 ≤ i → i ≤ 8 → bitAt (auxField w) i = w.getLsbD (16 - i)) ∧
    intOf (keyField w) = w.toNat / 2 ^ 16 % 2 ^ 10 ∧
    intOf (dataField w) = w.toNat % 2 ^ 8 ∧
    intOf (auxField w) = w.toNat / 2 ^ 8 % 2 ^ 8

/-- R62, R63: a word is the command of a row exactly when `w AND mask = match`, with its operands from its fields; a word that
matches no row spells no command and is answered `ERR_ILLEGAL`; no word matches two rows; CMD executes the command decoded. -/
def Obligations.DecodeByMaskAndMatch : Prop :=
  (∀ w : CmdWord,
    (w &&& 0xFC00FF00 = 0x10000000 → decode w = .ok (.enc (w.extractLsb' 0 8) (w.extractLsb' 16 10))) ∧
    (w &&& 0xFC00FF00 = 0x20000000 → decode w = .ok (.dec (w.extractLsb' 0 8) (w.extractLsb' 16 10))) ∧
    (w &&& 0xFC00FFFF = 0x30000000 → decode w = .ok (.keyinfo (w.extractLsb' 16 10))) ∧
    (w &&& 0xF400FFFF = 0x40000000 →
      decode w = .ok (.sopen (if w.getLsbD 27 then .decrypt else .encrypt) (w.extractLsb' 16 10))) ∧
    (w &&& 0xFFFFFF00 = 0x50000000 → decode w = .ok (.sbyte (w.extractLsb' 0 8))) ∧
    (w &&& 0xFFFFFFFF = 0x60000000 → decode w = .ok .sclose) ∧
    (w &&& 0xFFFF0000 = 0x70000000 → decode w = .ok (.search (w.extractLsb' 0 8) (w.extractLsb' 8 8))) ∧
    (w &&& 0xFC00FF00 ≠ 0x10000000 → w &&& 0xFC00FF00 ≠ 0x20000000 → w &&& 0xFC00FFFF ≠ 0x30000000 →
      w &&& 0xF400FFFF ≠ 0x40000000 → w &&& 0xFFFFFF00 ≠ 0x50000000 → w &&& 0xFFFFFFFF ≠ 0x60000000 →
      w &&& 0xFFFF0000 ≠ 0x70000000 → ∃ e, decode w = .error e)) ∧
  (∀ (w : CmdWord) (r r' : OpRow), r ∈ opRows → r' ∈ opRows → r.hits w = true → r'.hits w = true →
    r.matchBits = r'.matchBits) ∧
  (∀ (w : CmdWord) (i : Instr) (s : State), decode w = .ok i → execWord w s = exec i s) ∧
  (∀ (w : CmdWord) (e : DecodeReject) (s : State), decode w = .error e →
    execWord w s = .next { s with rspq := s.rspq ++ [rspWord .errIllegal 0 0] })

/-- R64: which words are illegal, field by field; the all-zero word is; an illegal word is answered `ERR_ILLEGAL` with a zero
payload in every state and changes nothing else. -/
def Obligations.IllegalWordsAreAnswered : Prop :=
  (∀ w : CmdWord, (∃ e, decode w = .error e) ↔
    (opField w = 0#4 ∨ 8#4 ≤ opField w ∨
     ((opField w = 1#4 ∨ opField w = 2#4) ∧ ¬ (dField w = 0#1 ∧ zField w = 0#1 ∧ auxField w = 0#8)) ∨
     (opField w = 3#4 ∧ ¬ (dField w = 0#1 ∧ zField w = 0#1 ∧ auxField w = 0#8 ∧ dataField w = 0#8)) ∨
     (opField w = 4#4 ∧ ¬ (zField w = 0#1 ∧ auxField w = 0#8 ∧ dataField w = 0#8)) ∨
     (opField w = 5#4 ∧ ¬ (dField w = 0#1 ∧ zField w = 0#1 ∧ keyField w = 0#10 ∧ auxField w = 0#8)) ∨
     (opField w = 6#4 ∧ ¬ (dField w = 0#1 ∧ zField w = 0#1 ∧ keyField w = 0#10 ∧ auxField w = 0#8 ∧
        dataField w = 0#8)) ∨
     (opField w = 7#4 ∧ ¬ (dField w = 0#1 ∧ zField w = 0#1 ∧ keyField w = 0#10)))) ∧
  (∃ e, decode 0x00000000 = .error e) ∧
  (∀ (w : CmdWord) (s : State), (∃ e, decode w = .error e) →
    execWord w s = .next { s with rspq := s.rspq ++ [0x10000000] })

/-- Decode and encode agree: for every command, with every operand at every value, decoding its word gives the command back. -/
def Obligations.DecodeOfEncode : Prop :=
  ∀ i : Instr, i.wellFormed = true → decode (encode i) = .ok i

/-- Each legal word has one meaning: a word that decodes to a command is that command's word. -/
def Obligations.EncodeOfDecode : Prop :=
  ∀ (w : CmdWord) (i : Instr), decode w = .ok i → encode i = w

/-- The words of the encoding examples decode to what they stand for. -/
def Obligations.SampleWordsDecode : Prop :=
  decodeTableWord 32 0x128200BD = some (.enc 0b10111101 0b1010000010) ∧
  decodeTableWord 32 0x22820087 = some (.dec 0b10000111 0b1010000010) ∧
  decodeTableWord 32 0x32820000 = some (.keyinfo 0b1010000010) ∧
  decodeTableWord 32 0x42820000 = some (.sopen .encrypt 0b1010000010) ∧
  decodeTableWord 32 0x4A820000 = some (.sopen .decrypt 0b1010000010) ∧
  decodeTableWord 32 0x50000048 = some (.sbyte 0b01001000) ∧
  decodeTableWord 32 0x60000000 = some .sclose ∧
  decodeTableWord 32 0x700087BD = some (.search 0b10111101 0b10000111) ∧
  decodeTableWord 32 0x128201BD = none ∧
  decodeTableWord 32 0x00000000 = none

/-- R78: the encoding examples, command words, responses and result words. -/
def Obligations.EncodingExamples : Prop :=
  assembleLine "ENC 10111101, 1010000010".toList = .ok [0x128200BD] ∧
  assembleLine "DEC 10000111, 1010000010".toList = .ok [0x22820087] ∧
  assembleLine "KEYINFO 1010000010".toList = .ok [0x32820000] ∧
  assembleLine "SOPEN E, 1010000010".toList = .ok [0x42820000] ∧
  assembleLine "SOPEN D, 1010000010".toList = .ok [0x4A820000] ∧
  assembleLine "SBYTE 01001000".toList = .ok [0x50000048] ∧
  assembleLine "SCLOSE".toList = .ok [0x60000000] ∧
  assembleLine "SEARCH 10111101, 10000111".toList = .ok [0x700087BD] ∧
  assembleLine ".word 0x128201BD".toList = .ok [0x128201BD] ∧
  assembleLine ".word 0x00000000".toList = .ok [0x00000000] ∧
  rspWord .ok 0 0b10000111 = 0x00000087 ∧
  rspWord .ok 0b10100100 0b01000011 = 0x0000A443 ∧
  rspWord .errIllegal 0 0 = 0x10000000 ∧
  rspWord .errBusy 0 0 = 0x20000000 ∧
  rspWord .errNoStream 0 0 = 0x30000000 ∧
  hitWord 642 = 0x0282 ∧
  endWord 0 1024 = 0x8400 ∧
  endWord 1 400 = 0xC190 ∧
  (∀ s : State, execWord 0x128201BD s = .next { s with rspq := s.rspq ++ [0x10000000] }) ∧
  (∀ s : State, execWord 0x00000000 s = .next { s with rspq := s.rspq ++ [0x10000000] })

/-- R65: every command word, legal or not, appends exactly one response word; its fields, and its value as the rule computes it. -/
def Obligations.ResponseWordLayout : Prop :=
  (∀ (w : CmdWord) (s t : State), execWord w s = .next t → ∃ r, t.rspq = s.rspq ++ [r] ∧ rspZero r = 0#12) ∧
  (∀ (st : Status) (hi lo : BitVec 8),
    rspStatus (rspWord st hi lo) = statusCode st ∧ rspHi (rspWord st hi lo) = hi ∧ rspLo (rspWord st hi lo) = lo ∧
    (∀ i, 1 ≤ i → i ≤ 8 → bitAt lo i = (rspWord st hi lo).getLsbD (8 - i) ∧
      bitAt hi i = (rspWord st hi lo).getLsbD (16 - i)) ∧
    intOf (rspWord st hi lo) = (statusCode st).toNat * 2 ^ 28 + intOf hi * 2 ^ 8 + intOf lo)

/-- R66, R202: the status of the response to a word, with its cause in each case; decoding is checked before the state; no other
status is produced, and a status other than `OK` comes with a zero payload. -/
def Obligations.StatusAndItsCause : Prop :=
  ∀ (w : CmdWord) (s t : State) (r : RspWord), execWord w s = .next t → t.rspq = s.rspq ++ [r] →
    (rspStatus r = 1#4 ↔ ∃ e, decode w = .error e) ∧
    (rspStatus r = 2#4 ↔
      ((∃ d key, decode w = .ok (.sopen d key)) ∧ s.sOpen = true) ∨
      ((∃ p c, decode w = .ok (.search p c)) ∧ s.qBusy = true)) ∧
    (rspStatus r = 3#4 ↔ ((∃ b, decode w = .ok (.sbyte b)) ∨ decode w = .ok .sclose) ∧ s.sOpen = false) ∧
    rspStatus r ≤ 3#4 ∧
    (rspStatus r ≠ 0#4 → rspHi r = 0#8 ∧ rspLo r = 0#8)

/-- R68: the fields of the two kinds of result word; a search's words are HITs then at most one END, with every HIT's key below
the END's `CHECKED`, and `INC = 0` if and only if `CHECKED = 1024`. -/
def Obligations.ResultWordLayout : Prop :=
  (∀ k, k < 1024 → resEnd (hitWord k) = 0#1 ∧ resInc (hitWord k) = 0#1 ∧ resZero (hitWord k) = 0#3 ∧
    (resVal (hitWord k)).toNat = k) ∧
  (∀ inc n, n ≤ 1024 → resEnd (endWord inc n) = 1#1 ∧ resInc (endWord inc n) = inc ∧ resZero (endWord inc n) = 0#3 ∧
    (resVal (endWord inc n)).toNat = n) ∧
  (∀ (samples : List Bool) (q : SearchCtx), ∃ keys : List Nat, (∀ k ∈ keys, k < 1024) ∧
    ((∃ q', searchRun samples q = (keys.map hitWord, some q')) ∨
     ∃ inc n, searchRun samples q = (keys.map hitWord ++ [endWord inc n], none) ∧ n ≤ 1024 ∧
       (inc = 0#1 ↔ n = 1024) ∧ ∀ k ∈ keys, k < n))

/-! ### The string boundary and the textual form -/

/-- R72, R73, R74: the predicates, and that a string which fails one is a shape error and forms no command: not `key_info`'s, and
no line of R76 that has it as an operand. -/
def Obligations.StringPredicates : Prop :=
  (∀ s : List Char, isValidKey s = true ↔ s.length = 10 ∧ ∀ c ∈ s, c = '0' ∨ c = '1') ∧
  (∀ s : List Char, isValidBlock s = true ↔ s.length = 8 ∧ ∀ c ∈ s, c = '0' ∨ c = '1') ∧
  (∀ s : List Char, isValidKey s = false → parseKey s = .error .shape ∧ keyInfoCommand s = .error .shape ∧
    ∀ (ws : List CmdWord) (b : List Char) (d : Dir), assemble (.enc b s) ≠ .ok ws ∧ assemble (.dec b s) ≠ .ok ws ∧
      assemble (.keyinfo s) ≠ .ok ws ∧ assemble (.sopen d s) ≠ .ok ws) ∧
  (∀ s : List Char, isValidBlock s = false → parseBlock s = .error .shape ∧
    ∀ (ws : List CmdWord) (x : List Char), assemble (.enc s x) ≠ .ok ws ∧ assemble (.dec s x) ≠ .ok ws ∧
      assemble (.sbyte s) ≠ .ok ws ∧ assemble (.search s x) ≠ .ok ws ∧ assemble (.search x s) ≠ .ok ws)

/-- R71: `vec` and `str` position by position, that they are inverse to each other, and that a key string is the binary numeral of
the key's integer value. -/
def Obligations.VecAndStrAreInverse : Prop :=
  (∀ (s : List Char) (i : Nat) (c : Char), s[i]? = some c → bitAt (vecOfString s) (i + 1) = decide (c = '1')) ∧
  (∀ (n : Nat) (v : BitVec n) (i : Nat), i < n →
    (strOfVec v)[i]? = some (if bitAt v (i + 1) then '1' else '0')) ∧
  (∀ s : List Char, (∀ c ∈ s, c = '0' ∨ c = '1') → strOfVec (vecOfString s) = s) ∧
  (∀ k : Key, parseKey (strOfVec k) = .ok k) ∧
  (∀ b : Block, parseBlock (strOfVec b) = .ok b) ∧
  (∀ (s : List Char) (k : Key), parseKey s = .ok k →
    intOf k = s.foldl (fun n c => 2 * n + if c = '1' then 1 else 0) 0)

/-- `key_info` through the core, with no command waiting and no response untaken: a valid key gives the pair of strings, an
invalid one the error value and no command, and the core is left as it was. From R75 and R47; how the HOST sends and takes
(`transact`) and the error value are the model's choice (log entry 9). -/
def Obligations.KeyInfoThroughTheCore : Prop :=
  ∀ (str : List Char) (s : State), s.cmdq = [] → s.rspq = [] →
    (isValidKey str = true → ∃ key, parseKey str = .ok key ∧ keyInfoCommand str = .ok (encode (.keyinfo key)) ∧
      keyInfoOn str s = some (.ok (strOfVec (keySchedule key).k1, strOfVec (keySchedule key).k2), s)) ∧
    (isValidKey str = false → keyInfoOn str s = some (.error .shape, s))

/-- A line whose operand strings are the strings of vectors is the word of the command with those vectors, ENCTEXT and DECTEXT are
the words of their expansions, and a line with a malformed operand forms no word, whatever its mnemonic. From R74, R76 and R77;
the error values are the model's (log entry 9). -/
def Obligations.LinesAssemble : Prop :=
  (∀ (b c : Block) (k : Key) (d : Dir),
    assemble (.enc (strOfVec b) (strOfVec k)) = .ok [encode (.enc b k)] ∧
    assemble (.dec (strOfVec b) (strOfVec k)) = .ok [encode (.dec b k)] ∧
    assemble (.keyinfo (strOfVec k)) = .ok [encode (.keyinfo k)] ∧
    assemble (.sopen d (strOfVec k)) = .ok [encode (.sopen d k)] ∧
    assemble (.sbyte (strOfVec b)) = .ok [encode (.sbyte b)] ∧
    assemble .sclose = .ok [encode .sclose] ∧
    assemble (.search (strOfVec b) (strOfVec c)) = .ok [encode (.search b c)] ∧
    assemble (.brute (strOfVec b) (strOfVec c)) = .ok [encode (.search b c)]) ∧
  (∀ (text : List Nat) (bytes : List Block) (k : Key), utf8Encode text = some bytes →
    assemble (.encText text (strOfVec k)) =
      .ok (encode (.sopen .encrypt k) :: (bytes.map (fun b => encode (.sbyte b)) ++ [encode .sclose]))) ∧
  (∀ (codes : List Nat) (k : Key), (∀ c ∈ codes, c ≤ 255) →
    assemble (.decText codes (strOfVec k)) =
      .ok (encode (.sopen .decrypt k) :: (codes.map (fun c => encode (.sbyte (vecOf 8 c))) ++ [encode .sclose]))) ∧
  (∀ (hex : List Char) (w : CmdWord), parseWord hex = some w → assemble (.word hex) = .ok [w]) ∧
  (∀ blk key : List Char, (isValidBlock blk = false ∨ isValidKey key = false) →
    assemble (.enc blk key) = .error .shape ∧ assemble (.dec blk key) = .error .shape) ∧
  (∀ key : List Char, isValidKey key = false →
    assemble (.keyinfo key) = .error .shape ∧ (∀ d, assemble (.sopen d key) = .error .shape) ∧
    (∀ text, assemble (.encText text key) = .error .shape) ∧ (∀ codes, assemble (.decText codes key) = .error .shape)) ∧
  (∀ blk : List Char, isValidBlock blk = false → assemble (.sbyte blk) = .error .shape) ∧
  (∀ x y : List Char, (isValidBlock x = false ∨ isValidBlock y = false) →
    assemble (.search x y) = .error .shape ∧ assemble (.brute x y) = .error .shape) ∧
  (∀ (text : List Nat) (key : List Char), utf8Encode text = none → assemble (.encText text key) = .error .shape) ∧
  (∀ (codes : List Nat) (key : List Char), (∃ c ∈ codes, 255 < c) → assemble (.decText codes key) = .error .shape) ∧
  (∀ hex : List Char, parseWord hex = none → assemble (.word hex) = .error .shape)

/-! ### The commands -/

/-- R147: ENC, its word for every operand, its answer in every state with nothing else changed, and the rule's example. -/
def Obligations.EncAnswers : Prop :=
  (∀ (blk : Block) (key : Key), decode (commandWord 0x1 0 0 key 0 blk) = .ok (.enc blk key)) ∧
  (∀ (blk : Block) (key : Key) (s : State),
    exec (.enc blk key) s = .next { s with rspq := s.rspq ++ [rspWord .ok 0 (encrypt blk key)] }) ∧
  (∀ s : State, execWord 0x128200BD s = .next { s with rspq := s.rspq ++ [0x00000087] })

/-- R148: DEC, its word for every operand, its answer in every state with nothing else changed, and the rule's example. -/
def Obligations.DecAnswers : Prop :=
  (∀ (blk : Block) (key : Key), decode (commandWord 0x2 0 0 key 0 blk) = .ok (.dec blk key)) ∧
  (∀ (blk : Block) (key : Key) (s : State),
    exec (.dec blk key) s = .next { s with rspq := s.rspq ++ [rspWord .ok 0 (decrypt blk key)] }) ∧
  (∀ s : State, execWord 0x22820087 s = .next { s with rspq := s.rspq ++ [0x000000BD] })

/-- R114: KEYINFO, its word for every operand, its answer in every state with nothing else changed, and the rule's example. -/
def Obligations.KeyinfoAnswers : Prop :=
  (∀ key : Key, decode (commandWord 0x3 0 0 key 0 0) = .ok (.keyinfo key)) ∧
  (∀ (key : Key) (s : State), exec (.keyinfo key) s =
    .next { s with rspq := s.rspq ++ [rspWord .ok (keySchedule key).k1 (keySchedule key).k2] }) ∧
  (∀ s : State, execWord 0x32820000 s = .next { s with rspq := s.rspq ++ [0x0000A443] })

/-- R161: SOPEN with no stream open latches the direction and the round keys; with one open it is answered `ERR_BUSY` and changes
nothing else, the search context and `CANCEL` being free in both; and the rule's example. -/
def Obligations.SopenOpensOrIsRefused : Prop :=
  (∀ key : Key, decode (commandWord 0x4 0 0 key 0 0) = .ok (.sopen .encrypt key) ∧
    decode (commandWord 0x4 1 0 key 0 0) = .ok (.sopen .decrypt key)) ∧
  (∀ (d : Dir) (key : Key) (s : State), s.sOpen = false → exec (.sopen d key) s =
    .next { s with
      stream := some { dir := d, k1 := (keySchedule key).k1, k2 := (keySchedule key).k2 }
      rspq := s.rspq ++ [rspWord .ok 0 0] }) ∧
  (∀ (d : Dir) (key : Key) (s : State), s.sOpen = true → exec (.sopen d key) s =
    .next { s with rspq := s.rspq ++ [rspWord .errBusy 0 0] }) ∧
  (∀ s : State, s.sOpen = false → ∃ t, execWord 0x42820000 s = .next t ∧
    t.rspq = s.rspq ++ [0x00000000] ∧ t.sOpen = true ∧ t.sDir = some .encrypt ∧
    t.sK1 = some 0b10100100 ∧ t.sK2 = some 0b01000011 ∧
    execWord 0x48000000 t = .next { t with rspq := t.rspq ++ [0x20000000] })

/-- R162: SBYTE with a stream open answers the byte under the latched pair in the order of the direction, with no stream open
`ERR_NOSTREAM`; the answers to the bytes of a stream opened under a key are `StreamMap` of them, in order; and the example. -/
def Obligations.SbyteTransformsOneByte : Prop :=
  (∀ blk : Block, decode (commandWord 0x5 0 0 0 0 blk) = .ok (.sbyte blk)) ∧
  (∀ (blk : Block) (c : StreamCtx) (s : State), s.stream = some c → exec (.sbyte blk) s =
    .next { s with rspq := s.rspq ++
      [rspWord .ok 0 (if c.dir = .encrypt then crypt blk c.k1 c.k2 else crypt blk c.k2 c.k1)] }) ∧
  (∀ (blk : Block) (s : State), s.sOpen = false → exec (.sbyte blk) s =
    .next { s with rspq := s.rspq ++ [rspWord .errNoStream 0 0] }) ∧
  (∀ (d : Dir) (key : Key) (bytes : List Block) (s t : State),
    s.sOpen = false → exec (.sopen d key) s = .next t →
    execAll (bytes.map Instr.sbyte) t =
      some { t with rspq := t.rspq ++ (streamMap d key bytes).map (rspWord .ok 0) }) ∧
  (∀ s : State, s.stream = some { dir := .encrypt, k1 := 0b10100100, k2 := 0b01000011 } →
    execWord 0x50000048 s = .next { s with rspq := s.rspq ++ [0x000000C4] } ∧
    execWord 0x50000069 s = .next { s with rspq := s.rspq ++ [0x000000C7] })

/-- R163: SCLOSE with a stream open discards the stream registers; with none open it is answered `ERR_NOSTREAM` and changes
nothing else; a second SCLOSE is refused. -/
def Obligations.ScloseDiscardsTheStream : Prop :=
  decode 0x60000000 = .ok .sclose ∧
  (∀ s : State, s.sOpen = true →
    exec .sclose s = .next { s with stream := none, rspq := s.rspq ++ [rspWord .ok 0 0] }) ∧
  (∀ s : State, s.sOpen = false →
    exec .sclose s = .next { s with rspq := s.rspq ++ [rspWord .errNoStream 0 0] }) ∧
  (∀ s : State, s.sOpen = true → ∃ t, execWord 0x60000000 s = .next t ∧ t.rspq = s.rspq ++ [0x00000000] ∧
    t.sOpen = false ∧ t.sDir = none ∧ t.sK1 = none ∧ t.sK2 = none ∧
    execWord 0x60000000 t = .next { t with rspq := t.rspq ++ [0x30000000] })

/-- R182: SEARCH with no search running starts one at candidate 0 and appends nothing to `RESQ`; with one running it is answered
`ERR_BUSY` and changes nothing else, in both cases whatever `CANCEL` and the stream are; and the rule's example. -/
def Obligations.SearchStartsOrIsRefused : Prop :=
  (∀ plain cipher : Block,
    decode (commandWord 0x7 0 0 0 cipher plain) = .ok (.search plain cipher)) ∧
  (∀ (plain cipher : Block) (s : State), s.qBusy = false → exec (.search plain cipher) s =
    .next { s with search := some { p := plain, c := cipher, cand := 0 }, rspq := s.rspq ++ [rspWord .ok 0 0] }) ∧
  (∀ (plain cipher : Block) (s : State), s.qBusy = true → exec (.search plain cipher) s =
    .next { s with rspq := s.rspq ++ [rspWord .errBusy 0 0] }) ∧
  (∀ s : State, s.qBusy = false → ∃ t, execWord 0x700087BD s = .next t ∧
    t.rspq = s.rspq ++ [0x00000000] ∧ t.resq = s.resq ∧ t.qBusy = true ∧ t.qP = some 0b10111101 ∧
    t.qC = some 0b10000111 ∧ t.qCand = some 0 ∧
    execWord 0x700087BD t = .next { t with rspq := t.rspq ++ [0x20000000] })

/-- R205: a word answered with an error status changes nothing but `RSPQ`, and its response has a zero payload. -/
def Obligations.ErrorsChangeNothing : Prop :=
  ∀ (w : CmdWord) (s t : State) (r : RspWord), execWord w s = .next t → t.rspq = s.rspq ++ [r] →
    rspStatus r ≠ 0#4 → t = { s with rspq := s.rspq ++ [r] } ∧ rspHi r = 0#8 ∧ rspLo r = 0#8

/-- The frame of every command: none writes `CMDQ`, `RESQ`, the pin or the model's own fields; the stream registers are written by SOPEN and SCLOSE only and the search registers by SEARCH only; `RSPQ` keeps its words and gains one. -/
def Obligations.CommandFrames : Prop :=
  ∀ (i : Instr) (s t : State), exec i s = .next t →
    t.cmdq = s.cmdq ∧ t.resq = s.resq ∧ t.cancel = s.cancel ∧ t.script = s.script ∧ t.hostGoesOn = s.hostGoesOn ∧
    t.turn = s.turn ∧
    (∃ r, t.rspq = s.rspq ++ [r]) ∧
    (match i with
      | .enc _ _ => t.stream = s.stream ∧ t.search = s.search
      | .dec _ _ => t.stream = s.stream ∧ t.search = s.search
      | .keyinfo _ => t.stream = s.stream ∧ t.search = s.search
      | .sopen _ _ => t.search = s.search ∧ (s.sOpen = true → t.stream = s.stream)
      | .sbyte _ => t.stream = s.stream ∧ t.search = s.search
      | .sclose => t.search = s.search ∧ t.stream = none
      | .search _ _ => t.stream = s.stream ∧ (s.qBusy = true → t.search = s.search))

/-- R56: the response to ENC, DEC and KEYINFO is a function of the command alone, and the response to SBYTE of its operand and
the stream context alone. -/
def Obligations.StatelessResponses : Prop :=
  (∀ (i : Instr) (s s' t t' : State) (r r' : RspWord),
    ((∃ b k, i = .enc b k) ∨ (∃ b k, i = .dec b k) ∨ (∃ k, i = .keyinfo k) ∨
      ((∃ b, i = .sbyte b) ∧ s.stream = s'.stream)) →
    exec i s = .next t → exec i s' = .next t' → t.rspq = s.rspq ++ [r] → t'.rspq = s'.rspq ++ [r'] → r = r')

/-! ### The agents and a run -/

/-- A step runs the decoded command: when CMD moves and `RSPQ` has room, the step is `exec` of the command the oldest word of
`CMDQ` decodes to, in the state without that word and without the move; a placed word is run by the very next step. How moves are
held and a word placed is the model's choice (log entries 3 and 8). -/
def Obligations.StepRunsTheDecodedCommand : Prop :=
  (∀ (s : State) (w : CmdWord) (rest : List CmdWord) (ms : List Move) (i : Instr),
    s.script = Move.cmd :: ms → s.cmdq = w :: rest → s.rspq.length < Config.rspDepth → decode w = .ok i →
    step s = exec i { s with cmdq := rest, script := ms }) ∧
  (∀ (s : State) (w : CmdWord) (rest : List CmdWord) (i : Instr),
    s.script = [] → s.hostGoesOn = false → s.qBusy = false → s.cmdq = w :: rest →
    s.rspq.length < Config.rspDepth → decode w = .ok i →
    step s = exec i { s with cmdq := rest }) ∧
  (∀ (s : State) (nbits w : Nat) (i : Instr), decodeTableWord nbits w = some i →
    step (s.withFetchWord nbits w) =
      exec i { s with rspq := if s.rspq.length < Config.rspDepth then s.rspq else [] })

/-- Which move a step makes: the script's oldest; with no script, the one the free value names when the outside goes on for ever,
else the one agent that has a step, or the agent the free value names when both have one; with none, the state stays. All this is
the model's choice (log entries 3, 4, 7 and 18). And what the HOST's moves do (R23, R24, R230): a put appends one word to `CMDQ`, a
take removes exactly the oldest word of its channel, a setting of `CANCEL` changes the level, and none changes anything else; a
take from an empty channel changes nothing (log entry 7). -/
def Obligations.MovesOfAStep : Prop :=
  (∀ (s : State) (m : Move) (ms : List Move), s.script = m :: ms → step s = makeMove m { s with script := ms }) ∧
  (∀ s : State, s.script = [] → s.hostGoesOn = true →
    step s = makeMove (Config.freeMove s.turn) { s with turn := s.turn + 1 }) ∧
  (∀ s : State, s.script = [] → s.hostGoesOn = false → s.cmdReady = true → s.srchReady = false → step s = cmdStep s) ∧
  (∀ s : State, s.script = [] → s.hostGoesOn = false → s.cmdReady = false → s.srchReady = true →
    step s = .next (srchStep s)) ∧
  (∀ s : State, s.script = [] → s.hostGoesOn = false → s.cmdReady = true → s.srchReady = true →
    step s = match Config.freeAgent s.turn with
      | .cmd => cmdStep { s with turn := s.turn + 1 }
      | .srch => .next (srchStep { s with turn := s.turn + 1 })) ∧
  (∀ s : State, s.script = [] → s.hostGoesOn = false → s.cmdReady = false → s.srchReady = false → step s = .next s) ∧
  (∀ s : State, makeMove .cmd s = cmdStep s ∧ makeMove .srch s = .next (srchStep s)) ∧
  (∀ (s : State) (w : CmdWord), makeMove (.put w) s = .next { s with cmdq := s.cmdq ++ [w] }) ∧
  (∀ (s : State) (r : RspWord) (rest : List RspWord), s.rspq = r :: rest →
    makeMove .takeResponse s = .next { s with rspq := rest }) ∧
  (∀ (s : State) (r : ResWord) (rest : List ResWord), s.resq = r :: rest →
    makeMove .takeResult s = .next { s with resq := rest }) ∧
  (∀ (s : State) (level : Bool), makeMove (.setCancel level) s = .next { s with cancel := level }) ∧
  (∀ s : State, s.rspq = [] → makeMove .takeResponse s = .next s) ∧
  (∀ s : State, s.resq = [] → makeMove .takeResult s = .next s)

/-- Commands are taken in the order they were put, one response each; the responses the HOST takes, followed by those still
waiting, are exactly those that waited before, followed by the answers, in order, and so for the result words: no word is lost,
doubled or reordered, over any number of steps with no reset among the moves. From R23, R47 and R49 over the model's runs (log
entries 3 and 18). -/
def Obligations.ChannelsKeepOrder : Prop :=
  ∀ (n : Nat) (s t : State), Move.rst ∉ movesIn n s → core.run n s = .next t →
    s.cmdq ++ putsIn n s = (answersIn n s).map Prod.fst ++ t.cmdq ∧
    takenResponsesIn n s ++ t.rspq = s.rspq ++ (answersIn n s).map Prod.snd ∧
    takenResultsIn n s ++ t.resq = s.resq ++ resultsIn n s

/-- A held agent changes nothing: CMD with `CMDQ` empty or `RSPQ` full, SRCH with no search running, and SRCH with `RESQ` full
at a step that would append; a full channel of one agent does not hold the other. From R48; that such a move is a step of the model
that changes nothing is the model's choice (log entry 7). -/
def Obligations.HeldAgentsChangeNothing : Prop :=
  (∀ s : State, s.cmdq = [] ∨ s.rspq.length = Config.rspDepth → cmdStep s = .next s ∧ s.cmdReady = false) ∧
  (∀ s : State, s.qBusy = false → srchStep s = s ∧ s.srchReady = false) ∧
  (∀ (s : State) (q : SearchCtx), s.search = some q → s.resq.length = Config.resDepth →
    (q.cand.val = 1024 ∨ s.cancel = true ∨ encrypt q.p (vecOf 10 q.cand.val) = q.c) →
    srchStep s = s ∧ s.srchReady = false) ∧
  (∀ (s : State) (rs : List ResWord), s.cmdReady = true → ({ s with resq := rs } : State).cmdReady = true) ∧
  (∀ (s : State) (rs : List RspWord), s.srchReady = true → ({ s with rspq := rs } : State).srchReady = true)

/-- `CANCEL` is read by the search step only, not once all candidates are tested, and changed by the HOST only. -/
def Obligations.CancelReachesOnlyTheSearch : Prop :=
  (∀ (s t : State) (b : Bool), cmdStep s = .next t → cmdStep (s.setCancel b) = .next (t.setCancel b)) ∧
  (∀ (s : State) (q : SearchCtx) (b : Bool), s.search = some q → q.cand.val = 1024 →
    srchStep (s.setCancel b) = (srchStep s).setCancel b) ∧
  (∀ (m : Move) (s t : State), (∀ b, m ≠ .setCancel b) → makeMove m s = .next t → t.cancel = s.cancel) ∧
  (∀ (s : State) (q q' : SearchCtx), s.cancel = true → s.search = some q → (srchStep s).search = some q' → q' = q)

/-- The two agents share nothing: unless the next command is a SEARCH, a step of CMD and a step of SRCH give the same state in
either order; a SEARCH too, while the search goes on running. -/
def Obligations.AgentsCommute : Prop :=
  (∀ s : State, (∀ w p c, s.cmdq.head? = some w → decode w ≠ .ok (.search p c)) →
    ∃ t, cmdStep s = .next t ∧ cmdStep (srchStep s) = .next (srchStep t)) ∧
  (∀ s : State, s.qBusy = true → (srchStep s).qBusy = true →
    ∃ t, cmdStep s = .next t ∧ cmdStep (srchStep s) = .next (srchStep t))

/-! ### The search -/

/-- R183: one search step: the complete END whatever `CANCEL` is, the cancelled END, or one candidate tested; none while no
search runs; uncancelled, a search takes exactly 1025 steps. A `CANCEL` left at 1 ends a search just started with
`END(INC = 1, CHECKED = 0)`. -/
def Obligations.SearchStepFollowsItsRule : Prop :=
  (∀ (s : State) (q : SearchCtx), s.search = some q → s.resq.length < Config.resDepth → q.cand.val = 1024 →
    srchStep s = { s with search := none, resq := s.resq ++ [0x8400] }) ∧
  (∀ (s : State) (q : SearchCtx), s.search = some q → s.resq.length < Config.resDepth → q.cand.val < 1024 →
    s.cancel = true → srchStep s = { s with search := none, resq := s.resq ++ [endWord 1 q.cand.val] }) ∧
  (∀ (s : State) (q : SearchCtx), s.search = some q → s.resq.length < Config.resDepth → s.cancel = false →
    ∀ h : q.cand.val + 1 < 1025, srchStep s =
      { s with
        search := some { p := q.p, c := q.c, cand := ⟨q.cand.val + 1, h⟩ }
        resq := s.resq ++ if encrypt q.p (vecOf 10 q.cand.val) = q.c then [hitWord q.cand.val] else [] }) ∧
  (∀ (s : State) (q : SearchCtx), s.search = some q → s.cancel = false →
    encrypt q.p (vecOf 10 q.cand.val) ≠ q.c → ∀ h : q.cand.val + 1 < 1025, srchStep s =
      { s with search := some { p := q.p, c := q.c, cand := ⟨q.cand.val + 1, h⟩ } }) ∧
  (∀ (s : State) (p c : Block), s.qBusy = false → s.cancel = true → s.resq.length < Config.resDepth →
    ∃ t, exec (.search p c) s = .next t ∧ srchStep t = { t with search := none, resq := t.resq ++ [0xC000] }) ∧
  (∀ s : State, s.qBusy = false → srchStep s = s) ∧
  (∀ (p c : Block) (n : Nat),
    (searchRun (List.replicate n false) { p := p, c := c, cand := 0 }).2 = none ↔ 1025 ≤ n)

/-- R180, R187: the search's set is exactly the matching keys, ascending; a pair made by `Encrypt` has its key in it and an
uncancelled search delivers it; over the 256 ciphertexts of a plaintext the sizes add up to 1024. -/
def Obligations.SearchSetIsExact : Prop :=
  (∀ (p c : Block) (k : Nat), k ∈ searchKeys p c ↔ k < 1024 ∧ encrypt p (vecOf 10 k) = c) ∧
  (∀ p c : Block, (searchKeys p c).Pairwise (· < ·)) ∧
  (∀ (p : Block) (key : Key), intOf key ∈ searchKeys p (encrypt p key) ∧
    hitWord (intOf key) ∈
      (searchRun (List.replicate 1025 false) { p := p, c := encrypt p key, cand := 0 }).1) ∧
  (∀ p : Block, ((List.range 256).map (fun c => (searchKeys p (vecOf 8 c)).length)).sum = 1024) ∧
  searchKeys 0b10111101 0b10000111 = [308, 380, 384, 456, 563, 566, 635, 638, 642, 714]

/-- R185: cancelled at candidate `n`, the engine appends exactly the matches below `n` and then `END(1, n)`; never cancelled, it
takes 1025 steps and appends all the matches and then `END(0, 1024)`. -/
def Obligations.SearchRunIsAPrefix : Prop :=
  (∀ (p c : Block) (n : Nat) (later : List Bool), n < 1024 →
    searchRun (List.replicate n false ++ true :: later) { p := p, c := c, cand := 0 } =
      (hitsBelow p c n ++ [endWord 1 n], none)) ∧
  (∀ (p c : Block) (last : Bool) (later : List Bool),
    searchRun (List.replicate 1024 false ++ last :: later) { p := p, c := c, cand := 0 } =
      (hitsBelow p c 1024 ++ [endWord 0 1024], none)) ∧
  (∀ (p c : Block) (n : Nat), n ≤ 1024 → ∃ q, q.cand.val = n ∧
    searchRun (List.replicate n false) { p := p, c := c, cand := 0 } = (hitsBelow p c n, some q))

/-- The results of a search on the machine, under every interleaving with commands and HOST moves but reset: while it runs, what
SRCH appended is the HITs of the matches below `Q_CAND`; otherwise it begins with the HITs of the matches below some `CHECKED`
and the END word that says so. From R49, R185 and R188 over the model's runs (log entries 3 and 18). -/
def Obligations.SearchResultsUnderAnyInterleaving : Prop :=
  ∀ (n : Nat) (s : State) (q : SearchCtx), s.search = some q → q.cand = 0 → Move.rst ∉ movesIn n s →
    (∃ t q', core.run n s = .next t ∧ t.search = some q' ∧ q'.p = q.p ∧ q'.c = q.c ∧
      resultsIn n s = hitsBelow q.p q.c q'.cand.val) ∨
    (∃ inc m, m ≤ 1024 ∧ (inc = 0#1 ↔ m = 1024) ∧
      hitsBelow q.p q.c m ++ [endWord inc m] <+: resultsIn n s)

/-- A search ends: with SRCH and the HOST moving in turn, the HOST taking each result word, at most 1025 search steps from
candidate 0 end it, whatever `CANCEL` is. From R189 over the model's runs (log entry 3). And so BRUTE's collection (R77), from a
core with nothing waiting and no search running, gives the keys of `Search` and the END word, or with `CANCEL` at 1 no key and the
END word that says so, and leaves the core as it was; of any result words it collects the keys up to the first END. How the HOST
sends and takes is the model's choice (log entry 9). -/
def Obligations.SearchEndsWithinItsBound : Prop :=
  (∀ (s : State) (q : SearchCtx) (rest : List Move), s.search = some q → s.resq.length < Config.resDepth →
    s.script = (List.replicate (1025 - q.cand.val) [Move.srch, Move.takeResult]).flatten ++ rest →
    ∃ k t, k ≤ 2 * (1025 - q.cand.val) ∧ core.run k s = .next t ∧ t.qBusy = false ∧ t.cmdq = s.cmdq ∧
      t.stream = s.stream ∧ t.rspq = s.rspq) ∧
  (∀ (p c : Block) (s : State), s.cmdq = [] → s.rspq = [] → s.resq = [] → s.qBusy = false → s.cancel = false →
    bruteOn p c s = some ((searchKeys p c, 0x8400), s)) ∧
  (∀ (p c : Block) (s : State), s.cmdq = [] → s.rspq = [] → s.resq = [] → s.qBusy = false → s.cancel = true →
    bruteOn p c s = some (([], 0xC000), s)) ∧
  (∀ (p c : Block) (s : State), s.cmdq = [] → s.rspq = [] → s.qBusy = true → bruteOn p c s = none) ∧
  (∀ (p c : Block) (n : Nat) (inc : BitVec 1) (later : List ResWord), n ≤ 1024 →
    collectSearch (hitsBelow p c n ++ endWord inc n :: later) = some (keysBelow p c n, endWord inc n))

/-! ### Reset, the invariant, quiescence -/

/-- R34: the state after reset; `CANCEL` is not the core's: reset does not change it, and, reading it not, leaves all else the same
at either level. -/
def Obligations.StateAfterReset : Prop :=
  State.reset.sOpen = false ∧ State.reset.sDir = none ∧ State.reset.sK1 = none ∧ State.reset.sK2 = none ∧
  State.reset.qBusy = false ∧ State.reset.qP = none ∧ State.reset.qC = none ∧ State.reset.qCand = none ∧
  State.reset.cmdq = [] ∧ State.reset.rspq = [] ∧ State.reset.resq = [] ∧
  (∀ s : State, s.resetCore.cancel = s.cancel) ∧
  (∀ (s : State) (level : Bool), (s.setCancel level).resetCore = s.resetCore.setCancel level)

/-- R220, R221: the reset event, from any state, in one step: every register and channel as after reset, all work in flight dropped,
no END and no response made; `CANCEL` is neither read nor changed. -/
def Obligations.ResetDropsEverything : Prop :=
  ∀ s : State, ∃ t, makeMove .rst s = .next t ∧
    t.sOpen = false ∧ t.sDir = none ∧ t.sK1 = none ∧ t.sK2 = none ∧
    t.qBusy = false ∧ t.qP = none ∧ t.qC = none ∧ t.qCand = none ∧
    t.cmdq = [] ∧ t.rspq = [] ∧ t.resq = [] ∧ t.cancel = s.cancel ∧
    ∀ b, makeMove .rst (s.setCancel b) = .next (t.setCancel b)

/-- The invariant of the model (`State.Inv`) holds after reset. -/
def Obligations.InvariantAfterReset : Prop := State.reset.Inv

/-- Every step keeps the invariant, from every state that has it: the channels stay within their depths, the waiting words are well
formed, an open stream holds the round keys of a key, waiting HITs belong to the running search. -/
def Obligations.EveryStepKeepsTheInvariant : Prop :=
  ∀ s t : State, s.Inv → step s = .next t → t.Inv

/-- Runs and their ends. Every finite sequence of moves is the run of some script and every infinite one that of an outside that
goes on: the moves made are exactly those the script lists, then those the free value gives, for ever. In a quiescent core neither
CMD nor SRCH has a step; with the HOST silent it stays as it is for any number of steps, and a core in which an agent has a step
goes on. From R215 and R223; script, free value and the idle step are the model's choice (log entries 3, 7 and 18). -/
def Obligations.QuiescentCoreStays : Prop :=
  (∀ (ms later : List Move) (s : State), movesIn ms.length { s with script := ms ++ later } = ms) ∧
  (∀ (n : Nat) (s : State), s.script = [] → s.hostGoesOn = true →
    movesIn n s = (List.range n).map (fun i => Config.freeMove (s.turn + i))) ∧
  (∀ s : State, s.quiescent → cmdStep s = .next s ∧ srchStep s = s ∧ s.cmdReady = false ∧ s.srchReady = false) ∧
  (∀ (n : Nat) (s : State), s.quiescent → s.script = [] → s.hostGoesOn = false → core.run n s = .next s) ∧
  (∀ s t : State, s.script = [] → s.hostGoesOn = false → (s.cmdReady = true ∨ s.srchReady = true) →
    step s = .next t → t ≠ s)

/-! ### The text layer -/

/-- R167: `utf8_encode` is defined exactly on texts of scalar values, code point by code point with the bytes of the rule's table;
`utf8_decode` is its inverse, defined exactly on the concatenations of the rule's nine forms; a text that cannot be encoded is a
shape error. -/
def Obligations.Utf8IsStrict : Prop :=
  (∀ text : List Nat, (utf8Encode text).isSome = true ↔
    ∀ c ∈ text, c ≤ 0x10FFFF ∧ ¬ (0xD800 ≤ c ∧ c ≤ 0xDFFF)) ∧
  (∀ c, c ≤ 0x7F → utf8Encode [c] = some [0#1 ++ vecOf 7 c]) ∧
  (∀ c, 0x80 ≤ c → c ≤ 0x7FF → utf8Encode [c] = some [0b110#3 ++ vecOf 5 (c / 64), 0b10#2 ++ vecOf 6 c]) ∧
  (∀ c, 0x800 ≤ c → c ≤ 0xFFFF → ¬ (0xD800 ≤ c ∧ c ≤ 0xDFFF) → utf8Encode [c] =
    some [0b1110#4 ++ vecOf 4 (c / 4096), 0b10#2 ++ vecOf 6 (c / 64), 0b10#2 ++ vecOf 6 c]) ∧
  (∀ c, 0x10000 ≤ c → c ≤ 0x10FFFF → utf8Encode [c] =
    some [0b11110#5 ++ vecOf 3 (c / 262144), 0b10#2 ++ vecOf 6 (c / 4096), 0b10#2 ++ vecOf 6 (c / 64),
      0b10#2 ++ vecOf 6 c]) ∧
  (∀ (text text' : List Nat) (b b' : List Block), utf8Encode text = some b → utf8Encode text' = some b' →
    utf8Encode (text ++ text') = some (b ++ b')) ∧
  (∀ (text : List Nat) (bytes : List Block), utf8Encode text = some bytes → utf8Decode bytes = some text) ∧
  (∀ (bytes : List Block) (text : List Nat), utf8Decode bytes = some text → utf8Encode text = some bytes) ∧
  (∀ bytes : List Block, (utf8Decode bytes).isSome = true ↔
    ∃ seqs : List (List Block), bytes = seqs.flatten ∧ ∀ q ∈ seqs, ∃ form ∈
      [[(0x00, 0x7F)], [(0xC2, 0xDF), (0x80, 0xBF)], [(0xE0, 0xE0), (0xA0, 0xBF), (0x80, 0xBF)],
       [(0xE1, 0xEC), (0x80, 0xBF), (0x80, 0xBF)], [(0xED, 0xED), (0x80, 0x9F), (0x80, 0xBF)],
       [(0xEE, 0xEF), (0x80, 0xBF), (0x80, 0xBF)], [(0xF0, 0xF0), (0x90, 0xBF), (0x80, 0xBF), (0x80, 0xBF)],
       [(0xF1, 0xF3), (0x80, 0xBF), (0x80, 0xBF), (0x80, 0xBF)],
       [(0xF4, 0xF4), (0x80, 0x8F), (0x80, 0xBF), (0x80, 0xBF)]],
      List.Forall₂ (fun (b : Block) (range : Nat × Nat) => range.1 ≤ b.toNat ∧ b.toNat ≤ range.2) q form) ∧
  (∀ (text : List Nat) (key : Key), (∃ c ∈ text, 0x10FFFF < c ∨ (0xD800 ≤ c ∧ c ≤ 0xDFFF)) →
    encryptText text key = .error .shape)

/-- R165, R166: the text functions from their definitions, with the rules' examples. -/
def Obligations.TextFunctions : Prop :=
  (∀ (text : List Nat) (key : Key) (bytes : List Block), utf8Encode text = some bytes →
    encryptText text key = .ok ((streamMap .encrypt key bytes).map intOf) ∧
    ((streamMap .encrypt key bytes).map intOf).length = bytes.length ∧
    ∀ c ∈ (streamMap .encrypt key bytes).map intOf, c ≤ 255) ∧
  (∀ (cps : List Nat) (key : Key), (∀ c ∈ cps, c ≤ 255) →
    (utf8Decode (streamMap .decrypt key (cps.map byteOf)) = none → decryptText cps key = .error .decoding) ∧
    ∀ text, utf8Decode (streamMap .decrypt key (cps.map byteOf)) = some text → decryptText cps key = .ok text) ∧
  encryptText [0x48, 0x69] 0b1010000010 = .ok [0xC4, 0xC7] ∧
  encryptText [0xE9] 0b1010000010 = .ok [0x8A, 0x35] ∧
  (∀ key, encryptText [] key = .ok []) ∧
  decryptText [0xC4, 0xC7] 0b1010000010 = .ok [0x48, 0x69] ∧
  decryptText [0xC4, 0xC7] 0b0000000000 = .error .decoding ∧
  decryptText [0xC4, 0xC7] 0b0000000011 = .ok [0x27, 0x51]

/-- R169, R170: decrypting an encrypted text gives the text; a code point above 255 is a shape error and no command is issued;
encrypting what was decrypted gives the code points back when the decryption did not fail. -/
def Obligations.TextRoundTrip : Prop :=
  (∀ (text : List Nat) (key : Key), (∀ c ∈ text, c ≤ 0x10FFFF ∧ ¬ (0xD800 ≤ c ∧ c ≤ 0xDFFF)) →
    ∃ cps, encryptText text key = .ok cps ∧ decryptText cps key = .ok text) ∧
  (∀ (cps text : List Nat) (key : Key), decryptText cps key = .ok text → encryptText text key = .ok cps) ∧
  (∀ (cps : List Nat) (key : Key), (∃ c ∈ cps, 255 < c) →
    decryptText cps key = .error .shape ∧ decTextCommands cps key = .error .shape)

/-- The text functions run through the core by the commands of ENCTEXT and DECTEXT, with no stream open, no command waiting and
no response untaken, give what the functions give, and leave the core as it was, a decoding error included. From R77, R165, R166 and
R168; how the HOST sends and takes is `transact` (log entry 9). -/
def Obligations.TextThroughTheCore : Prop :=
  ∀ (s : State) (key : Key), s.stream = none → s.cmdq = [] → s.rspq = [] →
    (∀ text, encryptTextOn text key s = some (encryptText text key, s)) ∧
    (∀ cps, decryptTextOn cps key s = some (decryptText cps key, s))
end

