-- ==== Sys2Proof/Laws/Cipher.lean ====
section
/-! SUPPORT. The bit-vector operations of the cipher, bit by bit. -/

namespace Sys2Proof.Machine

@[simp] theorem length_bitsOf {n : Nat} (v : BitVec n) : (bitsOf v).length = n := by
  simp [bitsOf]

/-- A vector is determined by its bits. -/
theorem bitsOf_injective {n : Nat} {v w : BitVec n} (h : bitsOf v = bitsOf w) : v = w := by
  apply BitVec.eq_of_getMsbD_eq
  intro i hi
  simpa [bitsOf, bitAt, hi] using congrArg (fun l => l[i]?) h

/-- `out<i> = in<table<i>>` for a fixed wiring (R90, R103). -/
theorem bitsOf_wire {m : Nat} (table : List Nat) (v : BitVec m) :
    bitsOf (wire table v) = table.map (bitAt v) := by
  apply List.ext_getElem
  · simp [bitsOf]
  · intro i h1 h2
    have hi : i < table.length := by simpa using h2
    simp [bitsOf, bitAt, wire, ofBits, BitVec.getMsbD_ofBoolListBE, hi]

@[simp] theorem leftHalf_join (l r : Half) : leftHalf (joinHalves l r) = l := by
  apply BitVec.eq_of_getLsbD_eq
  intro i hi
  interval_cases i <;> simp [leftHalf, joinHalves, inField]

@[simp] theorem rightHalf_join (l r : Half) : rightHalf (joinHalves l r) = r := by
  apply BitVec.eq_of_getLsbD_eq
  intro i hi
  interval_cases i <;> simp [rightHalf, joinHalves, inField]

@[simp] theorem join_halves (v : BitVec 8) : joinHalves (leftHalf v) (rightHalf v) = v := by
  apply BitVec.eq_of_getLsbD_eq
  intro i hi
  interval_cases i <;> simp [leftHalf, rightHalf, joinHalves, inField]

theorem cryptDir_encrypt (kp : KeyPair) (b : Block) : cryptDir .encrypt kp b = crypt b kp.k1 kp.k2 := rfl

theorem cryptDir_decrypt (kp : KeyPair) (b : Block) : cryptDir .decrypt kp b = crypt b kp.k2 kp.k1 := rfl

/-- The matches below `n + 1` are those below `n` and, if it matches, `n`. -/
theorem keysBelow_succ (p c : Block) (n : Nat) :
    keysBelow p c (n + 1) = keysBelow p c n ++ if encrypt p (vecOf 10 n) = c then [n] else [] := by
  by_cases h : encrypt p (vecOf 10 n) = c <;> simp [keysBelow, List.range_succ, h]

end Sys2Proof.Machine
end

