-- ==== Sys2Proof/Laws/State.lean ====
section
/-! SUPPORT. What each operation on the state does to each field, and what each register reads after it. -/

namespace Sys2Proof.Machine

@[simp] theorem State.openStream_stream (s : State) (d : Dir) (kp : KeyPair) : (s.openStream d kp).stream = some ⟨d, kp.k1, kp.k2⟩ := rfl
@[simp] theorem State.openStream_search (s : State) (d : Dir) (kp : KeyPair) : (s.openStream d kp).search = s.search := rfl
@[simp] theorem State.openStream_cmdq (s : State) (d : Dir) (kp : KeyPair) : (s.openStream d kp).cmdq = s.cmdq := rfl
@[simp] theorem State.openStream_rspq (s : State) (d : Dir) (kp : KeyPair) : (s.openStream d kp).rspq = s.rspq := rfl
@[simp] theorem State.openStream_resq (s : State) (d : Dir) (kp : KeyPair) : (s.openStream d kp).resq = s.resq := rfl
@[simp] theorem State.openStream_cancel (s : State) (d : Dir) (kp : KeyPair) : (s.openStream d kp).cancel = s.cancel := rfl
@[simp] theorem State.openStream_script (s : State) (d : Dir) (kp : KeyPair) : (s.openStream d kp).script = s.script := rfl
@[simp] theorem State.openStream_hostGoesOn (s : State) (d : Dir) (kp : KeyPair) : (s.openStream d kp).hostGoesOn = s.hostGoesOn := rfl
@[simp] theorem State.openStream_turn (s : State) (d : Dir) (kp : KeyPair) : (s.openStream d kp).turn = s.turn := rfl

@[simp] theorem State.closeStream_stream (s : State) : (s.closeStream).stream = none := rfl
@[simp] theorem State.closeStream_search (s : State) : (s.closeStream).search = s.search := rfl
@[simp] theorem State.closeStream_cmdq (s : State) : (s.closeStream).cmdq = s.cmdq := rfl
@[simp] theorem State.closeStream_rspq (s : State) : (s.closeStream).rspq = s.rspq := rfl
@[simp] theorem State.closeStream_resq (s : State) : (s.closeStream).resq = s.resq := rfl
@[simp] theorem State.closeStream_cancel (s : State) : (s.closeStream).cancel = s.cancel := rfl
@[simp] theorem State.closeStream_script (s : State) : (s.closeStream).script = s.script := rfl
@[simp] theorem State.closeStream_hostGoesOn (s : State) : (s.closeStream).hostGoesOn = s.hostGoesOn := rfl
@[simp] theorem State.closeStream_turn (s : State) : (s.closeStream).turn = s.turn := rfl

@[simp] theorem State.startSearch_stream (s : State) (p c : Block) : (s.startSearch p c).stream = s.stream := rfl
@[simp] theorem State.startSearch_search (s : State) (p c : Block) : (s.startSearch p c).search = some ⟨p, c, 0⟩ := rfl
@[simp] theorem State.startSearch_cmdq (s : State) (p c : Block) : (s.startSearch p c).cmdq = s.cmdq := rfl
@[simp] theorem State.startSearch_rspq (s : State) (p c : Block) : (s.startSearch p c).rspq = s.rspq := rfl
@[simp] theorem State.startSearch_resq (s : State) (p c : Block) : (s.startSearch p c).resq = s.resq := rfl
@[simp] theorem State.startSearch_cancel (s : State) (p c : Block) : (s.startSearch p c).cancel = s.cancel := rfl
@[simp] theorem State.startSearch_script (s : State) (p c : Block) : (s.startSearch p c).script = s.script := rfl
@[simp] theorem State.startSearch_hostGoesOn (s : State) (p c : Block) : (s.startSearch p c).hostGoesOn = s.hostGoesOn := rfl
@[simp] theorem State.startSearch_turn (s : State) (p c : Block) : (s.startSearch p c).turn = s.turn := rfl

@[simp] theorem State.setSearch_stream (s : State) (q : Option SearchCtx) : (s.setSearch q).stream = s.stream := rfl
@[simp] theorem State.setSearch_search (s : State) (q : Option SearchCtx) : (s.setSearch q).search = q := rfl
@[simp] theorem State.setSearch_cmdq (s : State) (q : Option SearchCtx) : (s.setSearch q).cmdq = s.cmdq := rfl
@[simp] theorem State.setSearch_rspq (s : State) (q : Option SearchCtx) : (s.setSearch q).rspq = s.rspq := rfl
@[simp] theorem State.setSearch_resq (s : State) (q : Option SearchCtx) : (s.setSearch q).resq = s.resq := rfl
@[simp] theorem State.setSearch_cancel (s : State) (q : Option SearchCtx) : (s.setSearch q).cancel = s.cancel := rfl
@[simp] theorem State.setSearch_script (s : State) (q : Option SearchCtx) : (s.setSearch q).script = s.script := rfl
@[simp] theorem State.setSearch_hostGoesOn (s : State) (q : Option SearchCtx) : (s.setSearch q).hostGoesOn = s.hostGoesOn := rfl
@[simp] theorem State.setSearch_turn (s : State) (q : Option SearchCtx) : (s.setSearch q).turn = s.turn := rfl

@[simp] theorem State.pushResponse_stream (s : State) (r : RspWord) : (s.pushResponse r).stream = s.stream := rfl
@[simp] theorem State.pushResponse_search (s : State) (r : RspWord) : (s.pushResponse r).search = s.search := rfl
@[simp] theorem State.pushResponse_cmdq (s : State) (r : RspWord) : (s.pushResponse r).cmdq = s.cmdq := rfl
@[simp] theorem State.pushResponse_rspq (s : State) (r : RspWord) : (s.pushResponse r).rspq = s.rspq ++ [r] := rfl
@[simp] theorem State.pushResponse_resq (s : State) (r : RspWord) : (s.pushResponse r).resq = s.resq := rfl
@[simp] theorem State.pushResponse_cancel (s : State) (r : RspWord) : (s.pushResponse r).cancel = s.cancel := rfl
@[simp] theorem State.pushResponse_script (s : State) (r : RspWord) : (s.pushResponse r).script = s.script := rfl
@[simp] theorem State.pushResponse_hostGoesOn (s : State) (r : RspWord) : (s.pushResponse r).hostGoesOn = s.hostGoesOn := rfl
@[simp] theorem State.pushResponse_turn (s : State) (r : RspWord) : (s.pushResponse r).turn = s.turn := rfl

@[simp] theorem State.pushResult_stream (s : State) (r : ResWord) : (s.pushResult r).stream = s.stream := rfl
@[simp] theorem State.pushResult_search (s : State) (r : ResWord) : (s.pushResult r).search = s.search := rfl
@[simp] theorem State.pushResult_cmdq (s : State) (r : ResWord) : (s.pushResult r).cmdq = s.cmdq := rfl
@[simp] theorem State.pushResult_rspq (s : State) (r : ResWord) : (s.pushResult r).rspq = s.rspq := rfl
@[simp] theorem State.pushResult_resq (s : State) (r : ResWord) : (s.pushResult r).resq = s.resq ++ [r] := rfl
@[simp] theorem State.pushResult_cancel (s : State) (r : ResWord) : (s.pushResult r).cancel = s.cancel := rfl
@[simp] theorem State.pushResult_script (s : State) (r : ResWord) : (s.pushResult r).script = s.script := rfl
@[simp] theorem State.pushResult_hostGoesOn (s : State) (r : ResWord) : (s.pushResult r).hostGoesOn = s.hostGoesOn := rfl
@[simp] theorem State.pushResult_turn (s : State) (r : ResWord) : (s.pushResult r).turn = s.turn := rfl

@[simp] theorem State.respond_stream (s : State) (st : Status) (hi lo : BitVec 8) : (s.respond st hi lo).stream = s.stream := rfl
@[simp] theorem State.respond_search (s : State) (st : Status) (hi lo : BitVec 8) : (s.respond st hi lo).search = s.search := rfl
@[simp] theorem State.respond_cmdq (s : State) (st : Status) (hi lo : BitVec 8) : (s.respond st hi lo).cmdq = s.cmdq := rfl
@[simp] theorem State.respond_rspq (s : State) (st : Status) (hi lo : BitVec 8) : (s.respond st hi lo).rspq = s.rspq ++ [rspWord st hi lo] := rfl
@[simp] theorem State.respond_resq (s : State) (st : Status) (hi lo : BitVec 8) : (s.respond st hi lo).resq = s.resq := rfl
@[simp] theorem State.respond_cancel (s : State) (st : Status) (hi lo : BitVec 8) : (s.respond st hi lo).cancel = s.cancel := rfl
@[simp] theorem State.respond_script (s : State) (st : Status) (hi lo : BitVec 8) : (s.respond st hi lo).script = s.script := rfl
@[simp] theorem State.respond_hostGoesOn (s : State) (st : Status) (hi lo : BitVec 8) : (s.respond st hi lo).hostGoesOn = s.hostGoesOn := rfl
@[simp] theorem State.respond_turn (s : State) (st : Status) (hi lo : BitVec 8) : (s.respond st hi lo).turn = s.turn := rfl

@[simp] theorem State.respondError_stream (s : State) (st : Status) : (s.respondError st).stream = s.stream := rfl
@[simp] theorem State.respondError_search (s : State) (st : Status) : (s.respondError st).search = s.search := rfl
@[simp] theorem State.respondError_cmdq (s : State) (st : Status) : (s.respondError st).cmdq = s.cmdq := rfl
@[simp] theorem State.respondError_rspq (s : State) (st : Status) : (s.respondError st).rspq = s.rspq ++ [rspWord st 0 0] := rfl
@[simp] theorem State.respondError_resq (s : State) (st : Status) : (s.respondError st).resq = s.resq := rfl
@[simp] theorem State.respondError_cancel (s : State) (st : Status) : (s.respondError st).cancel = s.cancel := rfl
@[simp] theorem State.respondError_script (s : State) (st : Status) : (s.respondError st).script = s.script := rfl
@[simp] theorem State.respondError_hostGoesOn (s : State) (st : Status) : (s.respondError st).hostGoesOn = s.hostGoesOn := rfl
@[simp] theorem State.respondError_turn (s : State) (st : Status) : (s.respondError st).turn = s.turn := rfl

@[simp] theorem State.setCmdq_stream (s : State) (ws : List CmdWord) : (s.setCmdq ws).stream = s.stream := rfl
@[simp] theorem State.setCmdq_search (s : State) (ws : List CmdWord) : (s.setCmdq ws).search = s.search := rfl
@[simp] theorem State.setCmdq_cmdq (s : State) (ws : List CmdWord) : (s.setCmdq ws).cmdq = ws := rfl
@[simp] theorem State.setCmdq_rspq (s : State) (ws : List CmdWord) : (s.setCmdq ws).rspq = s.rspq := rfl
@[simp] theorem State.setCmdq_resq (s : State) (ws : List CmdWord) : (s.setCmdq ws).resq = s.resq := rfl
@[simp] theorem State.setCmdq_cancel (s : State) (ws : List CmdWord) : (s.setCmdq ws).cancel = s.cancel := rfl
@[simp] theorem State.setCmdq_script (s : State) (ws : List CmdWord) : (s.setCmdq ws).script = s.script := rfl
@[simp] theorem State.setCmdq_hostGoesOn (s : State) (ws : List CmdWord) : (s.setCmdq ws).hostGoesOn = s.hostGoesOn := rfl
@[simp] theorem State.setCmdq_turn (s : State) (ws : List CmdWord) : (s.setCmdq ws).turn = s.turn := rfl

@[simp] theorem State.putCommand_stream (s : State) (w : CmdWord) : (s.putCommand w).stream = s.stream := rfl
@[simp] theorem State.putCommand_search (s : State) (w : CmdWord) : (s.putCommand w).search = s.search := rfl
@[simp] theorem State.putCommand_cmdq (s : State) (w : CmdWord) : (s.putCommand w).cmdq = s.cmdq ++ [w] := rfl
@[simp] theorem State.putCommand_rspq (s : State) (w : CmdWord) : (s.putCommand w).rspq = s.rspq := rfl
@[simp] theorem State.putCommand_resq (s : State) (w : CmdWord) : (s.putCommand w).resq = s.resq := rfl
@[simp] theorem State.putCommand_cancel (s : State) (w : CmdWord) : (s.putCommand w).cancel = s.cancel := rfl
@[simp] theorem State.putCommand_script (s : State) (w : CmdWord) : (s.putCommand w).script = s.script := rfl
@[simp] theorem State.putCommand_hostGoesOn (s : State) (w : CmdWord) : (s.putCommand w).hostGoesOn = s.hostGoesOn := rfl
@[simp] theorem State.putCommand_turn (s : State) (w : CmdWord) : (s.putCommand w).turn = s.turn := rfl

@[simp] theorem State.takeResponse_stream (s : State) : (s.takeResponse).stream = s.stream := rfl
@[simp] theorem State.takeResponse_search (s : State) : (s.takeResponse).search = s.search := rfl
@[simp] theorem State.takeResponse_cmdq (s : State) : (s.takeResponse).cmdq = s.cmdq := rfl
@[simp] theorem State.takeResponse_rspq (s : State) : (s.takeResponse).rspq = s.rspq.tail := rfl
@[simp] theorem State.takeResponse_resq (s : State) : (s.takeResponse).resq = s.resq := rfl
@[simp] theorem State.takeResponse_cancel (s : State) : (s.takeResponse).cancel = s.cancel := rfl
@[simp] theorem State.takeResponse_script (s : State) : (s.takeResponse).script = s.script := rfl
@[simp] theorem State.takeResponse_hostGoesOn (s : State) : (s.takeResponse).hostGoesOn = s.hostGoesOn := rfl
@[simp] theorem State.takeResponse_turn (s : State) : (s.takeResponse).turn = s.turn := rfl

@[simp] theorem State.takeResult_stream (s : State) : (s.takeResult).stream = s.stream := rfl
@[simp] theorem State.takeResult_search (s : State) : (s.takeResult).search = s.search := rfl
@[simp] theorem State.takeResult_cmdq (s : State) : (s.takeResult).cmdq = s.cmdq := rfl
@[simp] theorem State.takeResult_rspq (s : State) : (s.takeResult).rspq = s.rspq := rfl
@[simp] theorem State.takeResult_resq (s : State) : (s.takeResult).resq = s.resq.tail := rfl
@[simp] theorem State.takeResult_cancel (s : State) : (s.takeResult).cancel = s.cancel := rfl
@[simp] theorem State.takeResult_script (s : State) : (s.takeResult).script = s.script := rfl
@[simp] theorem State.takeResult_hostGoesOn (s : State) : (s.takeResult).hostGoesOn = s.hostGoesOn := rfl
@[simp] theorem State.takeResult_turn (s : State) : (s.takeResult).turn = s.turn := rfl

@[simp] theorem State.setCancel_stream (s : State) (b : Bool) : (s.setCancel b).stream = s.stream := rfl
@[simp] theorem State.setCancel_search (s : State) (b : Bool) : (s.setCancel b).search = s.search := rfl
@[simp] theorem State.setCancel_cmdq (s : State) (b : Bool) : (s.setCancel b).cmdq = s.cmdq := rfl
@[simp] theorem State.setCancel_rspq (s : State) (b : Bool) : (s.setCancel b).rspq = s.rspq := rfl
@[simp] theorem State.setCancel_resq (s : State) (b : Bool) : (s.setCancel b).resq = s.resq := rfl
@[simp] theorem State.setCancel_cancel (s : State) (b : Bool) : (s.setCancel b).cancel = b := rfl
@[simp] theorem State.setCancel_script (s : State) (b : Bool) : (s.setCancel b).script = s.script := rfl
@[simp] theorem State.setCancel_hostGoesOn (s : State) (b : Bool) : (s.setCancel b).hostGoesOn = s.hostGoesOn := rfl
@[simp] theorem State.setCancel_turn (s : State) (b : Bool) : (s.setCancel b).turn = s.turn := rfl

@[simp] theorem State.resetCore_stream (s : State) : (s.resetCore).stream = none := rfl
@[simp] theorem State.resetCore_search (s : State) : (s.resetCore).search = none := rfl
@[simp] theorem State.resetCore_cmdq (s : State) : (s.resetCore).cmdq = [] := rfl
@[simp] theorem State.resetCore_rspq (s : State) : (s.resetCore).rspq = [] := rfl
@[simp] theorem State.resetCore_resq (s : State) : (s.resetCore).resq = [] := rfl
@[simp] theorem State.resetCore_cancel (s : State) : (s.resetCore).cancel = s.cancel := rfl
@[simp] theorem State.resetCore_script (s : State) : (s.resetCore).script = s.script := rfl
@[simp] theorem State.resetCore_hostGoesOn (s : State) : (s.resetCore).hostGoesOn = s.hostGoesOn := rfl
@[simp] theorem State.resetCore_turn (s : State) : (s.resetCore).turn = s.turn := rfl

@[simp] theorem State.setScript_stream (s : State) (ms : List Move) : (s.setScript ms).stream = s.stream := rfl
@[simp] theorem State.setScript_search (s : State) (ms : List Move) : (s.setScript ms).search = s.search := rfl
@[simp] theorem State.setScript_cmdq (s : State) (ms : List Move) : (s.setScript ms).cmdq = s.cmdq := rfl
@[simp] theorem State.setScript_rspq (s : State) (ms : List Move) : (s.setScript ms).rspq = s.rspq := rfl
@[simp] theorem State.setScript_resq (s : State) (ms : List Move) : (s.setScript ms).resq = s.resq := rfl
@[simp] theorem State.setScript_cancel (s : State) (ms : List Move) : (s.setScript ms).cancel = s.cancel := rfl
@[simp] theorem State.setScript_script (s : State) (ms : List Move) : (s.setScript ms).script = ms := rfl
@[simp] theorem State.setScript_hostGoesOn (s : State) (ms : List Move) : (s.setScript ms).hostGoesOn = s.hostGoesOn := rfl
@[simp] theorem State.setScript_turn (s : State) (ms : List Move) : (s.setScript ms).turn = s.turn := rfl

@[simp] theorem State.nextTurn_stream (s : State) : (s.nextTurn).stream = s.stream := rfl
@[simp] theorem State.nextTurn_search (s : State) : (s.nextTurn).search = s.search := rfl
@[simp] theorem State.nextTurn_cmdq (s : State) : (s.nextTurn).cmdq = s.cmdq := rfl
@[simp] theorem State.nextTurn_rspq (s : State) : (s.nextTurn).rspq = s.rspq := rfl
@[simp] theorem State.nextTurn_resq (s : State) : (s.nextTurn).resq = s.resq := rfl
@[simp] theorem State.nextTurn_cancel (s : State) : (s.nextTurn).cancel = s.cancel := rfl
@[simp] theorem State.nextTurn_script (s : State) : (s.nextTurn).script = s.script := rfl
@[simp] theorem State.nextTurn_hostGoesOn (s : State) : (s.nextTurn).hostGoesOn = s.hostGoesOn := rfl
@[simp] theorem State.nextTurn_turn (s : State) : (s.nextTurn).turn = s.turn + 1 := rfl

@[simp] theorem State.placeCommand_stream (s : State) (w : CmdWord) : (s.placeCommand w).stream = s.stream := rfl
@[simp] theorem State.placeCommand_search (s : State) (w : CmdWord) : (s.placeCommand w).search = s.search := rfl
@[simp] theorem State.placeCommand_cmdq (s : State) (w : CmdWord) : (s.placeCommand w).cmdq = w :: s.cmdq := rfl
@[simp] theorem State.placeCommand_rspq (s : State) (w : CmdWord) : (s.placeCommand w).rspq = if s.rspRoom then s.rspq else [] := rfl
@[simp] theorem State.placeCommand_resq (s : State) (w : CmdWord) : (s.placeCommand w).resq = s.resq := rfl
@[simp] theorem State.placeCommand_cancel (s : State) (w : CmdWord) : (s.placeCommand w).cancel = s.cancel := rfl
@[simp] theorem State.placeCommand_script (s : State) (w : CmdWord) : (s.placeCommand w).script = Move.cmd :: s.script := rfl
@[simp] theorem State.placeCommand_hostGoesOn (s : State) (w : CmdWord) : (s.placeCommand w).hostGoesOn = s.hostGoesOn := rfl
@[simp] theorem State.placeCommand_turn (s : State) (w : CmdWord) : (s.placeCommand w).turn = s.turn := rfl

@[simp] theorem State.reset_stream : State.reset.stream = none := rfl
@[simp] theorem State.reset_search : State.reset.search = none := rfl
@[simp] theorem State.reset_cmdq : State.reset.cmdq = [] := rfl
@[simp] theorem State.reset_rspq : State.reset.rspq = [] := rfl
@[simp] theorem State.reset_resq : State.reset.resq = [] := rfl
@[simp] theorem State.reset_cancel : State.reset.cancel = false := rfl
@[simp] theorem State.reset_script : State.reset.script = [] := rfl
@[simp] theorem State.reset_hostGoesOn : State.reset.hostGoesOn = false := rfl
@[simp] theorem State.reset_turn : State.reset.turn = 0 := rfl

/-- `S_OPEN` is 1 exactly when a stream context is present. -/
theorem State.sOpen_eq_true_iff (s : State) : s.sOpen = true ↔ ∃ c, s.stream = some c := by
  simp [State.sOpen, Option.isSome_iff_exists]

theorem State.sOpen_eq_false_iff (s : State) : s.sOpen = false ↔ s.stream = none := by
  simp [State.sOpen]

/-- `Q_BUSY` is 1 exactly when a search context is present. -/
theorem State.qBusy_eq_true_iff (s : State) : s.qBusy = true ↔ ∃ q, s.search = some q := by
  simp [State.qBusy, Option.isSome_iff_exists]

theorem State.qBusy_eq_false_iff (s : State) : s.qBusy = false ↔ s.search = none := by
  simp [State.qBusy]

theorem State.rspRoom_iff (s : State) : s.rspRoom = true ↔ s.rspq.length < Config.rspDepth := by
  simp [State.rspRoom]

theorem State.resRoom_iff (s : State) : s.resRoom = true ↔ s.resq.length < Config.resDepth := by
  simp [State.resRoom]

/-- An empty `RSPQ` has room, since its depth is at least 1 (R8). -/
theorem State.rspRoom_of_empty (s : State) (h : s.rspq = []) : s.rspRoom = true := by
  simp [State.rspRoom, h, Config.rspDepth]

/-- An empty `RESQ` has room, since its depth is at least 1 (R8). -/
theorem State.resRoom_of_empty (s : State) (h : s.resq = []) : s.resRoom = true := by
  simp [State.resRoom, h, Config.resDepth]

@[simp] theorem State.openStream_sOpen (s : State) (d : Dir) (kp : KeyPair) : (s.openStream d kp).sOpen = true := rfl
@[simp] theorem State.closeStream_sOpen (s : State) : s.closeStream.sOpen = false := rfl
@[simp] theorem State.startSearch_qBusy (s : State) (p c : Block) : (s.startSearch p c).qBusy = true := rfl

end Sys2Proof.Machine
end

