-- ==== Sys2Proof/Laws/Commands.lean ====
section
/-! SUPPORT. What executing a command word can do, said once. -/

namespace Sys2Proof.Machine

theorem execSopen_closed (d : Dir) (key : Key) (s : State) (h : s.stream = none) :
    execSopen d key s = .next ((s.openStream d (keySchedule key)).respond .ok 0 0) := by
  simp [execSopen, State.sOpen, h]

theorem execSopen_open (d : Dir) (key : Key) (s : State) (c : StreamCtx) (h : s.stream = some c) :
    execSopen d key s = .next (s.respondError .errBusy) := by
  simp [execSopen, State.sOpen, h]

theorem execSclose_open (s : State) (c : StreamCtx) (h : s.stream = some c) :
    execSclose s = .next (s.closeStream.respond .ok 0 0) := by
  simp [execSclose, State.sOpen, h]

theorem execSclose_closed (s : State) (h : s.stream = none) :
    execSclose s = .next (s.respondError .errNoStream) := by
  simp [execSclose, State.sOpen, h]

theorem execSearch_idle (p c : Block) (s : State) (h : s.search = none) :
    execSearch p c s = .next ((s.startSearch p c).respond .ok 0 0) := by
  simp [execSearch, State.qBusy, h]

theorem execSearch_busy (p c : Block) (s : State) (q : SearchCtx) (h : s.search = some q) :
    execSearch p c s = .next (s.respondError .errBusy) := by
  simp [execSearch, State.qBusy, h]

/-- Executing a word answers an error, or `OK` with no register written, or opens or closes the stream, or starts a search. -/
theorem execWord_cases {w : CmdWord} {s t : State} (h : execWord w s = .next t) :
    (∃ st, st ≠ .ok ∧ t = s.respondError st) ∨
    (∃ hi lo, t = s.respond .ok hi lo) ∨
    (∃ d key, decode w = .ok (.sopen d key) ∧ s.stream = none ∧
      t = (s.openStream d (keySchedule key)).respond .ok 0 0) ∨
    (∃ c, decode w = .ok .sclose ∧ s.stream = some c ∧ t = s.closeStream.respond .ok 0 0) ∨
    (∃ p c, decode w = .ok (.search p c) ∧ s.search = none ∧ t = (s.startSearch p c).respond .ok 0 0) := by
  unfold execWord at h
  split at h
  next i hi =>
    cases i with
    | enc b k => exact .inr (.inl ⟨0, encrypt b k, by simpa [exec, execEnc] using h.symm⟩)
    | dec b k => exact .inr (.inl ⟨0, decrypt b k, by simpa [exec, execDec] using h.symm⟩)
    | keyinfo k => exact .inr (.inl ⟨_, _, by simpa [exec, execKeyinfo] using h.symm⟩)
    | sopen d k =>
      cases hs : s.stream with
      | none =>
        rw [exec, execSopen_closed d k s hs] at h
        exact .inr (.inr (.inl ⟨d, k, hi, rfl, by simpa using h.symm⟩))
      | some c =>
        rw [exec, execSopen_open d k s c hs] at h
        exact .inl ⟨.errBusy, by decide, by simpa using h.symm⟩
    | sbyte b =>
      simp only [exec, execSbyte] at h
      split at h
      · exact .inl ⟨.errNoStream, by decide, by simpa using h.symm⟩
      · exact .inr (.inl ⟨_, _, by simpa using h.symm⟩)
    | sclose =>
      cases hs : s.stream with
      | none =>
        rw [exec, execSclose_closed s hs] at h
        exact .inl ⟨.errNoStream, by decide, by simpa using h.symm⟩
      | some c =>
        rw [exec, execSclose_open s c hs] at h
        exact .inr (.inr (.inr (.inl ⟨c, hi, rfl, by simpa using h.symm⟩)))
    | search p c =>
      cases hs : s.search with
      | none =>
        rw [exec, execSearch_idle p c s hs] at h
        exact .inr (.inr (.inr (.inr ⟨p, c, hi, rfl, by simpa using h.symm⟩)))
      | some q =>
        rw [exec, execSearch_busy p c s q hs] at h
        exact .inl ⟨.errBusy, by decide, by simpa using h.symm⟩
  next => exact .inl ⟨.errIllegal, by decide, by simpa using h.symm⟩

/-- Whatever a step answers, it is a next state: there is no fault, and no command is refused. -/
theorem execWord_total (w : CmdWord) (s : State) : ∃ t, execWord w s = .next t := by
  unfold execWord
  split
  next i _ =>
    cases i with
    | enc b k => exact ⟨_, rfl⟩
    | dec b k => exact ⟨_, rfl⟩
    | keyinfo k => exact ⟨_, rfl⟩
    | sopen d k => simp only [exec, execSopen]; split <;> exact ⟨_, rfl⟩
    | sbyte b => simp only [exec, execSbyte]; split <;> exact ⟨_, rfl⟩
    | sclose => simp only [exec, execSclose]; split <;> exact ⟨_, rfl⟩
    | search p c => simp only [exec, execSearch]; split <;> exact ⟨_, rfl⟩
  next => exact ⟨_, rfl⟩

end Sys2Proof.Machine
end

