-- ==== Sys2Proof/Laws/PerInstr.lean ====
section
/-! SUPPORT. Per-instruction statements: every command's word stands in its own row of the opcode map. -/

namespace Sys2Proof.Laws.EncodesRow

/-- The word of a command matches the command's row of R62: the must-be-zero fields are 0 and the operation code is the row's. -/
def Statement (i : Instr) : Prop := encode i &&& (rowOf i).mask = (rowOf i).matchBits

theorem enc (blk : Block) (key : Key) : Statement (.enc blk key) := by
  apply BitVec.eq_of_getLsbD_eq
  intro i hi
  interval_cases i <;> simp [encode, opcode, rowOf, rowEnc, Machine.commandWord, Machine.inField]

theorem dec (blk : Block) (key : Key) : Statement (.dec blk key) := by
  apply BitVec.eq_of_getLsbD_eq
  intro i hi
  interval_cases i <;> simp [encode, opcode, rowOf, rowDec, Machine.commandWord, Machine.inField]

theorem keyinfo (key : Key) : Statement (.keyinfo key) := by
  apply BitVec.eq_of_getLsbD_eq
  intro i hi
  interval_cases i <;> simp [encode, opcode, rowOf, rowKeyinfo, Machine.commandWord, Machine.inField]

theorem sopen (dir : Dir) (key : Key) : Statement (.sopen dir key) := by
  apply BitVec.eq_of_getLsbD_eq
  intro i hi
  interval_cases i <;> cases dir <;>
    simp [encode, opcode, rowOf, rowSopen, Machine.commandWord, Machine.inField, Machine.bitOfDir]

theorem sbyte (blk : Block) : Statement (.sbyte blk) := by
  apply BitVec.eq_of_getLsbD_eq
  intro i hi
  interval_cases i <;> simp [encode, opcode, rowOf, rowSbyte, Machine.commandWord, Machine.inField]

theorem sclose : Statement .sclose := by
  show encode .sclose &&& rowSclose.mask = rowSclose.matchBits
  decide

theorem search (plain cipher : Block) : Statement (.search plain cipher) := by
  apply BitVec.eq_of_getLsbD_eq
  intro i hi
  interval_cases i <;> simp [encode, opcode, rowOf, rowSearch, Machine.commandWord, Machine.inField]

end Sys2Proof.Laws.EncodesRow
end

