-- ==== Sys2Proof/Laws/Words.lean ====
section
/-! SUPPORT. The fields of the bus words: what is put into a field is what is read from it. -/

namespace Sys2Proof.Machine

section
variable (op : BitVec 4) (d z : BitVec 1) (key : Key) (aux data : Block)

@[simp] theorem opField_commandWord : opField (commandWord op d z key aux data) = op := by
  apply BitVec.eq_of_getLsbD_eq
  intro i hi
  interval_cases i <;> simp [opField, commandWord, inField]

@[simp] theorem dField_commandWord : dField (commandWord op d z key aux data) = d := by
  apply BitVec.eq_of_getLsbD_eq
  intro i hi
  interval_cases i
  simp [dField, commandWord, inField]

@[simp] theorem zField_commandWord : zField (commandWord op d z key aux data) = z := by
  apply BitVec.eq_of_getLsbD_eq
  intro i hi
  interval_cases i
  simp [zField, commandWord, inField]

@[simp] theorem keyField_commandWord : keyField (commandWord op d z key aux data) = key := by
  apply BitVec.eq_of_getLsbD_eq
  intro i hi
  interval_cases i <;> simp [keyField, commandWord, inField]

@[simp] theorem auxField_commandWord : auxField (commandWord op d z key aux data) = aux := by
  apply BitVec.eq_of_getLsbD_eq
  intro i hi
  interval_cases i <;> simp [auxField, commandWord, inField]

@[simp] theorem dataField_commandWord : dataField (commandWord op d z key aux data) = data := by
  apply BitVec.eq_of_getLsbD_eq
  intro i hi
  interval_cases i <;> simp [dataField, commandWord, inField]

end

/-- A word is its six fields in place. -/
theorem commandWord_fields (w : CmdWord) :
    commandWord (opField w) (dField w) (zField w) (keyField w) (auxField w) (dataField w) = w := by
  apply BitVec.eq_of_getLsbD_eq
  intro i hi
  interval_cases i <;> simp [opField, dField, zField, keyField, auxField, dataField, commandWord, inField]

section
variable (st : Status) (hi lo : BitVec 8)

@[simp] theorem rspStatus_rspWord : rspStatus (rspWord st hi lo) = statusCode st := by
  apply BitVec.eq_of_getLsbD_eq
  intro i h
  interval_cases i <;> cases st <;> simp [rspStatus, rspWord, inField, statusCode]

@[simp] theorem rspZero_rspWord : rspZero (rspWord st hi lo) = 0#12 := by
  apply BitVec.eq_of_getLsbD_eq
  intro i h
  interval_cases i <;> cases st <;> simp [rspZero, rspWord, inField, statusCode]

@[simp] theorem rspHi_rspWord : rspHi (rspWord st hi lo) = hi := by
  apply BitVec.eq_of_getLsbD_eq
  intro i h
  interval_cases i <;> simp [rspHi, rspWord, inField]

@[simp] theorem rspLo_rspWord : rspLo (rspWord st hi lo) = lo := by
  apply BitVec.eq_of_getLsbD_eq
  intro i h
  interval_cases i <;> simp [rspLo, rspWord, inField]

end

@[simp] theorem resEnd_hitWord (k : Nat) : resEnd (hitWord k) = 0#1 := by
  apply BitVec.eq_of_getLsbD_eq
  intro i h
  interval_cases i; simp [resEnd, hitWord, inField]

@[simp] theorem resInc_hitWord (k : Nat) : resInc (hitWord k) = 0#1 := by
  apply BitVec.eq_of_getLsbD_eq
  intro i h
  interval_cases i; simp [resInc, hitWord, inField]

@[simp] theorem resZero_hitWord (k : Nat) : resZero (hitWord k) = 0#3 := by
  apply BitVec.eq_of_getLsbD_eq
  intro i h
  interval_cases i <;> simp [resZero, hitWord, inField]

@[simp] theorem resVal_hitWord (k : Nat) : resVal (hitWord k) = vecOf 11 k := by
  apply BitVec.eq_of_getLsbD_eq
  intro i h
  interval_cases i <;> simp [resVal, hitWord, inField]

@[simp] theorem resEnd_endWord (inc : BitVec 1) (n : Nat) : resEnd (endWord inc n) = 1#1 := by
  apply BitVec.eq_of_getLsbD_eq
  intro i h
  interval_cases i; simp [resEnd, endWord, inField]

@[simp] theorem resInc_endWord (inc : BitVec 1) (n : Nat) : resInc (endWord inc n) = inc := by
  apply BitVec.eq_of_getLsbD_eq
  intro i h
  interval_cases i; simp [resInc, endWord, inField]

@[simp] theorem resZero_endWord (inc : BitVec 1) (n : Nat) : resZero (endWord inc n) = 0#3 := by
  apply BitVec.eq_of_getLsbD_eq
  intro i h
  interval_cases i <;> simp [resZero, endWord, inField]

@[simp] theorem resVal_endWord (inc : BitVec 1) (n : Nat) : resVal (endWord inc n) = vecOf 11 n := by
  apply BitVec.eq_of_getLsbD_eq
  intro i h
  interval_cases i <;> simp [resVal, endWord, inField]

end Sys2Proof.Machine
end

