-- ==== Sys2Proof/Laws/Decode.lean ====
section
/-! SUPPORT. When a word hits a row of the opcode map, by its fields, and what the decoder then reads. -/

namespace Sys2Proof

open Sys2Proof.Machine

theorem rowEnc_hits (w : CmdWord) : rowEnc.hits w = true ↔
    opField w = 1#4 ∧ dField w = 0#1 ∧ zField w = 0#1 ∧ auxField w = 0#8 := by
  have h := commandWord_fields w
  generalize opField w = op at *
  generalize dField w = d at *
  generalize zField w = z at *
  generalize auxField w = aux at *
  generalize keyField w = key at *
  generalize dataField w = dat at *
  subst h
  unfold OpRow.hits
  rw [decide_eq_true_iff]
  constructor
  · intro h
    have e := fun i (_ : i < 32) => congrArg (fun v : BitVec 32 => v.getLsbD i) h
    refine ⟨?_, ?_, ?_, ?_⟩ <;> apply BitVec.eq_of_getLsbD_eq <;> intro i hi
    · have := e (28 + i) (by omega)
      interval_cases i <;> simpa [rowEnc, commandWord, inField] using this
    · have := e (27 + i) (by omega)
      interval_cases i; simpa [rowEnc, commandWord, inField] using this
    · have := e (26 + i) (by omega)
      interval_cases i; simpa [rowEnc, commandWord, inField] using this
    · have := e (8 + i) (by omega)
      interval_cases i <;> simpa [rowEnc, commandWord, inField] using this
  · rintro ⟨rfl, rfl, rfl, rfl⟩
    exact Laws.EncodesRow.enc dat key

theorem rowDec_hits (w : CmdWord) : rowDec.hits w = true ↔
    opField w = 2#4 ∧ dField w = 0#1 ∧ zField w = 0#1 ∧ auxField w = 0#8 := by
  have h := commandWord_fields w
  generalize opField w = op at *
  generalize dField w = d at *
  generalize zField w = z at *
  generalize auxField w = aux at *
  generalize keyField w = key at *
  generalize dataField w = dat at *
  subst h
  unfold OpRow.hits
  rw [decide_eq_true_iff]
  constructor
  · intro h
    have e := fun i (_ : i < 32) => congrArg (fun v : BitVec 32 => v.getLsbD i) h
    refine ⟨?_, ?_, ?_, ?_⟩ <;> apply BitVec.eq_of_getLsbD_eq <;> intro i hi
    · have := e (28 + i) (by omega)
      interval_cases i <;> simpa [rowDec, commandWord, inField] using this
    · have := e (27 + i) (by omega)
      interval_cases i; simpa [rowDec, commandWord, inField] using this
    · have := e (26 + i) (by omega)
      interval_cases i; simpa [rowDec, commandWord, inField] using this
    · have := e (8 + i) (by omega)
      interval_cases i <;> simpa [rowDec, commandWord, inField] using this
  · rintro ⟨rfl, rfl, rfl, rfl⟩
    exact Laws.EncodesRow.dec dat key

theorem rowKeyinfo_hits (w : CmdWord) : rowKeyinfo.hits w = true ↔
    opField w = 3#4 ∧ dField w = 0#1 ∧ zField w = 0#1 ∧ auxField w = 0#8 ∧ dataField w = 0#8 := by
  have h := commandWord_fields w
  generalize opField w = op at *
  generalize dField w = d at *
  generalize zField w = z at *
  generalize auxField w = aux at *
  generalize keyField w = key at *
  generalize dataField w = dat at *
  subst h
  unfold OpRow.hits
  rw [decide_eq_true_iff]
  constructor
  · intro h
    have e := fun i (_ : i < 32) => congrArg (fun v : BitVec 32 => v.getLsbD i) h
    refine ⟨?_, ?_, ?_, ?_, ?_⟩ <;> apply BitVec.eq_of_getLsbD_eq <;> intro i hi
    · have := e (28 + i) (by omega)
      interval_cases i <;> simpa [rowKeyinfo, commandWord, inField] using this
    · have := e (27 + i) (by omega)
      interval_cases i; simpa [rowKeyinfo, commandWord, inField] using this
    · have := e (26 + i) (by omega)
      interval_cases i; simpa [rowKeyinfo, commandWord, inField] using this
    · have := e (8 + i) (by omega)
      interval_cases i <;> simpa [rowKeyinfo, commandWord, inField] using this
    · have := e (0 + i) (by omega)
      interval_cases i <;> simpa [rowKeyinfo, commandWord, inField] using this
  · rintro ⟨rfl, rfl, rfl, rfl, rfl⟩
    exact Laws.EncodesRow.keyinfo key

theorem rowSopen_hits (w : CmdWord) : rowSopen.hits w = true ↔
    opField w = 4#4 ∧ zField w = 0#1 ∧ auxField w = 0#8 ∧ dataField w = 0#8 := by
  have h := commandWord_fields w
  generalize opField w = op at *
  generalize dField w = d at *
  generalize zField w = z at *
  generalize auxField w = aux at *
  generalize keyField w = key at *
  generalize dataField w = dat at *
  subst h
  unfold OpRow.hits
  rw [decide_eq_true_iff]
  constructor
  · intro h
    have e := fun i (_ : i < 32) => congrArg (fun v : BitVec 32 => v.getLsbD i) h
    refine ⟨?_, ?_, ?_, ?_⟩ <;> apply BitVec.eq_of_getLsbD_eq <;> intro i hi
    · have := e (28 + i) (by omega)
      interval_cases i <;> simpa [rowSopen, commandWord, inField] using this
    · have := e (26 + i) (by omega)
      interval_cases i; simpa [rowSopen, commandWord, inField] using this
    · have := e (8 + i) (by omega)
      interval_cases i <;> simpa [rowSopen, commandWord, inField] using this
    · have := e (0 + i) (by omega)
      interval_cases i <;> simpa [rowSopen, commandWord, inField] using this
  · rintro ⟨rfl, rfl, rfl, rfl⟩
    rcases (show d = 0#1 ∨ d = 1#1 by revert d; decide) with rfl | rfl
    · exact Laws.EncodesRow.sopen .encrypt key
    · exact Laws.EncodesRow.sopen .decrypt key

theorem rowSbyte_hits (w : CmdWord) : rowSbyte.hits w = true ↔
    opField w = 5#4 ∧ dField w = 0#1 ∧ zField w = 0#1 ∧ keyField w = 0#10 ∧ auxField w = 0#8 := by
  have h := commandWord_fields w
  generalize opField w = op at *
  generalize dField w = d at *
  generalize zField w = z at *
  generalize auxField w = aux at *
  generalize keyField w = key at *
  generalize dataField w = dat at *
  subst h
  unfold OpRow.hits
  rw [decide_eq_true_iff]
  constructor
  · intro h
    have e := fun i (_ : i < 32) => congrArg (fun v : BitVec 32 => v.getLsbD i) h
    refine ⟨?_, ?_, ?_, ?_, ?_⟩ <;> apply BitVec.eq_of_getLsbD_eq <;> intro i hi
    · have := e (28 + i) (by omega)
      interval_cases i <;> simpa [rowSbyte, commandWord, inField] using this
    · have := e (27 + i) (by omega)
      interval_cases i; simpa [rowSbyte, commandWord, inField] using this
    · have := e (26 + i) (by omega)
      interval_cases i; simpa [rowSbyte, commandWord, inField] using this
    · have := e (16 + i) (by omega)
      interval_cases i <;> simpa [rowSbyte, commandWord, inField] using this
    · have := e (8 + i) (by omega)
      interval_cases i <;> simpa [rowSbyte, commandWord, inField] using this
  · rintro ⟨rfl, rfl, rfl, rfl, rfl⟩
    exact Laws.EncodesRow.sbyte dat

theorem rowSclose_hits (w : CmdWord) : rowSclose.hits w = true ↔
    opField w = 6#4 ∧ dField w = 0#1 ∧ zField w = 0#1 ∧ keyField w = 0#10 ∧ auxField w = 0#8 ∧ dataField w = 0#8 := by
  have h := commandWord_fields w
  generalize opField w = op at *
  generalize dField w = d at *
  generalize zField w = z at *
  generalize auxField w = aux at *
  generalize keyField w = key at *
  generalize dataField w = dat at *
  subst h
  unfold OpRow.hits
  rw [decide_eq_true_iff]
  constructor
  · intro h
    have e := fun i (_ : i < 32) => congrArg (fun v : BitVec 32 => v.getLsbD i) h
    refine ⟨?_, ?_, ?_, ?_, ?_, ?_⟩ <;> apply BitVec.eq_of_getLsbD_eq <;> intro i hi
    · have := e (28 + i) (by omega)
      interval_cases i <;> simpa [rowSclose, commandWord, inField] using this
    · have := e (27 + i) (by omega)
      interval_cases i; simpa [rowSclose, commandWord, inField] using this
    · have := e (26 + i) (by omega)
      interval_cases i; simpa [rowSclose, commandWord, inField] using this
    · have := e (16 + i) (by omega)
      interval_cases i <;> simpa [rowSclose, commandWord, inField] using this
    · have := e (8 + i) (by omega)
      interval_cases i <;> simpa [rowSclose, commandWord, inField] using this
    · have := e (0 + i) (by omega)
      interval_cases i <;> simpa [rowSclose, commandWord, inField] using this
  · rintro ⟨rfl, rfl, rfl, rfl, rfl, rfl⟩
    exact Laws.EncodesRow.sclose

theorem rowSearch_hits (w : CmdWord) : rowSearch.hits w = true ↔
    opField w = 7#4 ∧ dField w = 0#1 ∧ zField w = 0#1 ∧ keyField w = 0#10 := by
  have h := commandWord_fields w
  generalize opField w = op at *
  generalize dField w = d at *
  generalize zField w = z at *
  generalize auxField w = aux at *
  generalize keyField w = key at *
  generalize dataField w = dat at *
  subst h
  unfold OpRow.hits
  rw [decide_eq_true_iff]
  constructor
  · intro h
    have e := fun i (_ : i < 32) => congrArg (fun v : BitVec 32 => v.getLsbD i) h
    refine ⟨?_, ?_, ?_, ?_⟩ <;> apply BitVec.eq_of_getLsbD_eq <;> intro i hi
    · have := e (28 + i) (by omega)
      interval_cases i <;> simpa [rowSearch, commandWord, inField] using this
    · have := e (27 + i) (by omega)
      interval_cases i; simpa [rowSearch, commandWord, inField] using this
    · have := e (26 + i) (by omega)
      interval_cases i; simpa [rowSearch, commandWord, inField] using this
    · have := e (16 + i) (by omega)
      interval_cases i <;> simpa [rowSearch, commandWord, inField] using this
  · rintro ⟨rfl, rfl, rfl, rfl⟩
    exact Laws.EncodesRow.search dat aux

/-- A word that hits a row decodes to what the row reads: `OP` is in every mask, so no other row is hit before it (R62). -/
theorem decode_of_hits {w : CmdWord} {r : OpRow} (hr : r ∈ opRows) (h : r.hits w = true) : decode w = .ok (r.read w) := by
  have hop : ∀ r ∈ opRows, r.hits w = true → ∃ op ∈ [(1#4, rowEnc), (2#4, rowDec), (3#4, rowKeyinfo), (4#4, rowSopen),
      (5#4, rowSbyte), (6#4, rowSclose), (7#4, rowSearch)], op.2 = r ∧ opField w = op.1 := by
    intro r hr h
    simp only [opRows, List.mem_cons, List.not_mem_nil, or_false] at hr
    rcases hr with rfl | rfl | rfl | rfl | rfl | rfl | rfl
    · exact ⟨(1#4, rowEnc), by simp, rfl, ((rowEnc_hits w).1 h).1⟩
    · exact ⟨(2#4, rowDec), by simp, rfl, ((rowDec_hits w).1 h).1⟩
    · exact ⟨(3#4, rowKeyinfo), by simp, rfl, ((rowKeyinfo_hits w).1 h).1⟩
    · exact ⟨(4#4, rowSopen), by simp, rfl, ((rowSopen_hits w).1 h).1⟩
    · exact ⟨(5#4, rowSbyte), by simp, rfl, ((rowSbyte_hits w).1 h).1⟩
    · exact ⟨(6#4, rowSclose), by simp, rfl, ((rowSclose_hits w).1 h).1⟩
    · exact ⟨(7#4, rowSearch), by simp, rfl, ((rowSearch_hits w).1 h).1⟩
  unfold decode
  rcases hf : opRows.find? (fun r => r.hits w) with _ | r'
  · exact absurd h (by simp [List.find?_eq_none.1 hf r hr])
  · obtain ⟨a, ha, rfl, e⟩ := hop r hr h
    obtain ⟨b, hb, hb', e'⟩ := hop r' (List.mem_of_find?_eq_some hf)
      (List.find?_some (p := fun r : OpRow => r.hits w) hf)
    have hab : a.1 = b.1 := e.symm.trans e'
    have hrr : a.2 = r' := by
      rw [← hb']
      simp only [List.mem_cons, List.not_mem_nil, or_false] at ha hb
      rcases ha with rfl | rfl | rfl | rfl | rfl | rfl | rfl <;>
        rcases hb with rfl | rfl | rfl | rfl | rfl | rfl | rfl <;> first | rfl | exact absurd hab (by decide)
    rw [hf, hrr]

/-- A word that decodes hits the row it is read from. -/
theorem hits_of_decode {w : CmdWord} {i : Instr} (h : decode w = .ok i) :
    ∃ r ∈ opRows, r.hits w = true ∧ r.read w = i := by
  unfold decode at h
  split at h
  next r hf => exact ⟨r, List.mem_of_find?_eq_some hf, List.find?_some (p := fun r : OpRow => r.hits w) hf, by simpa using h⟩
  next => simp at h

end Sys2Proof
end

