-- ==== Sys2Proof/Laws/Step.lean ====
section
/-! SUPPORT. What a search step and a step of the machine can do, said once. -/

namespace Sys2Proof.Machine

/-- Every candidate tested: the complete END (R183). -/
theorem searchAdvance_done (q : SearchCtx) (b : Bool) (h : q.cand.val = 1024) :
    searchAdvance q b = (some (endWord 0#1 1024), none) := by
  simp [searchAdvance, h, incFlag]

/-- Cancelled between candidate checks: the incomplete END (R183). -/
theorem searchAdvance_cancelled (q : SearchCtx) (h : q.cand.val < 1024) :
    searchAdvance q true = (some (endWord 1#1 q.cand.val), none) := by
  simp [searchAdvance, incFlag]; omega

/-- A candidate tested: a HIT word if it matches, and the next candidate (R183). -/
theorem searchAdvance_tested (q : SearchCtx) (h : q.cand.val + 1 < 1025) :
    searchAdvance q false =
      (if encrypt q.p (vecOf 10 q.cand.val) = q.c then some (hitWord q.cand.val) else none,
        some { p := q.p, c := q.c, cand := ⟨q.cand.val + 1, h⟩ }) := by
  have : q.cand.val ≠ 1024 := by omega
  simp [searchAdvance, this]

/-- The search step of a state in which a search runs (R48, R183). -/
theorem searchStep?_some {s : State} {q : SearchCtx} (h : s.search = some q) :
    searchStep? s =
      if (searchAdvance q s.cancel).1.isSome && !s.resRoom then none else some (searchAdvance q s.cancel) := by
  unfold searchStep?; rw [h]

/-- A search step is held, or it appends the complete END, or the cancelled END, or it tests one candidate (R183). -/
theorem srchStep_cases (s : State) :
    srchStep s = s ∨
    ∃ q, s.search = some q ∧
      ((q.cand.val = 1024 ∧ s.resRoom = true ∧
          srchStep s = (s.setSearch none).pushResult (endWord 0#1 1024)) ∨
       (q.cand.val < 1024 ∧ s.cancel = true ∧ s.resRoom = true ∧
          srchStep s = (s.setSearch none).pushResult (endWord 1#1 q.cand.val)) ∨
       ∃ q' : SearchCtx, q'.p = q.p ∧ q'.c = q.c ∧ q'.cand.val = q.cand.val + 1 ∧ s.cancel = false ∧
         ((encrypt q.p (vecOf 10 q.cand.val) = q.c ∧ s.resRoom = true ∧
             srchStep s = (s.setSearch (some q')).pushResult (hitWord q.cand.val)) ∨
          (encrypt q.p (vecOf 10 q.cand.val) ≠ q.c ∧ srchStep s = s.setSearch (some q')))) := by
  unfold srchStep searchStep?
  cases hs : s.search with
  | none => exact .inl rfl
  | some q =>
    by_cases h : q.cand.val = 1024
    · cases hr : s.resRoom with
      | false => left; simp [searchAdvance, h]
      | true => exact .inr ⟨q, rfl, .inl ⟨h, rfl, by simp [searchAdvance, h, incFlag]⟩⟩
    · have hlt : q.cand.val < 1024 := by have := q.cand.isLt; omega
      cases hc : s.cancel with
      | true =>
        cases hr : s.resRoom with
        | false => left; simp [searchAdvance, h]
        | true => exact .inr ⟨q, rfl, .inr (.inl ⟨hlt, rfl, rfl, by simp [searchAdvance, h, incFlag]⟩)⟩
      | false =>
        by_cases hm : encrypt q.p (vecOf 10 q.cand.val) = q.c
        · cases hr : s.resRoom with
          | false => left; simp [searchAdvance, h, hm]
          | true =>
            exact .inr ⟨q, rfl, .inr (.inr ⟨{ q with cand := ⟨q.cand.val + 1, by omega⟩ }, rfl, rfl, rfl, rfl,
              .inl ⟨hm, rfl, by simp [searchAdvance, h, hm]⟩⟩)⟩
        · exact .inr ⟨q, rfl, .inr (.inr ⟨{ q with cand := ⟨q.cand.val + 1, by omega⟩ }, rfl, rfl, rfl, rfl,
            .inr ⟨hm, by simp [searchAdvance, h, hm]⟩⟩)⟩

/-- CMD's step is held or executes the oldest word (R47, R48). -/
theorem cmdStep_cases {s t : State} (h : cmdStep s = .next t) :
    t = s ∨ ∃ w rest, s.cmdq = w :: rest ∧ s.rspRoom = true ∧ execWord w (s.setCmdq rest) = .next t := by
  unfold cmdStep at h
  split at h
  · exact .inl (by simpa using h.symm)
  next w rest hq =>
    split at h
    next hr => exact .inr ⟨w, rest, hq, hr, h⟩
    next => exact .inl (by simpa using h.symm)

/-- CMD's step always answers a next state. -/
theorem cmdStep_total (s : State) : ∃ t, cmdStep s = .next t := by
  unfold cmdStep
  split
  · exact ⟨_, rfl⟩
  next w rest _ =>
    split
    · exact execWord_total w _
    · exact ⟨_, rfl⟩

/-- A move always answers a next state. -/
theorem makeMove_total (m : Move) (s : State) : ∃ t, makeMove m s = .next t := by
  cases m with
  | cmd => exact cmdStep_total s
  | srch => exact ⟨_, rfl⟩
  | put w => exact ⟨_, rfl⟩
  | takeResponse => exact ⟨_, rfl⟩
  | takeResult => exact ⟨_, rfl⟩
  | setCancel b => exact ⟨_, rfl⟩
  | rst => exact ⟨_, rfl⟩

/-- No move touches the model's own fields: the script, whether the outside goes on, the draw counter. -/
theorem makeMove_own_fields {m : Move} {s t : State} (h : makeMove m s = .next t) :
    t.script = s.script ∧ t.hostGoesOn = s.hostGoesOn ∧ t.turn = s.turn := by
  cases m <;> simp only [makeMove, Host.Outcome.next.injEq] at h
  case cmd =>
    rcases cmdStep_cases h with rfl | ⟨w, rest, -, -, hw⟩
    · simp
    · rcases execWord_cases hw with ⟨_, -, rfl⟩ | ⟨_, _, rfl⟩ | ⟨_, _, -, -, rfl⟩ | ⟨_, -, -, rfl⟩ | ⟨_, _, -, -, rfl⟩ <;>
        exact ⟨rfl, rfl, rfl⟩
  case srch =>
    subst h
    unfold srchStep
    split <;> simp
  all_goals (subst h; exact ⟨rfl, rfl, rfl⟩)

/-- Choosing the next move takes it from the script, or draws it for an outside that goes on, or draws an agent, or finds one
agent ready, or none. -/
theorem nextMove_cases (s : State) :
    (∃ m ms, s.script = m :: ms ∧ nextMove s = (some m, s.setScript ms)) ∨
    (s.script = [] ∧ s.hostGoesOn = true ∧ nextMove s = (some (Config.freeMove s.turn), s.nextTurn)) ∨
    (s.script = [] ∧ s.hostGoesOn = false ∧
      (nextMove s = (some .cmd, s.nextTurn) ∨ nextMove s = (some .srch, s.nextTurn) ∨
       nextMove s = (some .cmd, s) ∨ nextMove s = (some .srch, s) ∨ nextMove s = (none, s))) := by
  unfold nextMove
  split
  next m ms hs => exact .inl ⟨m, ms, hs, rfl⟩
  next hs =>
    cases hg : s.hostGoesOn with
    | true => exact .inr (.inl ⟨hs, rfl, by simp⟩)
    | false =>
      refine .inr (.inr ⟨hs, rfl, ?_⟩)
      simp only [Bool.false_eq_true, if_false]
      split
      · cases Config.freeAgent s.turn <;> simp [moveOf]
      · simp
      · simp
      · simp

/-- Choosing the next move touches nothing but the script and the draw counter; with no move to make, nothing. -/
theorem nextMove_state (s : State) :
    nextMove s = (none, s) ∨
    ∃ m ms k, nextMove s = (some m, { s with script := ms, turn := k }) := by
  rcases nextMove_cases s with ⟨m, ms, -, h⟩ | ⟨-, -, h⟩ | ⟨-, -, h | h | h | h | h⟩
  · exact .inr ⟨m, ms, s.turn, h⟩
  · exact .inr ⟨_, s.script, s.turn + 1, h⟩
  · exact .inr ⟨_, s.script, s.turn + 1, h⟩
  · exact .inr ⟨_, s.script, s.turn + 1, h⟩
  · exact .inr ⟨_, s.script, s.turn, h⟩
  · exact .inr ⟨_, s.script, s.turn, h⟩
  · exact .inl h

/-- A step changes nothing, or makes one move in a state that differs from the old one in the script and the draw counter only. -/
theorem step_cases {s t : State} (h : step s = .next t) :
    (nextMove s = (none, s) ∧ t = s) ∨
    ∃ m ms k, nextMove s = (some m, { s with script := ms, turn := k }) ∧
      makeMove m { s with script := ms, turn := k } = .next t := by
  unfold step runStep at h
  rcases nextMove_state s with hn | ⟨m, ms, k, hn⟩ <;> rw [hn] at h
  · exact .inl ⟨hn, by simpa using h.symm⟩
  · exact .inr ⟨m, ms, k, hn, h⟩

/-- A step always answers a next state: the machine never stops (R200). -/
theorem step_total (s : State) : ∃ t, step s = .next t := by
  unfold step runStep
  split
  · exact makeMove_total _ _
  · exact ⟨_, rfl⟩

end Sys2Proof.Machine
end

