-- ==== Sys2Proof/Laws/Run.lean ====
section
/-! SUPPORT. Small lemmas about runs, about the words a search leaves in `RESQ`, and about one transaction of the HOST. -/

namespace Sys2Proof.Machine

/-- A run's first step. -/
theorem core_run_succ (n : Nat) (s t : State) (h : step s = .next t) : core.run (n + 1) s = core.run n t := by
  have h' : core.step s = .next t := h
  simp [Host.Core.run, h']

/-- The HIT words below `n + 1` are those below `n` and, if it matches, that of `n`. -/
theorem hitsBelow_succ (p c : Block) (n : Nat) :
    hitsBelow p c (n + 1) = hitsBelow p c n ++ if encrypt p (vecOf 10 n) = c then [hitWord n] else [] := by
  simp only [hitsBelow, keysBelow_succ, List.map_append]
  split <;> simp

@[simp] theorem openHits_hit (rs : List ResWord) (k : Nat) :
    openHits (rs ++ [hitWord k]) = openHits rs ++ [hitWord k] := by
  simp [openHits]

@[simp] theorem openHits_end (rs : List ResWord) (inc : BitVec 1) (n : Nat) :
    openHits (rs ++ [endWord inc n]) = [] := by
  simp [openHits]

/-- Taking the oldest result word leaves a tail of the open HITs. -/
theorem openHits_tail (rs : List ResWord) : openHits rs.tail <:+ openHits rs := by
  cases rs with
  | nil => simp
  | cons r rs =>
    simp only [List.tail_cons, openHits, List.reverse_cons]
    rw [List.takeWhile_append]
    split
    next h =>
      have : List.takeWhile (fun r => decide (resEnd r = 0#1)) rs.reverse = rs.reverse :=
        (List.takeWhile_prefix _).eq_of_length (by simpa using h)
      rw [this]
      simp
    next => simp

/-- A response word is well formed when an error has no payload (R65, R66). -/
theorem rspOk_rspWord (st : Status) (hi lo : BitVec 8) (h : st ≠ .ok → hi = 0 ∧ lo = 0) :
    RspOk (rspWord st hi lo) := by
  refine ⟨by simp, by cases st <;> simp [statusCode], ?_⟩
  cases st <;> simp_all [statusCode]

/-- The HIT word of a key is well formed (R68). -/
theorem resOk_hitWord (k : Nat) (h : k < 1024) : ResOk (hitWord k) := by
  refine ⟨by simp, ?_, ?_⟩ <;> simp [vecOf]
  omega

/-- An END word with `INC = 0` exactly at 1024 is well formed (R68). -/
theorem resOk_endWord (inc : BitVec 1) (n : Nat) (h : n ≤ 1024) (hi : inc = 0#1 ↔ n = 1024) :
    ResOk (endWord inc n) := by
  refine ⟨by simp, by simp, ?_⟩
  simp [vecOf]
  constructor
  · omega
  · rw [hi, ← BitVec.toNat_inj]
    simp
    omega

/-- One transaction on a core with no command waiting and no response untaken: the command's response, and the state it left
with that response taken (R47). -/
theorem transact_of_exec {w : CmdWord} {i : Instr} {s t : State} {r : RspWord} (hd : decode w = .ok i)
    (hc : s.cmdq = []) (hr : s.rspq = []) (h : exec i s = .next t) (ht : t.rspq = [r]) :
    transact w s = some (r, t.takeResponse) := by
  have hroom : (s.putCommand w).rspRoom = true := by
    simp [State.rspRoom, State.putCommand, hr, Config.rspDepth]
  have hput : (s.putCommand w).cmdq = [w] := by simp [State.putCommand, hc]
  have hset : (s.putCommand w).setCmdq [] = s := by cases s; simp_all [State.putCommand, State.setCmdq]
  unfold transact cmdStep
  simp only [hput, hroom, if_true, hset, execWord, hd, h, ht]

end Sys2Proof.Machine
end

