-- ==== Sys2Proof/Tests/Slice0.lean ====
section
/-! SUPPORT. The model's own tests: words written out bit by bit from R60 to R62, single steps against `95_test_vectors.md`, the
refusals of ill-formed words, strings and texts, and a witness for the hypotheses of every obligation that has some. -/

open Sys2Proof Sys2Proof.Machine

set_option Elab.async false

/-! ### Decoding, bit by bit: OP(4) D Z KEY(10) AUX(8) DATA(8) -/

/-- R60, R62: OP 0001, KEY 1010000010, AUX 0, DATA 10111101. -/
theorem test_decode_enc :
    decode 0b00010010100000100000000010111101 = .ok (.enc 0b10111101 0b1010000010) := by decide
/-- R60, R62: OP 0010, KEY 1010000010, AUX 0, DATA 10000111. -/
theorem test_decode_dec :
    decode 0b00100010100000100000000010000111 = .ok (.dec 0b10000111 0b1010000010) := by decide
/-- R60, R62: OP 0011, KEY 0000011111 (key 31). -/
theorem test_decode_keyinfo :
    decode 0b00110000000111110000000000000000 = .ok (.keyinfo 0b0000011111) := by decide
/-- R60, R62: OP 0100, D 0, KEY 1111100000. -/
theorem test_decode_sopen_encrypt :
    decode 0b01000011111000000000000000000000 = .ok (.sopen .encrypt 0b1111100000) := by decide
/-- R60, R62: OP 0100, D 1, KEY 1111100000. -/
theorem test_decode_sopen_decrypt :
    decode 0b01001011111000000000000000000000 = .ok (.sopen .decrypt 0b1111100000) := by decide
/-- R60, R62: OP 0101, DATA 01001000. -/
theorem test_decode_sbyte :
    decode 0b01010000000000000000000001001000 = .ok (.sbyte 0b01001000) := by decide
/-- R60, R62: OP 0110, all else 0. -/
theorem test_decode_sclose : decode 0b01100000000000000000000000000000 = .ok .sclose := by decide
/-- R60, R62: OP 0111, AUX 10000111 is the ciphertext, DATA 10111101 the plaintext. -/
theorem test_decode_search :
    decode 0b01110000000000001000011110111101 = .ok (.search 0b10111101 0b10000111) := by decide

/-! ### The smoke test of well-formedness: no `Instr` is ill formed (R43), so the checks are those of words, strings and texts -/

theorem test_every_instr_well_formed (i : Instr) : i.wellFormed = true := by cases i <;> rfl

/-- R64: an operation code that is none, 0x0 and 0x8 to 0xF. -/
theorem test_reject_unknown_op :
    decode 0x00000000 = .error .unknownOp ∧ decode 0x80000000 = .error .unknownOp ∧
    decode 0xF2820000 = .error .unknownOp ∧ legalWord 0x00000000 = false := by decide

/-- R64: a 1 in a must-be-zero field, one for each row, each at an end of the field. -/
theorem test_reject_must_be_zero :
    decode 0x128201BD = .error .mustBeZero ∧ decode 0x2A820087 = .error .mustBeZero ∧
    decode 0x32820001 = .error .mustBeZero ∧ decode 0x44000000 = .error .mustBeZero ∧
    decode 0x50010048 = .error .mustBeZero ∧ decode 0x60000001 = .error .mustBeZero ∧
    decode 0x720087BD = .error .mustBeZero ∧ legalWord 0x128201BD = false := by decide

/-- R72, R73: the ill-formed strings the rules name. -/
theorem test_reject_strings :
    isValidKey "".toList = false ∧ isValidKey "101000001".toList = false ∧ isValidKey "10100000101".toList = false ∧
    isValidKey "1010000012".toList = false ∧ isValidKey "101000001 ".toList = false ∧
    isValidKey "1010000010".toList = true ∧ isValidBlock "1011110".toList = false ∧
    isValidBlock "10111101".toList = true := by decide

/-- R74, R76: a line with a short key forms no word, and an unknown mnemonic is none. -/
theorem test_reject_lines :
    assembleLine "ENC 10111101, 101000001".toList = .error .shape ∧
    assembleLine "LOAD 10111101".toList = .error .unknownMnemonic ∧
    assembleLine "SCLOSE 1".toList = .error .operands ∧
    assembleLine "; only a comment".toList = .ok [] := by decide

/-- R167: an overlong form, a surrogate, a value above 0x10FFFF, a stray continuation byte and a truncated sequence. -/
theorem test_reject_utf8 :
    utf8Decode [0xC0, 0x80] = none ∧ utf8Decode [0xED, 0xA0, 0x80] = none ∧
    utf8Decode [0xF4, 0x90, 0x80, 0x80] = none ∧ utf8Decode [0x83, 0x35] = none ∧ utf8Decode [0xE2, 0x82] = none ∧
    utf8Encode [0xD800] = none ∧ utf8Encode [0x110000] = none := by decide

/-! ### Single steps, each command the first after reset -/

/-- Whether an outcome is a next state, and which. -/
def nextIs (o : Host.Outcome State Fault Refusal) (t : State) : Bool :=
  match o with
  | .next u => decide (u = t)
  | _ => false

/-- The responses after one step of the core with a word placed. -/
def responsesAfter (w : Nat) (s : State) : Option (List RspWord) :=
  match step (s.withFetchWord 32 w) with
  | .next t => some t.rspq
  | _ => none

/-- A stream opened for encryption under key 642 (R161). -/
def openState : State :=
  { State.reset with stream := some { dir := .encrypt, k1 := 0b10100100, k2 := 0b01000011 } }

/-- A search for (10111101, 10000111) at a candidate (R190). -/
def busyState (cand : Fin 1025) : State :=
  { State.reset with search := some { p := 0b10111101, c := 0b10000111, cand := cand } }

/-- L2.5: key 642, and the all-one key. -/
theorem test_enc : responsesAfter 0x128200BC .reset = some [0x000000E5] ∧
    responsesAfter 0x13FF0000 .reset = some [0x000000EB] := by decide +kernel
/-- L2.5: decrypting something never encrypted. -/
theorem test_dec : responsesAfter 0x228200BD .reset = some [0x00000061] ∧
    responsesAfter 0x200000F0 .reset = some [0x00000000] := by decide +kernel
/-- L2.3: keys 509 and 341. -/
theorem test_keyinfo : responsesAfter 0x31FD0000 .reset = some [0x00005FFC] ∧
    responsesAfter 0x31550000 .reset = some [0x00001BAC] := by decide +kernel
/-- R161: an open stream keeps its key and direction. -/
theorem test_sopen_refused :
    nextIs (step (openState.withFetchWord 32 0x48000000)) { openState with rspq := [0x20000000] } = true := by decide
/-- R162: the first byte of "Hi" under key 642; no stream after reset. -/
theorem test_sbyte : responsesAfter 0x50000048 openState = some [0x000000C4] ∧
    responsesAfter 0x50000048 .reset = some [0x30000000] := by decide +kernel
/-- R163: the registers lose their values. -/
theorem test_sclose :
    nextIs (step (openState.withFetchWord 32 0x60000000)) { State.reset with rspq := [0x00000000] } = true := by decide
/-- R182: the search starts at candidate 0 with AUX as the ciphertext. -/
theorem test_search_starts :
    nextIs (step (State.reset.withFetchWord 32 0x700087BD)) { busyState 0 with rspq := [0x00000000] } = true := by decide
/-- R182: the running search is not disturbed. -/
theorem test_search_refused :
    nextIs (step ((busyState 400).withFetchWord 32 0x70000000)) { busyState 400 with rspq := [0x20000000] } = true := by decide

/-- R190 (a): candidate 308 is the first match; its HIT word is 0x0134. -/
theorem test_search_step_hit :
    srchStep (busyState 308) = { busyState 309 with resq := [0x0134] } := by decide +kernel
/-- R190 (a): candidate 307 is no match. -/
theorem test_search_step_miss : srchStep (busyState 307) = busyState 308 := by decide +kernel
/-- R190 (b): cancelled at candidate 400. -/
theorem test_search_step_cancelled :
    (srchStep ((busyState 400).setCancel true)).resq = [0xC190] ∧
    (srchStep ((busyState 400).setCancel true)).qBusy = false := by decide
/-- R183: `CANCEL` is not used once all candidates are tested. -/
theorem test_search_step_complete :
    (srchStep ((busyState 1024).setCancel true)).resq = [0x8400] := by decide

/-- L2.1: `permute(101, (1, 4))` is refused and `permute(101, (3, 3, 1, 2, 2))` is 11100. -/
theorem test_permute :
    permute [true, false, true] [1, 4] = none ∧ permute [true, false, true] [0] = none ∧
    permute [true, false, true] [3, 3, 1, 2, 2] = some [true, true, true, false, false] := by decide
/-- L2.2: 10110 by 4 is 01011; one bit by 7. -/
theorem test_rotate :
    rotateLeft (bitsOf 0b10110#5) 4 = bitsOf 0b01011#5 ∧ rotateLeft [true] 7 = [true] := by decide
/-- R166: a wrong key gives the decoding error, another wrong key a text. -/
theorem test_decrypt_text :
    decryptText [0xC4, 0xC7] 0b0000000000 = .error .decoding ∧
    decryptText [0xC4, 0xC7] 0b0000000011 = .ok [0x27, 0x51] := by decide +kernel
/-- R77: `ENCTEXT` is SOPEN, an SBYTE for each byte of the text's UTF-8 form, SCLOSE. -/
theorem test_enctext_line :
    assembleLine "ENCTEXT \"Hi\", 1010000010".toList = .ok [0x42820000, 0x50000048, 0x50000069, 0x60000000] := by decide
/-- R77: `DECTEXT` with an empty list is SOPEN, SCLOSE. -/
theorem test_dectext_line :
    assembleLine "DECTEXT , 1010000010".toList = .ok [0x4A820000, 0x60000000] ∧
    assembleLine "DECTEXT 196 199, 1010000010".toList = .ok [0x4A820000, 0x500000C4, 0x500000C7, 0x60000000] := by decide
/-- Log entry 10: a text holds no double quote, and may hold a comma and a semicolon. -/
theorem test_enctext_quotes :
    assembleLine "ENCTEXT \"a\"\"b\", 1010000010".toList = .error .operands ∧
    assembleLine "ENCTEXT \",;\", 1010000010 ; a comment".toList =
      .ok [0x42820000, 0x5000002C, 0x5000003B, 0x60000000] := by decide
/-- R77: `BRUTE` collects the HIT words up to and including END. -/
theorem test_brute_collect :
    collectSearch [0x0134, 0x017C, 0xC190, 0x0180] = some ([308, 380], 0xC190) := by decide

/-! ### Witnesses: for every obligation with hypotheses, states and operands that meet them, at the ends of each range -/

/-- A full result channel. -/
def fullRes (s : State) : State := { s with resq := List.replicate Config.resDepth 0x0282 }
/-- A full response channel. -/
def fullRsp (s : State) : State := { s with rspq := List.replicate Config.rspDepth 0x00000087 }

/-- PermuteReadsNamedPositions. -/
theorem test_wit_permute :
    permute [true, false, true] [3, 1] = some [true, true] ∧ [3, 1][0]? = some 3 ∧ [3, 1][1]? = some 1 := by decide
/-- PermuteDefinedExactlyInRange, both sides and the ends 1 and `len`. -/
theorem test_wit_permute_range :
    (permute [true, false] [1, 2]).isSome = true ∧ (permute [true, false] [0]).isSome = false ∧
    (permute [true, false] [3]).isSome = false := by decide
/-- RotateLeftIsCyclic: the first and the last position. -/
theorem test_wit_rotate : 0 < (bitsOf 0b10110#5).length ∧ 4 < (bitsOf 0b10110#5).length := by decide
/-- KeyPairDeterminesKey: equal pairs, and distinct keys with one equal round key. -/
theorem test_wit_key_pair :
    keySchedule 0b1010000010 = ⟨0b10100100, 0b01000011⟩ ∧
    (keySchedule 0b0100000000).k1 = (keySchedule 0).k1 ∧ (keySchedule 0b0001000000).k2 = (keySchedule 0).k2 := by decide
/-- EncryptIsBijective: keys with equal and with unequal round keys. -/
theorem test_wit_equal_round_keys :
    (keySchedule 96).k1 = (keySchedule 96).k2 ∧ (keySchedule 642).k1 ≠ (keySchedule 642).k2 := by decide
/-- StreamMapIsPerByte. -/
theorem test_wit_stream_map : ([0x48, 0x69] : List Block)[1]? = some 0x69 := by decide
/-- OperandBitsOfAWord: the ends of each field (R61: `key<1> = cmd[25]`, `key<10> = cmd[16]`, and so on). -/
theorem test_wit_operand_bits :
    bitAt (keyField 0x02000000) 1 = true ∧ bitAt (keyField 0x00010000) 10 = true ∧
    bitAt (dataField 0x00000080) 1 = true ∧ bitAt (dataField 0x00000001) 8 = true ∧
    bitAt (auxField 0x00008000) 1 = true ∧ bitAt (auxField 0x00000100) 8 = true := by decide
/-- DecodeByMaskAndMatch: a word for each row, one for none, and two rows that are one. -/
theorem test_wit_mask_match :
    (0x128200BD : CmdWord) &&& 0xFC00FF00 = 0x10000000 ∧ (0x22820087 : CmdWord) &&& 0xFC00FF00 = 0x20000000 ∧
    (0x32820000 : CmdWord) &&& 0xFC00FFFF = 0x30000000 ∧ (0x4A820000 : CmdWord) &&& 0xF400FFFF = 0x40000000 ∧
    (0x50000048 : CmdWord) &&& 0xFFFFFF00 = 0x50000000 ∧ (0x60000000 : CmdWord) &&& 0xFFFFFFFF = 0x60000000 ∧
    (0x700087BD : CmdWord) &&& 0xFFFF0000 = 0x70000000 ∧ legalWord 0x128201BD = false ∧
    rowEnc.hits 0x128200BD = true ∧ opRows.length = 7 := by decide
/-- DecodeByMaskAndMatch and IllegalWordsAreAnswered: a legal and an illegal word. -/
theorem test_wit_decode :
    decode 0x60000000 = .ok .sclose ∧ decode 0x128201BD = .error .mustBeZero ∧
    decode 0x00000000 = .error .unknownOp := by decide
/-- DecodeOfEncode and EncodeOfDecode. -/
theorem test_wit_encode :
    (Instr.sopen .decrypt 0b1111111111).wellFormed = true ∧
    decode 0x4BFF0000 = .ok (.sopen .decrypt 0b1111111111) ∧
    encode (.sopen .decrypt 0b1111111111) = 0x4BFF0000 := by decide
/-- ResponseWordLayout, StatusAndItsCause, ErrorsChangeNothing: a word answered with each of the four statuses. -/
theorem test_wit_statuses :
    nextIs (execWord 0x60000000 openState) { State.reset with rspq := [] ++ [0x00000000] } = true ∧
    nextIs (execWord 0x50010048 .reset) { State.reset with rspq := [] ++ [0x10000000] } = true ∧
    nextIs (execWord 0x42820000 openState) { openState with rspq := [] ++ [0x20000000] } = true ∧
    nextIs (execWord 0x700087BD (busyState 5)) { busyState 5 with rspq := [] ++ [0x20000000] } = true ∧
    nextIs (execWord 0x50000048 .reset) { State.reset with rspq := [] ++ [0x30000000] } = true ∧
    nextIs (execWord 0x60000000 .reset) { State.reset with rspq := [] ++ [0x30000000] } = true := by decide
/-- ResultWordLayout: the first and last key, and the ends of `CHECKED`. -/
theorem test_wit_result_words :
    hitWord 0 = 0x0000 ∧ hitWord 1023 = 0x03FF ∧ endWord 1 0 = 0xC000 ∧ endWord 0 1024 = 0x8400 := by decide
/-- StringPredicates, KeyInfoThroughTheCore, LinesAssemble: strings that fail and pass, on a core with nothing waiting; texts,
code points and numerals that do and that do not. -/
theorem test_wit_strings :
    isValidKey "101000001".toList = false ∧ isValidBlock "101111011".toList = false ∧
    isValidKey "1010000010".toList = true ∧ State.reset.cmdq = [] ∧ State.reset.rspq = [] ∧
    utf8Encode [0x48] = some [0x48] ∧ utf8Encode [0xD800] = none ∧ (∀ c ∈ [0, 255], c ≤ 255) ∧ (255 < 256) ∧
    parseWord "0x128201BD".toList = some 0x128201BD ∧ parseWord "128201BD".toList = none := by decide
/-- VecAndStrAreInverse: the first and the last position. -/
theorem test_wit_vec_str :
    ['1', '0'][0]? = some '1' ∧ ['1', '0'][1]? = some '0' ∧ (∀ c ∈ ['1', '0'], c = '0' ∨ c = '1') ∧
    strOfVec 0b10111101#8 = ['1', '0', '1', '1', '1', '1', '0', '1'] :=
  ⟨rfl, rfl, by simp, by rfl⟩
/-- SopenOpensOrIsRefused, SbyteTransformsOneByte, ScloseDiscardsTheStream: no stream, and a stream. -/
theorem test_wit_streams :
    State.reset.sOpen = false ∧ openState.sOpen = true ∧
    openState.stream = some { dir := .encrypt, k1 := 0b10100100, k2 := 0b01000011 } ∧
    nextIs (exec (.sopen .encrypt 0b1010000010) .reset) { openState with rspq := [0x00000000] } = true := by decide
/-- SearchStartsOrIsRefused: no search, and a search. -/
theorem test_wit_busy : State.reset.qBusy = false ∧ (busyState 0).qBusy = true := by decide
/-- CommandFrames: a next state of a command of each kind, with a stream open and with a search running. -/
theorem test_wit_frames :
    nextIs (exec .sclose openState) { State.reset with rspq := [0x00000000] } = true ∧
    nextIs (exec (.sopen .decrypt 0) openState) { openState with rspq := [0x20000000] } = true ∧
    nextIs (exec (.search 0 0) (busyState 1024)) { busyState 1024 with rspq := [0x20000000] } = true ∧
    nextIs (exec (.keyinfo 0) .reset) { State.reset with rspq := [0x00000000] } = true := by decide
/-- StatelessResponses: one command in two states, with one stream for SBYTE. -/
theorem test_wit_stateless :
    nextIs (exec (.keyinfo 0b1010000010) openState) { openState with rspq := [0x0000A443] } = true ∧
    nextIs (exec (.keyinfo 0b1010000010) (busyState 7)) { busyState 7 with rspq := [0x0000A443] } = true ∧
    openState.stream = { openState with resq := [0x8400] }.stream := by decide
/-- StepRunsTheDecodedCommand: a command as the script's move, one with no script, and a placed word. -/
theorem test_wit_step_runs :
    { State.reset with script := [.cmd], cmdq := [0x60000000] }.script = Move.cmd :: [] ∧
    { State.reset with cmdq := [0x60000000] }.script = [] ∧ State.reset.hostGoesOn = false ∧
    State.reset.qBusy = false ∧ State.reset.rspq.length < Config.rspDepth ∧
    decode 0x60000000 = .ok .sclose ∧ decodeTableWord 32 0x60000000 = some .sclose :=
  ⟨rfl, rfl, rfl, rfl, Nat.succ_pos _, by decide, by decide⟩
/-- MovesOfAStep: a script, an outside that goes on, one agent ready, the other, both, and none; words to take, and none. -/
theorem test_wit_moves :
    { State.reset with script := [.rst] }.script = Move.rst :: [] ∧
    { State.reset with hostGoesOn := true }.script = [] ∧ { State.reset with hostGoesOn := true }.hostGoesOn = true ∧
    (busyState 0).script = [] ∧ (busyState 0).hostGoesOn = false ∧
    { State.reset with cmdq := [0] }.cmdReady = true ∧ { State.reset with cmdq := [0] }.srchReady = false ∧
    (busyState 0).cmdReady = false ∧ (busyState 0).srchReady = true ∧
    { busyState 0 with cmdq := [0] }.cmdReady = true ∧ { busyState 0 with cmdq := [0] }.srchReady = true ∧
    State.reset.cmdReady = false ∧ State.reset.srchReady = false ∧
    { State.reset with rspq := [0x87, 0xBD] }.rspq = 0x87 :: [0xBD] ∧
    { State.reset with resq := [0x0134, 0x8400] }.resq = 0x0134 :: [0x8400] ∧
    State.reset.rspq = [] ∧ State.reset.resq = [] := by decide +kernel
/-- R230: the HOST's moves; the first response of two is taken, and one from an empty channel is none. -/
theorem test_host_moves :
    nextIs (makeMove (.put 0x60000000) .reset) { State.reset with cmdq := [0x60000000] } = true ∧
    nextIs (makeMove .takeResponse { State.reset with rspq := [0x87, 0xBD] }) { State.reset with rspq := [0xBD] } = true ∧
    nextIs (makeMove .takeResult .reset) .reset = true := by decide
/-- ChannelsKeepOrder: moves with no reset among them, the state three steps later, and what the HOST took. -/
theorem test_wit_channels :
    Move.rst ∉ movesIn 3 { State.reset with script := [.put 0x60000000, .cmd, .takeResponse] } ∧
    nextIs (core.run 3 { State.reset with script := [.put 0x60000000, .cmd, .takeResponse] }) .reset = true ∧
    takenResponsesIn 3 { State.reset with script := [.put 0x60000000, .cmd, .takeResponse] } = [0x30000000] := by decide
/-- HeldAgentsChangeNothing: no command, a full `RSPQ`, no search, and a full `RESQ` at each kind of word. -/
theorem test_wit_held :
    State.reset.cmdq = [] ∧ (fullRsp .reset).rspq.length = Config.rspDepth ∧ State.reset.qBusy = false ∧
    (fullRes (busyState 1024)).resq.length = Config.resDepth ∧ (1024 : Fin 1025).val = 1024 ∧
    ((busyState 0).setCancel true).cancel = true ∧
    encrypt 0b10111101 (vecOf 10 308) = 0b10000111 ∧
    { State.reset with cmdq := [0] }.cmdReady = true ∧ (busyState 0).srchReady = true :=
  ⟨rfl, List.length_replicate, rfl, List.length_replicate, rfl, rfl, by decide +kernel, by decide, by decide +kernel⟩
/-- CancelReachesOnlyTheSearch. -/
theorem test_wit_cancel :
    nextIs (cmdStep .reset) .reset = true ∧ (busyState 1024).search = some ⟨0b10111101, 0b10000111, 1024⟩ ∧
    (∀ b, Move.cmd ≠ .setCancel b) ∧ nextIs (makeMove .cmd .reset) .reset = true ∧
    (srchStep ((fullRes (busyState 3)).setCancel true)).search = some ⟨0b10111101, 0b10000111, 3⟩ := by
  refine ⟨by decide, rfl, by simp, by decide, ?_⟩
  simp [srchStep, searchStep?, searchAdvance, busyState, fullRes, State.setCancel, State.resRoom]
/-- AgentsCommute: a command that is no SEARCH beside a running search; a SEARCH beside a search that goes on. -/
theorem test_wit_commute :
    { busyState 0 with cmdq := [0x60000000] }.cmdq.head? = some 0x60000000 ∧ decode 0x60000000 = .ok .sclose ∧
    { busyState 0 with cmdq := [0x700087BD] }.qBusy = true ∧
    (srchStep { busyState 0 with cmdq := [0x700087BD] }).qBusy = true := by decide +kernel
/-- SearchStepFollowsItsRule: `RESQ` with room, at candidates 0, 1023 and 1024, with `CANCEL` at 0 and at 1, on a match and on
none; and a search just started. -/
theorem test_wit_search_step :
    (busyState 0).resq.length < Config.resDepth ∧ (1023 : Fin 1025).val + 1 < 1025 ∧
    (1024 : Fin 1025).val = 1024 ∧ (busyState 1023).cancel = false ∧ ((busyState 0).setCancel true).cancel = true ∧
    encrypt 0b10111101 (vecOf 10 308) = 0b10000111 ∧ encrypt 0b10111101 (vecOf 10 307) ≠ 0b10000111 ∧
    State.reset.qBusy = false ∧ (State.reset.setCancel true).cancel = true :=
  ⟨Nat.succ_pos _, by decide, rfl, rfl, rfl, by decide +kernel, by decide +kernel, rfl, rfl⟩
/-- SearchRunIsAPrefix: cancelled at candidates 0 and 1 (the first has no match), not cancelled yet at 0. -/
theorem test_wit_search_run :
    searchRun [true, true] ⟨0b10111101, 0b10000111, 0⟩ = ([0xC000], none) ∧
    searchRun [false, true] ⟨0b10111101, 0b10000111, 0⟩ = ([0xC001], none) ∧
    searchRun [] ⟨0b10111101, 0b10000111, 0⟩ = ([], some ⟨0b10111101, 0b10000111, 0⟩) := by decide +kernel
/-- SearchResultsUnderAnyInterleaving: a search at candidate 0, with moves of all kinds but reset. -/
theorem test_wit_results :
    (busyState 0).search = some ⟨0b10111101, 0b10000111, 0⟩ ∧
    (busyState 0).search.map (fun q => q.cand) = some 0 ∧
    Move.rst ∉ movesIn 4 { busyState 0 with script := [.srch, .setCancel true, .srch, .takeResult] } ∧
    resultsIn 4 { busyState 0 with script := [.srch, .setCancel true, .srch, .takeResult] } = [0xC001] := by
  decide +kernel
/-- SearchEndsWithinItsBound: the last step of a search, with the script the statement asks for; a core with nothing waiting, at
each level of `CANCEL`, and one with a search running. -/
theorem test_wit_search_ends :
    { busyState 1024 with script := [.srch, .takeResult] }.script =
      (List.replicate (1025 - (1024 : Fin 1025).val) [Move.srch, Move.takeResult]).flatten ++ [] ∧
    (busyState 1024).resq.length < Config.resDepth ∧ State.reset.cmdq = [] ∧ State.reset.rspq = [] ∧
    State.reset.resq = [] ∧ State.reset.qBusy = false ∧ State.reset.cancel = false ∧
    (State.reset.setCancel true).cancel = true ∧ (busyState 1024).qBusy = true :=
  ⟨by decide, Nat.succ_pos _, rfl, rfl, rfl, rfl, rfl, rfl, rfl⟩
/-- R190 (d): BRUTE with `CANCEL` at 1 collects no key and 0xC000. -/
theorem test_brute_cancelled :
    bruteOn 0b10111101 0b10000111 (State.reset.setCancel true) = some (([], 0xC000), State.reset.setCancel true) := by
  decide +kernel
/-- A search running, a stream open and a response waiting. -/
def midState : State := { busyState 400 with stream := openState.stream, rspq := [0x00000087] }
/-- EveryStepKeepsTheInvariant: a state with the invariant, and its next state (400 is no match: R190). -/
theorem test_wit_invariant : midState.Inv ∧
    nextIs (step midState) { midState with search := (busyState 401).search } = true := by
  refine ⟨⟨Nat.succ_le_succ (Nat.zero_le _), Nat.zero_le _, ?_, by simp [midState, busyState, State.reset], ?_, ?_⟩,
    by decide +kernel⟩
  · intro r hr
    have : r = 0x00000087 := by simpa [midState] using hr
    subst this; unfold RspOk; decide
  · intro c hc
    refine ⟨0b1010000010, ?_⟩
    have : c = { dir := .encrypt, k1 := 0b10100100, k2 := 0b01000011 } := by
      simpa [midState, openState] using hc.symm
    subst this; decide
  · simp [HitsBelongToSearch, midState, busyState, openHits, State.reset]
/-- QuiescentCoreStays: a quiescent core with a stream open, with the HOST silent and with an outside that goes on, and a core with
a command waiting. -/
theorem test_wit_quiescent :
    openState.cmdq = [] ∧ openState.qBusy = false ∧ openState.script = [] ∧ openState.hostGoesOn = false ∧
    { openState with hostGoesOn := true }.hostGoesOn = true ∧
    { openState with cmdq := [0x60000000] }.cmdReady = true ∧
    nextIs (step { openState with cmdq := [0x60000000] }) { State.reset with rspq := [0x00000000] } = true := by decide
/-- Utf8IsStrict: the ends of each range, a surrogate, and a value too large. -/
theorem test_wit_utf8 :
    utf8Encode [0x7F] = some [0x7F] ∧ utf8Encode [0x80] = some [0xC2, 0x80] ∧ utf8Encode [0x7FF] = some [0xDF, 0xBF] ∧
    utf8Encode [0x800] = some [0xE0, 0xA0, 0x80] ∧ utf8Encode [0xFFFF] = some [0xEF, 0xBF, 0xBF] ∧
    utf8Encode [0x10000] = some [0xF0, 0x90, 0x80, 0x80] ∧ utf8Encode [0x10FFFF] = some [0xF4, 0x8F, 0xBF, 0xBF] ∧
    utf8Decode [0xC3, 0xA9] = some [0xE9] ∧ (0xD800 ≤ 0xDFFF ∧ 0x10FFFF < 0x110000) := by decide
/-- TextFunctions and TextRoundTrip: a text of scalar values, code points of at most 255 that decrypt to a text and that do not,
and one above 255. -/
theorem test_wit_texts :
    (∀ c ∈ [0x48, 0xE9], c ≤ 0x10FFFF ∧ ¬ (0xD800 ≤ c ∧ c ≤ 0xDFFF)) ∧ utf8Encode [0xE9] = some [0xC3, 0xA9] ∧
    (∀ c ∈ [0xC4, 0xC7], c ≤ 255) ∧ (∃ c ∈ [0x41, 256], 255 < c) ∧
    utf8Decode (streamMap .decrypt 0 ([0xC4, 0xC7].map byteOf)) = none ∧
    utf8Decode (streamMap .decrypt 0b1010000010 ([0xC4, 0xC7].map byteOf)) = some [0x48, 0x69] ∧
    decryptText [0xC4, 0xC7] 0b1010000010 = .ok [0x48, 0x69] :=
  ⟨by decide, by decide, by decide, ⟨256, by decide, by decide⟩, by decide +kernel, by decide +kernel, by decide +kernel⟩
/-- TextThroughTheCore: a core with no stream, no command waiting and no response untaken, a search running beside. -/
theorem test_wit_text_core :
    (busyState 9).stream = none ∧ (busyState 9).cmdq = [] ∧ (busyState 9).rspq = [] := by decide
end

section
/-! PROOFS. The registers outside their validity (R33), and the state after reset (R34). -/

namespace Sys2Proof.Machine

theorem State.sDir_eq_none_iff (s : State) : s.sDir = none ↔ s.stream = none := Option.map_eq_none_iff
theorem State.sK1_eq_none_iff (s : State) : s.sK1 = none ↔ s.stream = none := Option.map_eq_none_iff
theorem State.sK2_eq_none_iff (s : State) : s.sK2 = none ↔ s.stream = none := Option.map_eq_none_iff
theorem State.qP_eq_none_iff (s : State) : s.qP = none ↔ s.search = none := Option.map_eq_none_iff
theorem State.qC_eq_none_iff (s : State) : s.qC = none ↔ s.search = none := Option.map_eq_none_iff
theorem State.qCand_eq_none_iff (s : State) : s.qCand = none ↔ s.search = none := Option.map_eq_none_iff

/-- While no stream is open, `S_OPEN` is 0 and the registers it guards hold no value (R21, R33). -/
theorem State.streamRegisters_of_stream_none (s : State) (h : s.stream = none) :
    s.sOpen = false ∧ s.sDir = none ∧ s.sK1 = none ∧ s.sK2 = none :=
  ⟨s.sOpen_eq_false_iff.2 h, s.sDir_eq_none_iff.2 h, s.sK1_eq_none_iff.2 h, s.sK2_eq_none_iff.2 h⟩

/-- While no search runs, `Q_BUSY` is 0 and the registers it guards hold no value (R22, R33). -/
theorem State.searchRegisters_of_search_none (s : State) (h : s.search = none) :
    s.qBusy = false ∧ s.qP = none ∧ s.qC = none ∧ s.qCand = none :=
  ⟨s.qBusy_eq_false_iff.2 h, s.qP_eq_none_iff.2 h, s.qC_eq_none_iff.2 h, s.qCand_eq_none_iff.2 h⟩

/-- Reset does not read `CANCEL`: its level passes through (R34, R220). -/
theorem State.setCancel_resetCore (s : State) (level : Bool) :
    (s.setCancel level).resetCore = s.resetCore.setCancel level := rfl

/-- Settles O52: with neither a stream nor a search after reset no guarded register holds a value (R33), and `CANCEL` passes
through the reset event. -/
theorem stateAfterReset : Obligations.StateAfterReset := by
  unfold Obligations.StateAfterReset
  obtain ⟨hOpen, hDir, hK1, hK2⟩ := State.reset.streamRegisters_of_stream_none State.reset_stream
  obtain ⟨hBusy, hP, hC, hCand⟩ := State.reset.searchRegisters_of_search_none State.reset_search
  exact ⟨hOpen, hDir, hK1, hK2, hBusy, hP, hC, hCand, State.reset_cmdq, State.reset_rspq, State.reset_resq,
    State.resetCore_cancel, State.setCancel_resetCore⟩

end Sys2Proof.Machine
end

section
/-! PROOFS. The commands' answers as functions of the word, and of the stream context for SBYTE (R56). -/

namespace Sys2Proof.Machine

theorem exec_enc (blk : Block) (key : Key) (s : State) :
    exec (.enc blk key) s = .next (s.respond .ok 0 (encrypt blk key)) := rfl

theorem exec_dec (blk : Block) (key : Key) (s : State) :
    exec (.dec blk key) s = .next (s.respond .ok 0 (decrypt blk key)) := rfl

theorem exec_keyinfo (key : Key) (s : State) :
    exec (.keyinfo key) s = .next (s.respond .ok (keySchedule key).k1 (keySchedule key).k2) := rfl

theorem exec_sbyte_closed (blk : Block) (s : State) (h : s.stream = none) :
    exec (.sbyte blk) s = .next (s.respondError .errNoStream) := by
  simp [exec, execSbyte, h]

theorem exec_sbyte_open (blk : Block) (s : State) (c : StreamCtx) (h : s.stream = some c) :
    exec (.sbyte blk) s = .next (s.respond .ok 0 (cryptDir c.dir c.keys blk)) := by
  simp [exec, execSbyte, h]

/-- The one word appended by an outcome that only responds is that response's word (R65). -/
theorem response_of_next_respond {o : Host.Outcome State Fault Refusal} {s t : State} {r : RspWord} {st : Status}
    {hi lo : BitVec 8} (ho : o = .next (s.respond st hi lo)) (ht : o = .next t) (hr : t.rspq = s.rspq ++ [r]) :
    r = rspWord st hi lo := by
  obtain rfl : t = s.respond st hi lo := by simpa [ho] using ht.symm
  simpa using hr.symm

/-- The status and payload of an SBYTE are read off the stream context alone, so equal contexts give one answer (R162). -/
theorem exec_sbyte_of_stream_eq (blk : Block) {s s' : State} (h : s.stream = s'.stream) :
    ∃ st hi lo, exec (.sbyte blk) s = .next (s.respond st hi lo) ∧
      exec (.sbyte blk) s' = .next (s'.respond st hi lo) := by
  cases hs : s.stream with
  | none => exact ⟨.errNoStream, 0, 0, exec_sbyte_closed blk s hs, exec_sbyte_closed blk s' (h ▸ hs)⟩
  | some c => exact ⟨.ok, 0, _, exec_sbyte_open blk s c hs, exec_sbyte_open blk s' c (h ▸ hs)⟩

/-- Settles O40: each of the four commands has one answer that fits both states, and a response word is its answer's word. -/
theorem statelessResponses : Obligations.StatelessResponses := by
  unfold Obligations.StatelessResponses
  intro i s s' t t' r r' hKind ht ht' hr hr'
  have hAnswer : ∃ st hi lo, exec i s = .next (s.respond st hi lo) ∧ exec i s' = .next (s'.respond st hi lo) := by
    rcases hKind with ⟨b, k, rfl⟩ | ⟨b, k, rfl⟩ | ⟨k, rfl⟩ | ⟨⟨b, rfl⟩, hStream⟩
    · exact ⟨_, _, _, exec_enc b k s, exec_enc b k s'⟩
    · exact ⟨_, _, _, exec_dec b k s, exec_dec b k s'⟩
    · exact ⟨_, _, _, exec_keyinfo k s, exec_keyinfo k s'⟩
    · exact exec_sbyte_of_stream_eq b hStream
  obtain ⟨st, hi, lo, hs, hs'⟩ := hAnswer
  calc r = rspWord st hi lo := response_of_next_respond hs ht hr
    _ = r' := (response_of_next_respond hs' ht' hr').symm

end Sys2Proof.Machine
end

section
/-! PROOFS. The fields of a word, bit by bit and as integers (R61, R65). -/

namespace Sys2Proof.Machine

/-- Position `i` of the field of width `n` from bit `lo` up is bit `lo + n - i` of the word (R11, R61). -/
theorem bitAt_extractLsb' {w : Nat} (v : BitVec w) (lo : Nat) {n i : Nat} (h1 : 1 ≤ i) (hn : i ≤ n) :
    bitAt (v.extractLsb' lo n) i = v.getLsbD (lo + n - i) := by
  have hlt : i - 1 < n := by omega
  have hpos : lo + (n - 1 - (i - 1)) = lo + n - i := by omega
  have hin : n - 1 - (i - 1) < n := by omega
  simp [bitAt, BitVec.getMsbD_eq_getLsbD, hlt, hin, hpos]

/-- A field's integer value: the word shifted down to the field and cut to its width. -/
theorem intOf_extractLsb' {w : Nat} (v : BitVec w) (lo n : Nat) :
    intOf (v.extractLsb' lo n) = v.toNat / 2 ^ lo % 2 ^ n := by
  rw [intOf, BitVec.extractLsb'_toNat, Nat.shiftRight_eq_div_pow]

/-- Settles O17: each operand is `extractLsb'` of its field, so its bits and its value are the field's. -/
theorem operandBitsOfAWord : Obligations.OperandBitsOfAWord := by
  unfold Obligations.OperandBitsOfAWord
  intro w
  refine ⟨fun i h1 h => bitAt_extractLsb' w 16 h1 h, fun i h1 h => ?_, fun i h1 h => bitAt_extractLsb' w 8 h1 h,
    intOf_extractLsb' w 16 10, ?_, intOf_extractLsb' w 8 8⟩
  · rw [dataField, bitAt_extractLsb' w 0 h1 h, Nat.zero_add]
  · rw [dataField, intOf_extractLsb' w 0 8, pow_zero, Nat.div_one]

/-- A response word's value is the weighted sum of its four fields (R65). -/
theorem intOf_eq_rsp_fields (r : RspWord) :
    intOf r = intOf (rspStatus r) * 2 ^ 28 + intOf (rspZero r) * 2 ^ 16 + intOf (rspHi r) * 2 ^ 8 + intOf (rspLo r) := by
  simp only [rspStatus, rspZero, rspHi, rspLo, intOf_extractLsb']
  simp only [intOf]
  omega

/-- The value of `respond(status, hi, lo)` as R65 computes it. -/
theorem intOf_rspWord (st : Status) (hi lo : BitVec 8) :
    intOf (rspWord st hi lo) = intOf (statusCode st) * 2 ^ 28 + intOf hi * 2 ^ 8 + intOf lo := by
  have hZero : intOf (0#12) = 0 := rfl
  rw [intOf_eq_rsp_fields, rspStatus_rspWord, rspZero_rspWord, rspHi_rspWord, rspLo_rspWord, hZero, Nat.zero_mul,
    Nat.add_zero]

end Sys2Proof.Machine
end

section
/-! PROOFS. Decoding by mask and match, and the illegal words (R62 to R64). -/

namespace Sys2Proof.Machine

/-- A word that matches a row's pattern is that row's command (R62). -/
theorem decode_of_match {w : CmdWord} {r : OpRow} (hr : r ∈ opRows) (h : w &&& r.mask = r.matchBits) :
    decode w = .ok (r.read w) :=
  decode_of_hits hr (decide_eq_true h)

/-- The command a row reads stands in that row, so a decoded command names the row it came from. -/
theorem rowOf_read {r : OpRow} (hr : r ∈ opRows) (w : CmdWord) : rowOf (r.read w) = r := by
  simp only [opRows, List.mem_cons, List.not_mem_nil, or_false] at hr
  rcases hr with rfl | rfl | rfl | rfl | rfl | rfl | rfl <;> rfl

/-- No word hits two rows: it decodes to what each of them reads (R62). -/
theorem row_unique_of_hits {w : CmdWord} {r r' : OpRow} (hr : r ∈ opRows) (hr' : r' ∈ opRows)
    (h : r.hits w = true) (h' : r'.hits w = true) : r = r' := by
  have hRead : r.read w = r'.read w := Except.ok.inj ((decode_of_hits hr h).symm.trans (decode_of_hits hr' h'))
  rw [← rowOf_read hr w, hRead, rowOf_read hr' w]

/-- A word is illegal exactly when it hits no row (R64). -/
theorem decode_error_iff (w : CmdWord) :
    (∃ e, decode w = .error e) ↔ ∀ r ∈ opRows, ¬ r.hits w = true := by
  constructor
  · rintro ⟨e, he⟩ r hr h
    rw [decode_of_hits hr h] at he
    cases he
  · intro hNone
    cases hd : decode w with
    | error e => exact ⟨e, rfl⟩
    | ok i =>
      obtain ⟨r, hr, h, -⟩ := hits_of_decode hd
      exact absurd h (hNone r hr)

theorem dirOfBit_dField (w : CmdWord) : dirOfBit (dField w) = if w.getLsbD 27 then .decrypt else .encrypt := by
  have hBit : dField w = BitVec.ofBool (w.getLsbD 27) := by
    apply BitVec.eq_of_getLsbD_eq
    intro i hi
    obtain rfl : i = 0 := by omega
    simp [dField]
  rw [hBit]
  cases w.getLsbD 27 <;> rfl

/-- CMD executes the command a word decodes to (R63). -/
theorem execWord_of_decode_ok {w : CmdWord} {i : Instr} (h : decode w = .ok i) (s : State) :
    execWord w s = exec i s := by
  simp [execWord, h]

/-- CMD answers an illegal word with `ERR_ILLEGAL` (R63, R64). -/
theorem execWord_of_decode_error {w : CmdWord} {e : DecodeReject} (h : decode w = .error e) (s : State) :
    execWord w s = .next (s.respondError .errIllegal) := by
  simp [execWord, h]

/-- Settles O18: each clause on a row is its mask and match, what a word of no row does is `decode_error_iff`, and a word of two
rows would decode to commands of both. -/
theorem decodeByMaskAndMatch : Obligations.DecodeByMaskAndMatch := by
  unfold Obligations.DecodeByMaskAndMatch
  refine ⟨fun w => ⟨?enc, ?dec, ?keyinfo, ?sopen, ?sbyte, ?sclose, ?search, ?none⟩, ?unique,
    fun w i s h => execWord_of_decode_ok h s, fun w e s h => execWord_of_decode_error h s⟩
  case enc => exact decode_of_match (r := rowEnc) (by simp [opRows])
  case dec => exact decode_of_match (r := rowDec) (by simp [opRows])
  case keyinfo => exact decode_of_match (r := rowKeyinfo) (by simp [opRows])
  case sopen =>
    rw [← dirOfBit_dField]
    exact decode_of_match (r := rowSopen) (by simp [opRows])
  case sbyte => exact decode_of_match (r := rowSbyte) (by simp [opRows])
  case sclose => exact decode_of_match (r := rowSclose) (by simp [opRows])
  case search => exact decode_of_match (r := rowSearch) (by simp [opRows])
  case none =>
    intro hEnc hDec hKeyinfo hSopen hSbyte hSclose hSearch
    rw [decode_error_iff]
    simp only [opRows, List.forall_mem_cons, OpRow.hits, decide_eq_true_iff]
    exact ⟨hEnc, hDec, hKeyinfo, hSopen, hSbyte, hSclose, hSearch, by simp⟩
  case unique => exact fun w r r' hr hr' h h' => congrArg OpRow.matchBits (row_unique_of_hits hr hr' h h')

/-- The operation codes: none, those of the seven rows, and those above them (R62, R64). -/
theorem opcode_cases (op : BitVec 4) :
    op = 0#4 ∨ op = 1#4 ∨ op = 2#4 ∨ op = 3#4 ∨ op = 4#4 ∨ op = 5#4 ∨ op = 6#4 ∨ op = 7#4 ∨ 8#4 ≤ op := by
  revert op
  decide

/-- R64 field by field: an operation code of no row, or a 1 in a must-be-zero field of the code's row. -/
theorem decode_error_iff_fields (w : CmdWord) : (∃ e, decode w = .error e) ↔
    (opField w = 0#4 ∨ 8#4 ≤ opField w ∨
     ((opField w = 1#4 ∨ opField w = 2#4) ∧ ¬ (dField w = 0#1 ∧ zField w = 0#1 ∧ auxField w = 0#8)) ∨
     (opField w = 3#4 ∧ ¬ (dField w = 0#1 ∧ zField w = 0#1 ∧ auxField w = 0#8 ∧ dataField w = 0#8)) ∨
     (opField w = 4#4 ∧ ¬ (zField w = 0#1 ∧ auxField w = 0#8 ∧ dataField w = 0#8)) ∨
     (opField w = 5#4 ∧ ¬ (dField w = 0#1 ∧ zField w = 0#1 ∧ keyField w = 0#10 ∧ auxField w = 0#8)) ∨
     (opField w = 6#4 ∧ ¬ (dField w = 0#1 ∧ zField w = 0#1 ∧ keyField w = 0#10 ∧ auxField w = 0#8 ∧
        dataField w = 0#8)) ∨
     (opField w = 7#4 ∧ ¬ (dField w = 0#1 ∧ zField w = 0#1 ∧ keyField w = 0#10))) := by
  rw [decode_error_iff]
  simp only [opRows, List.forall_mem_cons, rowEnc_hits, rowDec_hits, rowKeyinfo_hits, rowSopen_hits,
    rowSbyte_hits, rowSclose_hits, rowSearch_hits]
  rcases opcode_cases (opField w) with h | h | h | h | h | h | h | h | h
  case inr.inr.inr.inr.inr.inr.inr.inr =>
    have hNe : ∀ op < 8#4, opField w ≠ op := fun op hlt heq => BitVec.not_le.2 hlt (heq ▸ h)
    simp [h, hNe]
  all_goals simp [h]

/-- Settles O19: the words by their fields, and the answer of `execWord` to a word that decodes to nothing. -/
theorem illegalWordsAreAnswered : Obligations.IllegalWordsAreAnswered := by
  unfold Obligations.IllegalWordsAreAnswered
  refine ⟨decode_error_iff_fields, ⟨.unknownOp, by decide⟩, ?_⟩
  rintro w s ⟨e, he⟩
  exact execWord_of_decode_error he s

end Sys2Proof.Machine
end

section
/-! PROOFS. The response to a word: one word, its status and the status's cause (R65, R66, R202). -/

namespace Sys2Proof.Machine

/-- The status a command is answered with in a state (R66). -/
def execStatus : Instr → State → Status
  | .enc _ _, _ => .ok
  | .dec _ _, _ => .ok
  | .keyinfo _, _ => .ok
  | .sopen _ _, s => if s.sOpen then .errBusy else .ok
  | .sbyte _, s => if s.sOpen then .ok else .errNoStream
  | .sclose, s => if s.sOpen then .ok else .errNoStream
  | .search _ _, s => if s.qBusy then .errBusy else .ok

/-- The status a word is answered with: decoding is checked before the state (R66, R202). -/
def wordStatus (w : CmdWord) (s : State) : Status :=
  match decode w with
  | .ok i => execStatus i s
  | .error _ => .errIllegal

/-- A next state answers a status when its `RSPQ` has one word more, which carries that status, and no payload with an error. -/
def Answers (st : Status) (s t : State) : Prop :=
  ∃ hi lo, t.rspq = s.rspq ++ [rspWord st hi lo] ∧ (st ≠ .ok → hi = 0 ∧ lo = 0)

theorem answers_ok {st : Status} {s u : State} {hi lo : BitVec 8} (hStatus : st = .ok) (hq : u.rspq = s.rspq) :
    Answers st s (u.respond .ok hi lo) :=
  ⟨hi, lo, by simp [hq, hStatus], fun h => absurd hStatus h⟩

theorem answers_error {st st' : Status} {s : State} (hStatus : st = st') : Answers st s (s.respondError st') :=
  ⟨0, 0, by simp [hStatus], fun _ => ⟨rfl, rfl⟩⟩

/-- Every command is answered with its status (R65, R66). -/
theorem exec_answers (i : Instr) (s : State) : ∃ t, exec i s = .next t ∧ Answers (execStatus i s) s t := by
  cases i with
  | enc b k => exact ⟨_, exec_enc b k s, answers_ok rfl rfl⟩
  | dec b k => exact ⟨_, exec_dec b k s, answers_ok rfl rfl⟩
  | keyinfo k => exact ⟨_, exec_keyinfo k s, answers_ok rfl rfl⟩
  | sopen d k =>
    cases hs : s.stream with
    | none => exact ⟨_, execSopen_closed d k s hs, answers_ok (by simp [execStatus, State.sOpen, hs]) rfl⟩
    | some c => exact ⟨_, execSopen_open d k s c hs, answers_error (by simp [execStatus, State.sOpen, hs])⟩
  | sbyte b =>
    cases hs : s.stream with
    | none => exact ⟨_, exec_sbyte_closed b s hs, answers_error (by simp [execStatus, State.sOpen, hs])⟩
    | some c => exact ⟨_, exec_sbyte_open b s c hs, answers_ok (by simp [execStatus, State.sOpen, hs]) rfl⟩
  | sclose =>
    cases hs : s.stream with
    | none => exact ⟨_, execSclose_closed s hs, answers_error (by simp [execStatus, State.sOpen, hs])⟩
    | some c => exact ⟨_, execSclose_open s c hs, answers_ok (by simp [execStatus, State.sOpen, hs]) rfl⟩
  | search p c =>
    cases hs : s.search with
    | none => exact ⟨_, execSearch_idle p c s hs, answers_ok (by simp [execStatus, State.qBusy, hs]) rfl⟩
    | some q => exact ⟨_, execSearch_busy p c s q hs, answers_error (by simp [execStatus, State.qBusy, hs])⟩

/-- Every word, legal or not, is answered with its status (R65, R66). -/
theorem execWord_answers {w : CmdWord} {s t : State} (h : execWord w s = .next t) : Answers (wordStatus w s) s t := by
  unfold wordStatus
  cases hd : decode w with
  | ok i =>
    obtain ⟨u, hu, hAnswers⟩ := exec_answers i s
    rw [execWord_of_decode_ok hd, hu] at h
    cases h
    exact hAnswers
  | error e =>
    rw [execWord_of_decode_error hd] at h
    cases h
    exact answers_error rfl

/-- Settles O24: the one word `execWord_answers` gives, and the fields and the value of `rspWord`. -/
theorem responseWordLayout : Obligations.ResponseWordLayout := by
  unfold Obligations.ResponseWordLayout
  refine ⟨fun w s t h => ?_, fun st hi lo =>
    ⟨rspStatus_rspWord st hi lo, rspHi_rspWord st hi lo, rspLo_rspWord st hi lo, fun i h1 h => ⟨?_, ?_⟩,
      intOf_rspWord st hi lo⟩⟩
  · obtain ⟨hi, lo, ht, -⟩ := execWord_answers h
    exact ⟨_, ht, rspZero_rspWord _ hi lo⟩
  · have hBit := bitAt_extractLsb' (rspWord st hi lo) 0 h1 h
    rwa [← rspLo, rspLo_rspWord, Nat.zero_add] at hBit
  · have hBit := bitAt_extractLsb' (rspWord st hi lo) 8 h1 h
    rwa [← rspHi, rspHi_rspWord] at hBit

theorem statusCode_inj {a b : Status} : statusCode a = statusCode b ↔ a = b := by
  cases a <;> cases b <;> decide

section
variable (w : CmdWord) (s : State)

theorem wordStatus_eq_errIllegal_iff : wordStatus w s = .errIllegal ↔ ∃ e, decode w = .error e := by
  unfold wordStatus
  cases decode w with
  | error e => simp
  | ok i => cases i <;> simp [execStatus, ite_eq_iff]

theorem wordStatus_eq_errBusy_iff : wordStatus w s = .errBusy ↔
    ((∃ d key, decode w = .ok (.sopen d key)) ∧ s.sOpen = true) ∨
    ((∃ p c, decode w = .ok (.search p c)) ∧ s.qBusy = true) := by
  unfold wordStatus
  cases decode w with
  | error e => simp
  | ok i => cases i <;> simp [execStatus, ite_eq_iff]

theorem wordStatus_eq_errNoStream_iff : wordStatus w s = .errNoStream ↔
    ((∃ b, decode w = .ok (.sbyte b)) ∨ decode w = .ok .sclose) ∧ s.sOpen = false := by
  unfold wordStatus
  cases decode w with
  | error e => simp
  | ok i => cases i <;> simp [execStatus, ite_eq_iff]

end

/-- Settles O25: the response carries the word's status, each status has its one cause, and `rspOk_rspWord` gives the rest. -/
theorem statusAndItsCause : Obligations.StatusAndItsCause := by
  unfold Obligations.StatusAndItsCause
  intro w s t r h hr
  obtain ⟨hi, lo, ht, hPayload⟩ := execWord_answers h
  obtain rfl : r = rspWord (wordStatus w s) hi lo := by simpa [ht] using hr.symm
  obtain ⟨-, hRange, hNoPayload⟩ := rspOk_rspWord _ hi lo hPayload
  have hStatus : ∀ st, rspStatus (rspWord (wordStatus w s) hi lo) = statusCode st ↔ wordStatus w s = st := by
    intro st
    rw [rspStatus_rspWord, statusCode_inj]
  exact ⟨(hStatus .errIllegal).trans (wordStatus_eq_errIllegal_iff w s),
    (hStatus .errBusy).trans (wordStatus_eq_errBusy_iff w s),
    (hStatus .errNoStream).trans (wordStatus_eq_errNoStream_iff w s), hRange, hNoPayload⟩

end Sys2Proof.Machine
end

section
/-! PROOFS. The result words of a search, whatever the samples of `CANCEL` (R68, R183). -/

namespace Sys2Proof.Machine

theorem toNat_resVal_hitWord {k : Nat} (h : k < 1024) : (resVal (hitWord k)).toNat = k := by
  rw [resVal_hitWord, vecOf, BitVec.toNat_ofNat]
  omega

theorem toNat_resVal_endWord (inc : BitVec 1) {n : Nat} (h : n ≤ 1024) : (resVal (endWord inc n)).toNat = n := by
  rw [resVal_endWord, vecOf, BitVec.toNat_ofNat]
  omega

/-- The engine's run when its first step ends the search. -/
theorem searchRun_of_end {q : SearchCtx} {cancel : Bool} {r : Option ResWord} (later : List Bool)
    (h : searchAdvance q cancel = (r, none)) : searchRun (cancel :: later) q = (r.toList, none) := by
  simp [searchRun, h]

/-- The engine's run when its first step leaves a candidate to test. -/
theorem searchRun_of_advance {q q' : SearchCtx} {cancel : Bool} {r : Option ResWord} (later : List Bool)
    (h : searchAdvance q cancel = (r, some q')) :
    searchRun (cancel :: later) q = (r.toList ++ (searchRun later q').1, (searchRun later q').2) := by
  simp [searchRun, h]

/-- What the engine has appended from candidate `cand` on: HIT words of keys, then, if the search has ended, one END word whose
`CHECKED` is at least `cand` and above every key, with `INC = 0` if and only if it is 1024 (R68). -/
def HitsThenEnd (cand : Nat) (out : List ResWord × Option SearchCtx) : Prop :=
  ∃ keys : List Nat, (∀ k ∈ keys, k < 1024) ∧
    ((∃ q', out = (keys.map hitWord, some q')) ∨
     ∃ inc n, out = (keys.map hitWord ++ [endWord inc n], none) ∧ cand ≤ n ∧ n ≤ 1024 ∧ (inc = 0#1 ↔ n = 1024) ∧
       ∀ k ∈ keys, k < n)

theorem hitsThenEnd_running (cand : Nat) (q : SearchCtx) : HitsThenEnd cand ([], some q) :=
  ⟨[], by simp, .inl ⟨q, rfl⟩⟩

theorem hitsThenEnd_ended {inc : BitVec 1} {n : Nat} (hn : n ≤ 1024) (hInc : inc = 0#1 ↔ n = 1024) :
    HitsThenEnd n ([endWord inc n], none) :=
  ⟨[], by simp, .inr ⟨inc, n, rfl, le_rfl, hn, hInc, by simp⟩⟩

/-- A candidate that is no match adds no word. -/
theorem HitsThenEnd.miss {cand : Nat} {out : List ResWord × Option SearchCtx} (h : HitsThenEnd (cand + 1) out) :
    HitsThenEnd cand out := by
  obtain ⟨keys, hKeys, hRunning | ⟨inc, n, hOut, hCand, hEnded⟩⟩ := h
  · exact ⟨keys, hKeys, .inl hRunning⟩
  · exact ⟨keys, hKeys, .inr ⟨inc, n, hOut, by omega, hEnded⟩⟩

/-- A candidate that matches puts its HIT before what follows; the END's `CHECKED` is above it. -/
theorem HitsThenEnd.hit {cand : Nat} {out : List ResWord × Option SearchCtx} (hlt : cand < 1024)
    (h : HitsThenEnd (cand + 1) out) : HitsThenEnd cand (hitWord cand :: out.1, out.2) := by
  obtain ⟨keys, hKeys, ⟨q', rfl⟩ | ⟨inc, n, rfl, hCand, hn, hInc, hBelow⟩⟩ := h
  · exact ⟨cand :: keys, List.forall_mem_cons.2 ⟨hlt, hKeys⟩, .inl ⟨q', rfl⟩⟩
  · exact ⟨cand :: keys, List.forall_mem_cons.2 ⟨hlt, hKeys⟩,
      .inr ⟨inc, n, rfl, by omega, hn, hInc, List.forall_mem_cons.2 ⟨by omega, hBelow⟩⟩⟩

/-- The engine alone keeps to R68 under any samples of `CANCEL`: by induction on them, one step of R183 at a time. -/
theorem searchRun_hitsThenEnd (samples : List Bool) (q : SearchCtx) :
    HitsThenEnd q.cand.val (searchRun samples q) := by
  induction samples generalizing q with
  | nil => exact hitsThenEnd_running _ q
  | cons cancel later ih =>
    by_cases hDone : q.cand.val = 1024
    · rw [searchRun_of_end later (searchAdvance_done q cancel hDone), hDone]
      exact hitsThenEnd_ended le_rfl (by simp)
    · have hlt : q.cand.val < 1024 := by have := q.cand.isLt; omega
      cases cancel with
      | true =>
        rw [searchRun_of_end later (searchAdvance_cancelled q hlt)]
        exact hitsThenEnd_ended hlt.le (by simpa using hDone)
      | false =>
        rw [searchRun_of_advance later (searchAdvance_tested q (by omega))]
        split
        · exact (ih _).hit hlt
        · exact (ih _).miss

/-- Settles O26: the fields of the two words, and the engine's words from any context by `searchRun_hitsThenEnd`. -/
theorem resultWordLayout : Obligations.ResultWordLayout := by
  unfold Obligations.ResultWordLayout
  refine ⟨fun k h => ⟨resEnd_hitWord k, resInc_hitWord k, resZero_hitWord k, toNat_resVal_hitWord h⟩,
    fun inc n h => ⟨resEnd_endWord inc n, resInc_endWord inc n, resZero_endWord inc n, toNat_resVal_endWord inc h⟩,
    fun samples q => ?_⟩
  obtain ⟨keys, hKeys, hRunning | ⟨inc, n, hOut, -, hEnded⟩⟩ := searchRun_hitsThenEnd samples q
  · exact ⟨keys, hKeys, .inl hRunning⟩
  · exact ⟨keys, hKeys, .inr ⟨inc, n, hOut, hEnded⟩⟩

end Sys2Proof.Machine
end

section
/-! PROOFS. The string boundary: `vec` and `str`, the two predicates, and the strings that form no command (R71 to R74). -/

namespace Sys2Proof.Machine

/-- `vec(s)` position by position: a 1 where the string has the character '1' (R71). -/
theorem bitsOf_vecOfString (s : List Char) : bitsOf (vecOfString s) = s.map (fun c => c == '1') := by
  apply List.ext_getElem
  · simp
  · intro i h _
    have hi : i < s.length := by simpa using h
    simp [bitsOf, bitAt, vecOfString, ofBits, BitVec.getMsbD_ofBoolListBE, hi]

/-- The parsers' change of width from the string's length to the operand's moves no bit. -/
theorem bitsOf_setWidth_vecOfString {s : List Char} {n : Nat} (h : s.length = n) :
    bitsOf ((vecOfString s).setWidth n) = s.map (fun c => c == '1') := by
  subst h
  rw [BitVec.setWidth_eq, bitsOf_vecOfString]

theorem getElem?_bitsOf {n i : Nat} (v : BitVec n) (h : i < n) : (bitsOf v)[i]? = some (bitAt v (i + 1)) := by
  simp [bitsOf, h]

theorem isBinaryChar_iff (c : Char) : isBinaryChar c = true ↔ c = '0' ∨ c = '1' := by
  simp [isBinaryChar]

theorem isValidKey_iff (s : List Char) : isValidKey s = true ↔ s.length = 10 ∧ ∀ c ∈ s, c = '0' ∨ c = '1' := by
  simp [isValidKey, isBinaryChar_iff]

theorem isValidBlock_iff (s : List Char) : isValidBlock s = true ↔ s.length = 8 ∧ ∀ c ∈ s, c = '0' ∨ c = '1' := by
  simp [isValidBlock, isBinaryChar_iff]

@[simp] theorem length_strOfVec {n : Nat} (v : BitVec n) : (strOfVec v).length = n := by
  simp [strOfVec]

theorem strOfVec_binary {n : Nat} (v : BitVec n) : ∀ c ∈ strOfVec v, c = '0' ∨ c = '1' := by
  intro c hc
  obtain ⟨b, -, rfl⟩ := List.mem_map.1 hc
  cases b
  · exact .inl rfl
  · exact .inr rfl

/-- Reading the characters of `str(v)` back as bits gives the bits of `v`. -/
theorem map_strOfVec {n : Nat} (v : BitVec n) : (strOfVec v).map (fun c => c == '1') = bitsOf v := by
  have hBit : ∀ b : Bool, ((if b then '1' else '0') == '1') = b := by decide
  simp [strOfVec, Function.comp_def, hBit]

/-- `str` undoes `vec` on strings of '0' and '1' (R71). -/
theorem strOfVec_vecOfString {s : List Char} (h : ∀ c ∈ s, c = '0' ∨ c = '1') : strOfVec (vecOfString s) = s := by
  rw [strOfVec, bitsOf_vecOfString, List.map_map]
  refine (List.map_congr_left fun c hc => ?_).trans s.map_id
  rcases h c hc with rfl | rfl <;> rfl

/-- `vec` undoes `str` (R71), through the parsers' change of width. -/
theorem setWidth_vecOfString_strOfVec {n : Nat} (v : BitVec n) : (vecOfString (strOfVec v)).setWidth n = v :=
  bitsOf_injective ((bitsOf_setWidth_vecOfString (length_strOfVec v)).trans (map_strOfVec v))

theorem parseKey_of_valid {s : List Char} (h : isValidKey s = true) : parseKey s = .ok ((vecOfString s).setWidth 10) := by
  simp [parseKey, h]

theorem parseKey_of_invalid {s : List Char} (h : isValidKey s = false) : parseKey s = .error .shape := by
  simp [parseKey, h]

theorem parseBlock_of_valid {s : List Char} (h : isValidBlock s = true) :
    parseBlock s = .ok ((vecOfString s).setWidth 8) := by
  simp [parseBlock, h]

theorem parseBlock_of_invalid {s : List Char} (h : isValidBlock s = false) : parseBlock s = .error .shape := by
  simp [parseBlock, h]

/-- A key's own string parses to the key. -/
theorem parseKey_strOfVec (k : Key) : parseKey (strOfVec k) = .ok k := by
  rw [parseKey_of_valid ((isValidKey_iff _).2 ⟨length_strOfVec k, strOfVec_binary k⟩), setWidth_vecOfString_strOfVec]

/-- A block's own string parses to the block. -/
theorem parseBlock_strOfVec (b : Block) : parseBlock (strOfVec b) = .ok b := by
  rw [parseBlock_of_valid ((isValidBlock_iff _).2 ⟨length_strOfVec b, strOfVec_binary b⟩), setWidth_vecOfString_strOfVec]

/-- The first bit of a sequence has the highest weight (R11). -/
theorem intOf_ofBits_cons (b : Bool) (l : List Bool) :
    intOf (ofBits (b :: l)) = b.toNat * 2 ^ l.length + intOf (ofBits l) := by
  simp only [intOf, ofBits, BitVec.ofBoolListBE, BitVec.toNat_cons', Nat.shiftLeft_eq]

/-- Reading digits on from a value `n` moves `n` up by as many positions: Horner's rule against the weights of R11. -/
theorem foldl_bits_eq (l : List Bool) (n : Nat) :
    l.foldl (fun n b => 2 * n + b.toNat) n = n * 2 ^ l.length + intOf (ofBits l) := by
  induction l generalizing n with
  | nil => simp [intOf, ofBits, BitVec.ofBoolListBE]
  | cons b l ih =>
    rw [List.foldl_cons, ih, intOf_ofBits_cons, List.length_cons, pow_succ]
    ring

/-- A key string is the binary numeral of the key's integer value (R71). -/
theorem intOf_of_parseKey {s : List Char} {k : Key} (h : parseKey s = .ok k) :
    intOf k = s.foldl (fun n c => 2 * n + if c = '1' then 1 else 0) 0 := by
  have hValid : isValidKey s = true := by
    by_contra hInvalid
    simp [parseKey, hInvalid] at h
  have hLength : s.length = 10 := ((isValidKey_iff s).1 hValid).1
  have hDigit : ∀ c : Char, (c == '1').toNat = if c = '1' then 1 else 0 := by
    intro c
    by_cases h : c = '1' <;> simp [h]
  have hKey : (vecOfString s).setWidth 10 = k := Except.ok.inj ((parseKey_of_valid hValid).symm.trans h)
  calc intOf k = intOf (ofBits (s.map (fun c => c == '1'))) := by
        rw [← hKey, intOf, BitVec.toNat_setWidth_of_le hLength.le]; rfl
    _ = (s.map (fun c => c == '1')).foldl (fun n b => 2 * n + b.toNat) 0 := by rw [foldl_bits_eq, Nat.zero_mul, Nat.zero_add]
    _ = s.foldl (fun n c => 2 * n + if c = '1' then 1 else 0) 0 := by simp only [List.foldl_map, hDigit]

/-- Settles O28: `vec` and `str` through the bits of the vector, and the numeral by Horner's rule. -/
theorem vecAndStrAreInverse : Obligations.VecAndStrAreInverse := by
  unfold Obligations.VecAndStrAreInverse
  refine ⟨fun s i c h => ?_, fun n v i h => ?_, fun s h => strOfVec_vecOfString h, parseKey_strOfVec, parseBlock_strOfVec,
    fun s k h => intOf_of_parseKey h⟩
  · have hi : i < s.length := (List.getElem?_eq_some_iff.1 h).1
    have hBit := getElem?_bitsOf (vecOfString s) hi
    rw [bitsOf_vecOfString, List.getElem?_map, h, Option.map_some] at hBit
    exact (Option.some.inj hBit).symm
  · rw [strOfVec, List.getElem?_map, getElem?_bitsOf v h, Option.map_some]

/-! ### A malformed operand forms no command (R74) -/

theorem keyInfoCommand_of_invalid {s : List Char} (h : isValidKey s = false) : keyInfoCommand s = .error .shape := by
  simp [keyInfoCommand, parseKey_of_invalid h]

theorem keyWord_of_invalid (mk : Key → Instr) {key : List Char} (h : isValidKey key = false) :
    keyWord mk key = .error .shape := by
  simp [keyWord, parseKey_of_invalid h]

theorem blockKeyWord_of_invalid_block (mk : Block → Key → Instr) {blk : List Char} (key : List Char)
    (h : isValidBlock blk = false) : blockKeyWord mk blk key = .error .shape := by
  simp [blockKeyWord, parseBlock_of_invalid h]

theorem blockKeyWord_of_invalid_key (mk : Block → Key → Instr) (blk : List Char) {key : List Char}
    (h : isValidKey key = false) : blockKeyWord mk blk key = .error .shape := by
  simp [blockKeyWord, parseKey_of_invalid h]

theorem twoBlockWord_of_invalid_left (mk : Block → Block → Instr) {x : List Char} (y : List Char)
    (h : isValidBlock x = false) : twoBlockWord mk x y = .error .shape := by
  simp [twoBlockWord, parseBlock_of_invalid h]

theorem twoBlockWord_of_invalid_right (mk : Block → Block → Instr) (x : List Char) {y : List Char}
    (h : isValidBlock y = false) : twoBlockWord mk x y = .error .shape := by
  simp [twoBlockWord, parseBlock_of_invalid h]

theorem assemble_sbyte_of_invalid {blk : List Char} (h : isValidBlock blk = false) :
    assemble (.sbyte blk) = .error .shape := by
  simp [assemble, parseBlock_of_invalid h]

/-- An outcome that is an error is no list of words. -/
theorem ne_ok_of_eq_error {ε α : Type} {x : Except ε α} {e : ε} (h : x = .error e) (a : α) : x ≠ .ok a := by
  simp [h]

/-- Settles O27: the predicates character by character; a string that fails one fails its parser, and with it every line that
reads it there. -/
theorem stringPredicates : Obligations.StringPredicates := by
  unfold Obligations.StringPredicates
  refine ⟨isValidKey_iff, isValidBlock_iff,
    fun s h => ⟨parseKey_of_invalid h, keyInfoCommand_of_invalid h, fun ws b d => ⟨?_, ?_, ?_, ?_⟩⟩,
    fun s h => ⟨parseBlock_of_invalid h, fun ws x => ⟨?_, ?_, ?_, ?_, ?_⟩⟩⟩
  · exact ne_ok_of_eq_error (blockKeyWord_of_invalid_key .enc b h) ws
  · exact ne_ok_of_eq_error (blockKeyWord_of_invalid_key .dec b h) ws
  · exact ne_ok_of_eq_error (keyWord_of_invalid .keyinfo h) ws
  · exact ne_ok_of_eq_error (keyWord_of_invalid (.sopen d) h) ws
  · exact ne_ok_of_eq_error (blockKeyWord_of_invalid_block .enc x h) ws
  · exact ne_ok_of_eq_error (blockKeyWord_of_invalid_block .dec x h) ws
  · exact ne_ok_of_eq_error (assemble_sbyte_of_invalid h) ws
  · exact ne_ok_of_eq_error (twoBlockWord_of_invalid_left .search x h) ws
  · exact ne_ok_of_eq_error (twoBlockWord_of_invalid_right .search x h) ws

end Sys2Proof.Machine
end

section
/-! PROOFS. The encoding examples (R78). -/

namespace Sys2Proof.Machine

/-- Settles O23: each line and word is computed, and the two illegal words are answered as every illegal word is. -/
theorem encodingExamples : Obligations.EncodingExamples := by
  unfold Obligations.EncodingExamples
  have hMustBeZero : decode 0x128201BD = .error .mustBeZero := by decide
  have hUnknownOp : decode 0x00000000 = .error .unknownOp := by decide
  exact ⟨rfl, rfl, rfl, rfl, rfl, rfl, rfl, rfl, rfl, rfl, rfl, rfl, rfl, rfl, rfl, rfl, rfl, rfl,
    execWord_of_decode_error hMustBeZero, execWord_of_decode_error hUnknownOp⟩

end Sys2Proof.Machine
end

section
/-! PROOFS. The generic `permute`: what a result holds, when there is one, and on the bits of a vector (R90, R91, R103). -/

namespace Sys2Proof.Machine

theorem entryAt_eq_some_iff {α : Type} {l : List α} {i : Nat} {a : α} :
    entryAt l i = some a ↔ 1 ≤ i ∧ l[i - 1]? = some a := by
  by_cases h : i = 0
  · simp [entryAt, h]
  · simp [entryAt, h, Nat.one_le_iff_ne_zero]

/-- A sequence has an entry at exactly the positions 1 to its length (R40). -/
theorem isSome_entryAt_iff {α : Type} (l : List α) (i : Nat) : (entryAt l i).isSome = true ↔ 1 ≤ i ∧ i ≤ l.length := by
  by_cases h : i = 0
  · simp [entryAt, h]
  · simp [entryAt, h]
    omega

theorem entryAt_map {α β : Type} (f : α → β) (l : List α) (i : Nat) : entryAt (l.map f) i = (entryAt l i).map f := by
  by_cases h : i = 0 <;> simp [entryAt, h]

theorem entryAt_bitsOf {n i : Nat} (v : BitVec n) (h1 : 1 ≤ i) (hn : i ≤ n) : entryAt (bitsOf v) i = some (bitAt v i) := by
  refine entryAt_eq_some_iff.2 ⟨h1, ?_⟩
  rw [getElem?_bitsOf v (by omega), Nat.sub_add_cancel h1]

/-- The bits of a vector are its positions 1 to its width, in order. -/
theorem bitsOf_eq_map_range' {n : Nat} (v : BitVec n) : bitsOf v = (List.range' 1 n).map (bitAt v) := by
  simp [bitsOf, List.range'_eq_map_range, Function.comp_def, Nat.add_comm]

/-- `permute` reads the table's entries one by one, and gives a result when each read does (R90, R91). -/
theorem permute_eq_some_iff (v : List Bool) (table : List Nat) (out : List Bool) :
    permute v table = some out ↔ table.map (entryAt v) = out.map some := by
  induction table generalizing out with
  | nil => cases out <;> simp [permute]
  | cons t ts ih =>
    cases out with
    | nil => cases hEntry : entryAt v t <;> cases hRest : permute v ts <;> simp [permute, hEntry, hRest]
    | cons b bs => cases hEntry : entryAt v t <;> cases hRest : permute v ts <;> simp [permute, hEntry, hRest, ← ih]

theorem isSome_permute_cons (v : List Bool) (t : Nat) (ts : List Nat) :
    (permute v (t :: ts)).isSome = true ↔ (entryAt v t).isSome = true ∧ (permute v ts).isSome = true := by
  cases hEntry : entryAt v t <;> cases hRest : permute v ts <;> simp [permute, hEntry, hRest]

/-- `permute` is defined exactly when every table entry is a position of the input (R91). -/
theorem isSome_permute_iff (v : List Bool) (table : List Nat) :
    (permute v table).isSome = true ↔ ∀ t ∈ table, 1 ≤ t ∧ t ≤ v.length := by
  induction table with
  | nil => simp [permute]
  | cons t ts ih => rw [isSome_permute_cons, isSome_entryAt_iff, ih, List.forall_mem_cons]

theorem length_of_permute {v out : List Bool} {table : List Nat} (h : permute v table = some out) :
    out.length = table.length := by
  simpa using (congrArg List.length ((permute_eq_some_iff v table out).1 h)).symm

/-- `output<i> = input<table<i>>` (R90). -/
theorem getElem?_of_permute {v out : List Bool} {table : List Nat} (h : permute v table = some out) {i t : Nat}
    (ht : table[i]? = some t) : 1 ≤ t ∧ ∃ b, v[t - 1]? = some b ∧ out[i]? = some b := by
  have hRead : some (entryAt v t) = out[i]?.map some := by
    simpa [ht] using congrArg (fun l => l[i]?) ((permute_eq_some_iff v table out).1 h)
  obtain ⟨b, hOut, hEntry⟩ := Option.map_eq_some_iff.1 hRead.symm
  obtain ⟨hPos, hBit⟩ := entryAt_eq_some_iff.1 hEntry.symm
  exact ⟨hPos, b, hBit, hOut⟩

/-- The table (1, ..., m) is the identity (R90). -/
theorem permute_range' (v : List Bool) : permute v (List.range' 1 v.length) = some v := by
  rw [permute_eq_some_iff]
  apply List.ext_getElem
  · simp
  · intro i _ h
    have hi : i < v.length := by simpa using h
    simp [entryAt, hi]

/-- Where each entry of `table` reads a label of `l`, permuting bits looked up by label is looking up the labels read. -/
theorem permute_map {α : Type} (f : α → Bool) {l out : List α} {table : List Nat}
    (h : table.map (entryAt l) = out.map some) : permute (l.map f) table = some (out.map f) := by
  rw [permute_eq_some_iff]
  calc table.map (entryAt (l.map f)) = (table.map (entryAt l)).map (Option.map f) := by
        simp [entryAt_map, Function.comp_def]
    _ = (out.map f).map some := by simp [h, Function.comp_def]

/-- A fixed wiring agrees with the generic `permute` on its table (R103). -/
theorem permute_bitsOf {m : Nat} {table : List Nat} (v : BitVec m) (h : ∀ t ∈ table, 1 ≤ t ∧ t ≤ m) :
    permute (bitsOf v) table = some (bitsOf (wire table v)) := by
  rw [permute_eq_some_iff, bitsOf_wire, List.map_map]
  exact List.map_congr_left fun t ht => entryAt_bitsOf v (h t ht).1 (h t ht).2

/-- Settles O1: a result is read entry by entry. -/
theorem permuteReadsNamedPositions : Obligations.PermuteReadsNamedPositions := by
  unfold Obligations.PermuteReadsNamedPositions
  exact ⟨fun v table out h => ⟨length_of_permute h, fun i t ht => getElem?_of_permute h ht⟩, fun _ => rfl, permute_range',
    by decide⟩

/-! ### Each of the six tables is in range of its input (R100), so its wiring is `permute` (R103) -/

theorem permute_ip (v : Block) : permute (bitsOf v) tableIP = some (bitsOf (ip v)) := permute_bitsOf v (by decide)

theorem permute_ipInv (v : Block) : permute (bitsOf v) tableIPINV = some (bitsOf (ipInv v)) := permute_bitsOf v (by decide)

theorem permute_ep (v : Half) : permute (bitsOf v) tableEP = some (bitsOf (ep v)) := permute_bitsOf v (by decide)

theorem permute_sp (v : Half) : permute (bitsOf v) tableSP = some (bitsOf (sp v)) := permute_bitsOf v (by decide)

theorem permute_p10 (v : Key) : permute (bitsOf v) tableP10 = some (bitsOf (p10 v)) := permute_bitsOf v (by decide)

theorem permute_p8 (v : BitVec 10) : permute (bitsOf v) tableP8 = some (bitsOf (p8 v)) := permute_bitsOf v (by decide)

/-- Settles O2: by induction on the table; the fixed tables by the wirings they give. -/
theorem permuteDefinedExactlyInRange : Obligations.PermuteDefinedExactlyInRange := by
  unfold Obligations.PermuteDefinedExactlyInRange
  exact ⟨isSome_permute_iff,
    fun v => ⟨Option.isSome_of_eq_some (permute_ip v), Option.isSome_of_eq_some (permute_ipInv v)⟩,
    fun v => ⟨Option.isSome_of_eq_some (permute_ep v), Option.isSome_of_eq_some (permute_sp v)⟩,
    fun v => ⟨Option.isSome_of_eq_some (permute_p10 v), Option.isSome_of_eq_some (permute_p8 v)⟩⟩

end Sys2Proof.Machine
end

section
/-! PROOFS. The cyclic rotation (R92), and the halves of a vector and their join (R93). -/

namespace Sys2Proof.Machine

theorem rotateLeft_eq_rotate (v : List Bool) (shift : Nat) : rotateLeft v shift = v.rotate shift :=
  List.rotate_eq_drop_append_take_mod.symm

/-- Settles O3: `rotate_left` is the library's cyclic rotation of lists. -/
theorem rotateLeftIsCyclic : Obligations.RotateLeftIsCyclic := by
  unfold Obligations.RotateLeftIsCyclic
  simp only [rotateLeft_eq_rotate]
  refine ⟨fun v shift => ⟨List.length_rotate v shift, fun i hi => List.getElem?_rotate hi⟩, fun v k => ?_,
    List.rotate_rotate, List.rotate_nil, by decide, by decide, by decide, by decide, by decide⟩
  rw [Nat.mul_comm, List.rotate_length_mul]

theorem getElem_bitsOf {n i : Nat} (v : BitVec n) (h : i < (bitsOf v).length) : (bitsOf v)[i] = bitAt v (i + 1) := by
  simp [bitsOf]

/-- Position `i` of an `n`-bit vector is the bit of weight `2^(n - i)` (R11). -/
theorem bitAt_eq_getLsbD {n i : Nat} (v : BitVec n) (h1 : 1 ≤ i) (hn : i ≤ n) : bitAt v i = v.getLsbD (n - i) := by
  have hlt : i - 1 < n := by omega
  have hpos : n - 1 - (i - 1) = n - i := by omega
  simp [bitAt, BitVec.getMsbD_eq_getLsbD, hlt, hpos]

/-- The bits of the field of width `n` from bit `lo` up are the `n` positions that follow the `w - lo - n` above it (R11). -/
theorem bitsOf_extractLsb' {w : Nat} (v : BitVec w) {lo n : Nat} (h : lo + n ≤ w) :
    bitsOf (v.extractLsb' lo n) = ((bitsOf v).drop (w - lo - n)).take n := by
  apply List.ext_getElem
  · simp; omega
  · intro i h1 _
    have hi : i < n := by simpa using h1
    have hPos : lo + n - (i + 1) = w - (w - lo - n + i + 1) := by omega
    rw [List.getElem_take, List.getElem_drop, getElem_bitsOf, getElem_bitsOf, bitAt_extractLsb' v lo (by omega) hi,
      bitAt_eq_getLsbD v (by omega) (by omega), hPos]

/-- The bits of a concatenation are those of its parts in order (R9). -/
theorem bitsOf_append {m n : Nat} (l : BitVec m) (r : BitVec n) : bitsOf (l ++ r) = bitsOf l ++ bitsOf r := by
  apply List.ext_getElem
  · simp
  · intro i h1 _
    by_cases hi : i < m <;> simp [bitsOf, bitAt, BitVec.getMsbD_append, List.getElem_append, hi]

/-- Two adjacent fields that fill a word are a concatenation (R12). -/
theorem inField_or_inField {m n : Nat} (l : BitVec m) (r : BitVec n) :
    inField (m + n) l n ||| inField (m + n) r 0 = l ++ r := by
  apply BitVec.eq_of_getLsbD_eq
  intro i hi
  rw [BitVec.getLsbD_append]
  by_cases h : i < n
  · simp [inField, h, hi]
  · simp [inField, h, hi, BitVec.getLsbD_of_ge r i (Nat.le_of_not_lt h)]

theorem joinHalves_eq_append (l r : Half) : joinHalves l r = l ++ r := inField_or_inField l r

theorem joinKeyHalves_eq_append (l r : KeyHalf) : joinKeyHalves l r = l ++ r := inField_or_inField l r

/-- Settles O4: the halves are fields of half the width, and a join is a concatenation. -/
theorem halvesSplitAndJoin : Obligations.HalvesSplitAndJoin := by
  unfold Obligations.HalvesSplitAndJoin
  refine ⟨fun v => ⟨?_, ?_⟩, fun v => ⟨?_, ?_⟩, fun l r => ?_, fun l r => ?_⟩
  · exact bitsOf_extractLsb' v (lo := 4) (n := 4) (by decide)
  · exact (bitsOf_extractLsb' v (lo := 0) (n := 4) (by decide)).trans (List.take_of_length_le (by simp))
  · exact bitsOf_extractLsb' v (lo := 5) (n := 5) (by decide)
  · exact (bitsOf_extractLsb' v (lo := 0) (n := 5) (by decide)).trans (List.take_of_length_le (by simp))
  · rw [joinHalves_eq_append, bitsOf_append]
  · rw [joinKeyHalves_eq_append, bitsOf_append]

end Sys2Proof.Machine
end

section
/-! PROOFS. The six tables, the inverse pair IP and IPINV, and the two rotations of a key half (R94 to R99, R101, R103). -/

namespace Sys2Proof.Machine

theorem bitsOf_ip (v : Block) : bitsOf (ip v) = tableIP.map (bitAt v) := bitsOf_wire tableIP v

theorem bitsOf_ipInv (v : Block) : bitsOf (ipInv v) = tableIPINV.map (bitAt v) := bitsOf_wire tableIPINV v

theorem bitsOf_ep (v : Half) : bitsOf (ep v) = tableEP.map (bitAt v) := bitsOf_wire tableEP v

theorem bitsOf_sp (v : Half) : bitsOf (sp v) = tableSP.map (bitAt v) := bitsOf_wire tableSP v

theorem bitsOf_p10 (v : Key) : bitsOf (p10 v) = tableP10.map (bitAt v) := bitsOf_wire tableP10 v

theorem bitsOf_p8 (v : BitVec 10) : bitsOf (p8 v) = tableP8.map (bitAt v) := bitsOf_wire tableP8 v

/-- If reading `table` at the entries of `inv` counts 1 to `n`, then `inv` undoes `table` on `n`-bit vectors. -/
theorem permute_inverse {n : Nat} (v : BitVec n) {table inv : List Nat}
    (h : inv.map (entryAt table) = (List.range' 1 n).map some) : permute (table.map (bitAt v)) inv = some (bitsOf v) := by
  rw [bitsOf_eq_map_range']
  exact permute_map (bitAt v) h

/-- IPINV names, for each position of the input, where IP has put it (R101). -/
theorem ipInv_ip (v : Block) : ipInv (ip v) = v := by
  have hUndo : permute (bitsOf (ip v)) tableIPINV = some (bitsOf v) := by
    rw [bitsOf_ip]
    exact permute_inverse v (by decide)
  exact bitsOf_injective (Option.some.inj ((permute_ipInv (ip v)).symm.trans hUndo))

/-- IP names, for each position of the input, where IPINV has put it (R101). -/
theorem ip_ipInv (v : Block) : ip (ipInv v) = v := by
  have hUndo : permute (bitsOf (ipInv v)) tableIP = some (bitsOf v) := by
    rw [bitsOf_ipInv]
    exact permute_inverse v (by decide)
  exact bitsOf_injective (Option.some.inj ((permute_ip (ipInv v)).symm.trans hUndo))

/-- The rotation of a key half is the generic one on its bits (R92, R103). -/
theorem bitsOf_rotateKeyHalf (v : KeyHalf) (shift : Nat) :
    bitsOf (rotateKeyHalf v shift) = rotateLeft (bitsOf v) shift := by
  rw [rotateLeft_eq_rotate]
  apply List.ext_getElem
  · simp
  · intro i h1 _
    have hi : i < 5 := by simpa using h1
    simp [List.getElem_rotate, getElem_bitsOf, bitAt, rotateKeyHalf, BitVec.getMsbD_rotateLeft, hi, Nat.add_comm]

/-- Settles O5: each wiring is its table read by `bitsOf_wire`; what is left is about the six tables and the examples. -/
theorem fixedWiringsFollowTables : Obligations.FixedWiringsFollowTables := by
  unfold Obligations.FixedWiringsFollowTables
  exact ⟨⟨rfl, by decide, bitsOf_ip, by decide, by decide⟩,
    ⟨rfl, by decide, bitsOf_ipInv, ipInv_ip, by decide, by decide⟩,
    ⟨rfl, by decide, bitsOf_ep, by decide, by decide⟩,
    ⟨rfl, by decide, bitsOf_sp, by decide, by decide⟩,
    ⟨rfl, by decide, bitsOf_p10, by decide⟩,
    ⟨rfl, by decide, bitsOf_p8, by decide⟩⟩

/-- Settles O6: IPINV and IP undo each other, and the wirings and rotations have the bits the generic functions give. -/
theorem wiringsAgreeWithGeneric : Obligations.WiringsAgreeWithGeneric := by
  unfold Obligations.WiringsAgreeWithGeneric
  exact ⟨fun v => ⟨ipInv_ip v, ip_ipInv v, permute_ip v, permute_ipInv v⟩, fun v => ⟨permute_ep v, permute_sp v⟩,
    fun v => ⟨permute_p10 v, permute_p8 v⟩, fun v => ⟨bitsOf_rotateKeyHalf v 1, bitsOf_rotateKeyHalf v 2,
      (bitsOf_rotateKeyHalf v 1).symm, (bitsOf_rotateKeyHalf v 2).symm⟩⟩

end Sys2Proof.Machine
end

section
/-! PROOFS. The key schedule (R110 to R113): its steps on bit sequences, the cumulative rotations, and the round keys as wirings of
the master key. -/

namespace Sys2Proof.Machine

theorem bitsOf_leftKeyHalf (v : BitVec 10) : bitsOf (leftKeyHalf v) = (bitsOf v).take 5 := by
  obtain ⟨-, hKeyHalves, -, -⟩ := halvesSplitAndJoin
  exact (hKeyHalves v).1

theorem bitsOf_rightKeyHalf (v : BitVec 10) : bitsOf (rightKeyHalf v) = (bitsOf v).drop 5 := by
  obtain ⟨-, hKeyHalves, -, -⟩ := halvesSplitAndJoin
  exact (hKeyHalves v).2

theorem bitsOf_joinKeyHalves (l r : KeyHalf) : bitsOf (joinKeyHalves l r) = bitsOf l ++ bitsOf r := by
  rw [joinKeyHalves_eq_append, bitsOf_append]

/-- Settles O7: each wiring and rotation of the model has the bits of the generic function at that step. -/
theorem keyScheduleFollowsSteps : Obligations.KeyScheduleFollowsSteps := by
  unfold Obligations.KeyScheduleFollowsSteps
  refine ⟨fun key => ⟨bitsOf (p10 key), permute_p10 key, ?_⟩, by decide, by decide, by decide⟩
  simp only [← bitsOf_leftKeyHalf, ← bitsOf_rightKeyHalf, ← bitsOf_rotateKeyHalf, ← bitsOf_joinKeyHalves]
  exact ⟨permute_p8 _, permute_p8 _⟩

/-- Rotations of a key half are cumulative (R111). -/
theorem rotateKeyHalf_rotateKeyHalf (h : KeyHalf) (a b : Nat) :
    rotateKeyHalf (rotateKeyHalf h a) b = rotateKeyHalf h (a + b) := by
  apply bitsOf_injective
  simp only [bitsOf_rotateKeyHalf, rotateLeft_eq_rotate, List.rotate_rotate]

/-- The left half of P10's output, rotated: the first five entries of its table, rotated, say which key bits it holds. -/
theorem bitsOf_rotated_left (k : Key) (shift : Nat) :
    bitsOf (rotateKeyHalf (leftKeyHalf (p10 k)) shift) = ((tableP10.take 5).rotate shift).map (bitAt k) := by
  rw [bitsOf_rotateKeyHalf, rotateLeft_eq_rotate, bitsOf_leftKeyHalf, bitsOf_p10, ← List.map_take, List.map_rotate]

/-- The right half of P10's output, rotated: the last five entries of its table, rotated. -/
theorem bitsOf_rotated_right (k : Key) (shift : Nat) :
    bitsOf (rotateKeyHalf (rightKeyHalf (p10 k)) shift) = ((tableP10.drop 5).rotate shift).map (bitAt k) := by
  rw [bitsOf_rotateKeyHalf, rotateLeft_eq_rotate, bitsOf_rightKeyHalf, bitsOf_p10, ← List.map_drop, List.map_rotate]

/-- P8 of the two halves, each rotated by `shift`: the positions P8's table reads in the two rotated halves of P10's table. -/
theorem bitsOf_p8_rotated (k : Key) (shift : Nat) {positions : List Nat}
    (h : tableP8.map (entryAt ((tableP10.take 5).rotate shift ++ (tableP10.drop 5).rotate shift)) = positions.map some) :
    bitsOf (p8 (joinKeyHalves (rotateKeyHalf (leftKeyHalf (p10 k)) shift) (rotateKeyHalf (rightKeyHalf (p10 k)) shift))) =
      positions.map (bitAt k) := by
  apply Option.some.inj
  rw [← permute_p8, bitsOf_joinKeyHalves, bitsOf_rotated_left, bitsOf_rotated_right, ← List.map_append]
  exact permute_map (bitAt k) h

/-- The positions of the master key that K1 holds, in order (R112). -/
def k1Positions : List Nat := [1, 7, 9, 4, 8, 3, 10, 6]

/-- The positions of the master key that K2 holds, in order (R113). -/
def k2Positions : List Nat := [8, 3, 6, 5, 10, 2, 9, 1]

theorem bitsOf_k1 (k : Key) : bitsOf (keySchedule k).k1 = k1Positions.map (bitAt k) :=
  bitsOf_p8_rotated k 1 (by decide)

theorem bitsOf_k2 (k : Key) : bitsOf (keySchedule k).k2 = k2Positions.map (bitAt k) := by
  simp only [keySchedule, rotateKeyHalf_rotateKeyHalf]
  exact bitsOf_p8_rotated k 3 (by decide)

/-- Settles O8: each vector holds the key bits its table of positions names. -/
theorem roundKeysAsWirings : Obligations.RoundKeysAsWirings := by
  unfold Obligations.RoundKeysAsWirings
  exact ⟨fun h => rotateKeyHalf_rotateKeyHalf h 1 2, fun k => ⟨bitsOf_p10 k, bitsOf_rotated_left k 1,
    bitsOf_rotated_right k 1, bitsOf_k1 k, bitsOf_rotated_left k 3, bitsOf_rotated_right k 3, bitsOf_k2 k⟩⟩

end Sys2Proof.Machine
end

section
/-! PROOFS. What the round keys say about the master key (R115). -/

namespace Sys2Proof.Machine

/-- Wirings of the same positions are equal exactly when their inputs agree on the positions they hold; `listed` names those
positions in any order. -/
theorem eq_iff_agree_on_positions {m n : Nat} {k k' : BitVec m} {v v' : BitVec n} {positions listed : List Nat}
    (hv : bitsOf v = positions.map (bitAt k)) (hv' : bitsOf v' = positions.map (bitAt k'))
    (hListed : positions.Perm listed) : v = v' ↔ ∀ i ∈ listed, bitAt k i = bitAt k' i := by
  calc v = v' ↔ bitsOf v = bitsOf v' := ⟨congrArg bitsOf, bitsOf_injective⟩
    _ ↔ ∀ i ∈ positions, bitAt k i = bitAt k' i := by rw [hv, hv', List.map_inj_left]
    _ ↔ ∀ i ∈ listed, bitAt k i = bitAt k' i := by simp only [hListed.mem_iff]

theorem k1_eq_iff (k k' : Key) : (keySchedule k).k1 = (keySchedule k').k1 ↔
    ∀ i ∈ [1, 3, 4, 6, 7, 8, 9, 10], bitAt k i = bitAt k' i :=
  eq_iff_agree_on_positions (bitsOf_k1 k) (bitsOf_k1 k') (by decide)

theorem k2_eq_iff (k k' : Key) : (keySchedule k).k2 = (keySchedule k').k2 ↔
    ∀ i ∈ [1, 2, 3, 5, 6, 8, 9, 10], bitAt k i = bitAt k' i :=
  eq_iff_agree_on_positions (bitsOf_k2 k) (bitsOf_k2 k') (by decide)

/-- Every position of the key is held by K1 or by K2, so keys with the same pair agree everywhere (R115). -/
theorem keySchedule_injective {k k' : Key} (h : keySchedule k = keySchedule k') : k = k' := by
  have hK1 := (k1_eq_iff k k').1 (congrArg KeyPair.k1 h)
  have hK2 := (k2_eq_iff k k').1 (congrArg KeyPair.k2 h)
  have hHeld : ∀ i ∈ List.range' 1 10, i ∈ [1, 3, 4, 6, 7, 8, 9, 10] ∨ i ∈ [1, 2, 3, 5, 6, 8, 9, 10] := by decide
  refine (eq_iff_agree_on_positions (bitsOf_eq_map_range' k) (bitsOf_eq_map_range' k') (.refl _)).2 fun i hi => ?_
  exact (hHeld i hi).elim (hK1 i) (hK2 i)

/-- Settles O9: a round key determines the positions it holds, and the pair holds them all. -/
theorem keyPairDeterminesKey : Obligations.KeyPairDeterminesKey := by
  unfold Obligations.KeyPairDeterminesKey
  exact ⟨fun _ _ => keySchedule_injective, k1_eq_iff, k2_eq_iff⟩

end Sys2Proof.Machine
end

section
/-! PROOFS. The command KEYINFO (R114). -/

namespace Sys2Proof.Machine

/-- KEYINFO's word, all other fields 0, decodes to KEYINFO of its key field (R62, R114). -/
theorem decode_commandWord_keyinfo (key : Key) : decode (commandWord 0x3 0 0 key 0 0) = .ok (.keyinfo key) := by
  calc decode (commandWord 0x3 0 0 key 0 0)
      = .ok (rowKeyinfo.read (commandWord 0x3 0 0 key 0 0)) :=
        decode_of_match (by simp [opRows]) (Laws.EncodesRow.keyinfo key)
    _ = .ok (.keyinfo key) := by simp [rowKeyinfo]

/-- Settles O33: the word is KEYINFO's, the answer is `exec_keyinfo`, and the example is the answer to the key it decodes to. -/
theorem keyinfoAnswers : Obligations.KeyinfoAnswers := by
  unfold Obligations.KeyinfoAnswers
  refine ⟨decode_commandWord_keyinfo, exec_keyinfo, fun s => ?_⟩
  have hWord : decode 0x32820000 = .ok (.keyinfo 0b1010000010) := by decide
  have hAnswer : rspWord .ok (keySchedule 0b1010000010).k1 (keySchedule 0b1010000010).k2 = 0x0000A443 := by decide
  rw [execWord_of_decode_ok hWord, exec_keyinfo, State.respond, hAnswer, State.pushResponse]

end Sys2Proof.Machine
end

section
/-! PROOFS. The round function (R125 to R134): its steps on bit sequences, and the derived tables. -/

namespace Sys2Proof.Machine

/-- A position of a vector is the entry of its bit sequence; outside the vector both are `false`. -/
theorem bitAt_eq_getD_bitsOf {n : Nat} (v : BitVec n) (i : Nat) : bitAt v i = (bitsOf v).getD (i - 1) false := by
  by_cases h : i - 1 < n
  · simp [bitsOf, bitAt, h]
  · have hOut := BitVec.getMsbD_of_ge v (i - 1) (Nat.le_of_not_lt h)
    simp [bitsOf, bitAt, h, hOut]

theorem bitAt_leftHalf (v : BitVec 8) {i : Nat} (h1 : 1 ≤ i) (h4 : i ≤ 4) : bitAt (leftHalf v) i = bitAt v i := by
  rw [leftHalf, bitAt_extractLsb' v 4 h1 h4, bitAt_eq_getLsbD v h1 (by omega)]

theorem bitAt_rightHalf (v : BitVec 8) {i : Nat} (h1 : 1 ≤ i) (h4 : i ≤ 4) :
    bitAt (rightHalf v) i = bitAt v (4 + i) := by
  have hPos : 0 + 4 - i = 8 - (4 + i) := by omega
  rw [rightHalf, bitAt_extractLsb' v 0 h1 h4, bitAt_eq_getLsbD v (by omega) (by omega), hPos]

/-- Expansion and key mixing: position `i` of EP's output against that of the round key (R125, R126). -/
theorem bitAt_ep_xor (right : Half) (k : RoundKey) (i : Nat) :
    bitAt (ep right ^^^ k) i = ((tableEP.map (bitAt right)).getD (i - 1) false ^^ bitAt k i) := by
  rw [← bitsOf_ep, ← bitAt_eq_getD_bitsOf]
  exact BitVec.getMsbD_xor

/-- An S-box as a list of its rows, each the list of its entries as integers (R129, R130). -/
def SBox.rows (s : SBox) : List (List Nat) := s.toList.map fun row => row.toList.map Fin.val

theorem rows_sbox1 : SBox.rows sbox1 = [[1, 0, 3, 2], [3, 2, 1, 0], [0, 2, 1, 3], [3, 1, 0, 2]] := rfl

theorem rows_sbox2 : SBox.rows sbox2 = [[0, 1, 2, 3], [2, 3, 1, 0], [3, 0, 1, 2], [2, 1, 0, 3]] := rfl

theorem sboxRead_val (s : SBox) (row col : Fin 4) : (sboxRead s row col).val = (s.rows.getD row []).getD col 0 := by
  simp [sboxRead, SBox.rows]

/-- `vec_2(e)`: the bit of weight 2 first, then the bit of weight 1 (R131). -/
theorem bitsOf_vecOf_two : ∀ e : Fin 4, bitsOf (vecOf 2 e.val) = [decide (e.val / 2 = 1), decide (e.val % 2 = 1)] := by
  decide

/-- The entry that a half of bits `b1 b2 b3 b4` selects: the outer bits give the row, the inner bits the column (R128). -/
def SBox.entry (s : SBox) (b1 b2 b3 b4 : Bool) : Nat :=
  (s.rows.getD (2 * b1.toNat + b4.toNat) []).getD (2 * b2.toNat + b3.toNat) 0

/-- The S-box output is the selected entry's two bits (R131). -/
theorem bitsOf_sboxOut (s : SBox) (h : Half) :
    bitsOf (sboxOut s h) =
      [decide (s.entry (bitAt h 1) (bitAt h 2) (bitAt h 3) (bitAt h 4) / 2 = 1),
        decide (s.entry (bitAt h 1) (bitAt h 2) (bitAt h 3) (bitAt h 4) % 2 = 1)] := by
  rw [sboxOut, bitsOf_vecOf_two, sboxRead_val]
  rfl

theorem joinPairs_eq_append (a b : BitVec 2) : joinPairs a b = a ++ b := inField_or_inField a b

theorem bitsOf_joinPairs (a b : BitVec 2) : bitsOf (joinPairs a b) = bitsOf a ++ bitsOf b := by
  rw [joinPairs_eq_append, bitsOf_append]

/-- The final permutation reads its input's bit sequence at the positions of SP (R132). -/
theorem bitsOf_sp_getD (v : Half) : bitsOf (sp v) = tableSP.map fun i => (bitsOf v).getD (i - 1) false := by
  simp only [bitsOf_sp, ← bitAt_eq_getD_bitsOf]

/-- F permutes the joined outputs of S1 on the left half and S2 on the right half of the mixed vector (R133). -/
theorem bitsOf_roundF (right : Half) (k : RoundKey) :
    bitsOf (roundF right k) = tableSP.map fun i =>
      (bitsOf (sboxOut sbox1 (leftHalf (ep right ^^^ k))) ++ bitsOf (sboxOut sbox2 (rightHalf (ep right ^^^ k)))).getD
        (i - 1) false := by
  rw [← bitsOf_joinPairs]
  exact bitsOf_sp_getD _

/-- Settles O10: SP and the two S-box outputs by their bits, then the bits of the mixed vector that index the two tables. -/
theorem roundFunctionFollowsSteps : Obligations.RoundFunctionFollowsSteps := by
  unfold Obligations.RoundFunctionFollowsSteps
  refine ⟨fun right k => ?_, by decide, by decide, by decide⟩
  rw [bitsOf_roundF, bitsOf_sboxOut, bitsOf_sboxOut]
  simp only [bitAt_leftHalf, bitAt_rightHalf, Nat.reduceLeDiff, Nat.reduceAdd, bitAt_ep_xor, SBox.entry,
    rows_sbox1, rows_sbox2]
  rfl

/-- Settles O11: each of the six tables is a closed list of 16 entries, and is computed. -/
theorem derivedFunctionTables : Obligations.DerivedFunctionTables := by
  unfold Obligations.DerivedFunctionTables
  exact ⟨by decide, by decide, by decide, by decide, by decide, by decide⟩

end Sys2Proof.Machine
end

section
/-! PROOFS. The Feistel rounds and the block functions in both directions (R140 to R145). -/

namespace Sys2Proof.Machine

theorem fk_eq (l r : Half) (k : RoundKey) : fk l r k = (l ^^^ roundF r k, r) := rfl

/-- The combiner masks the left half twice with the same value (R140). -/
theorem fk_fk (l r : Half) (k : RoundKey) : fk (fk l r k).1 (fk l r k).2 k = (l, r) := by
  rw [fk_eq, fk_eq, xor_cancel_right]

theorem sw_eq (l r : Half) : sw (l, r) = (r, l) := rfl

/-- `Crypt` from the halves of IP's output and the masks of the two rounds (R142). -/
theorem crypt_of_rounds {block : Block} {l r f1 f2 : Half} {ka kb : RoundKey} (hIp : ip block = joinHalves l r)
    (h1 : roundF r ka = f1) (h2 : roundF (l ^^^ f1) kb = f2) :
    crypt block ka kb = ipInv (joinHalves (r ^^^ f2) (l ^^^ f1)) := by
  simp only [crypt, fk_eq, sw_eq, hIp, leftHalf_join, rightHalf_join, h1, h2]

/-- Settles O12: the combiner undoes itself by `fk_fk`, and the swap and the steps of `Crypt` are their definitions. -/
theorem feistelRounds : Obligations.FeistelRounds := by
  unfold Obligations.FeistelRounds
  exact ⟨fun l r k => ⟨fk_eq l r k, fk_fk l r k⟩, sw_eq, fun _ _ _ => ⟨rfl, rfl⟩⟩

/-- `Crypt` with the round keys exchanged undoes `Crypt`: IP brings back `L2 || R2`, round 1 takes off the mask of round 2, and
round 2 that of round 1. Of F this uses only that it is a function (R145). -/
theorem crypt_crypt (block : Block) (ka kb : RoundKey) : crypt (crypt block ka kb) kb ka = block := by
  obtain ⟨l, r, hIp⟩ : ∃ l r, ip block = joinHalves l r := ⟨_, _, (join_halves _).symm⟩
  obtain ⟨f1, h1⟩ : ∃ f1, roundF r ka = f1 := ⟨_, rfl⟩
  obtain ⟨f2, h2⟩ : ∃ f2, roundF (l ^^^ f1) kb = f2 := ⟨_, rfl⟩
  have hUnmasked : roundF (r ^^^ f2 ^^^ f2) ka = f1 := by rw [xor_cancel_right, h1]
  calc crypt (crypt block ka kb) kb ka
      = crypt (ipInv (joinHalves (r ^^^ f2) (l ^^^ f1))) kb ka := by rw [crypt_of_rounds hIp h1 h2]
    _ = ipInv (joinHalves (l ^^^ f1 ^^^ f1) (r ^^^ f2 ^^^ f2)) := crypt_of_rounds (ip_ipInv _) h2 hUnmasked
    _ = block := by rw [xor_cancel_right, xor_cancel_right, ← hIp, ipInv_ip]

theorem encrypt_eq (plain : Block) (key : Key) :
    encrypt plain key = crypt plain (keySchedule key).k1 (keySchedule key).k2 := rfl

theorem decrypt_eq (cipher : Block) (key : Key) :
    decrypt cipher key = crypt cipher (keySchedule key).k2 (keySchedule key).k1 := rfl

theorem decrypt_encrypt (b : Block) (key : Key) : decrypt (encrypt b key) key = b := crypt_crypt b _ _

theorem encrypt_decrypt (b : Block) (key : Key) : encrypt (decrypt b key) key = b := crypt_crypt b _ _

/-- Settles O14: both orders are `crypt_crypt`, once with the round keys (K1, K2) and once with (K2, K1). -/
theorem decryptUndoesEncrypt : Obligations.DecryptUndoesEncrypt := by
  unfold Obligations.DecryptUndoesEncrypt
  exact fun b key => ⟨decrypt_encrypt b key, encrypt_decrypt b key⟩

/-- R143's worked example, round by round. -/
theorem encrypt_worked_example : encrypt 0b10111101 0b1010000010 = 0b10000111 := by
  have hKeys : keySchedule 0b1010000010 = ⟨0b10100100, 0b01000011⟩ := by decide
  have hIp : ip 0b10111101 = joinHalves 0b0111 0b1110 := by decide
  have hF1 : roundF 0b1110 0b10100100 = 0b0010 := by decide
  have hF2 : roundF 0b0101 0b01000011 = 0b1011 := by decide
  rw [encrypt_eq, hKeys]
  exact crypt_of_rounds hIp hF1 hF2

/-- R144's worked example undoes R143's. -/
theorem decrypt_worked_example : decrypt 0b10000111 0b1010000010 = 0b10111101 := by
  rw [← encrypt_worked_example, decrypt_encrypt]

/-- The all-zero block under the all-zero key (R143). -/
theorem encrypt_zero_zero : encrypt 0b00000000 0b0000000000 = 0b11110000 := by
  have hKeys : keySchedule 0b0000000000 = ⟨0b00000000, 0b00000000⟩ := by decide
  rw [encrypt_eq, hKeys]
  decide

/-- Settles O13: the two orders of the round keys are the definitions, and the decryption examples undo the encryption examples. -/
theorem roundKeyOrder : Obligations.RoundKeyOrder := by
  unfold Obligations.RoundKeyOrder
  refine ⟨encrypt_eq, decrypt_eq, by decide, by decide, by decide, by decide, encrypt_worked_example, by decide,
    decrypt_worked_example, encrypt_zero_zero, ?_⟩
  rw [← encrypt_zero_zero, decrypt_encrypt]

end Sys2Proof.Machine
end

section
/-! PROOFS. The keys whose two round keys are equal (R146). -/

namespace Sys2Proof.Machine

theorem bitsOf_ofBits (l : List Bool) : bitsOf (ofBits l) = l := by
  apply List.ext_getElem
  · simp
  · intro i h1 h2
    simp [bitsOf, bitAt, ofBits, BitVec.getMsbD_ofBoolListBE, h2]

/-- The key with `a` at positions 1, 6, 8, 9 and 10, `b` at 2, 3 and 7, and `c` at 4 and 5: what is left free when K1 and K2 agree
place by place. -/
def equalPairKey (a b c : Bool) : Key := ofBits [a, b, b, c, c, a, b, a, a, a]

theorem eq_equalPairKey_of_positions {key : Key} (h : k1Positions.map (bitAt key) = k2Positions.map (bitAt key)) :
    key = equalPairKey (bitAt key 1) (bitAt key 2) (bitAt key 4) := by
  simp only [k1Positions, k2Positions, List.map_cons, List.map_nil, List.cons.injEq, and_true] at h
  obtain ⟨h18, h73, h96, h45, -, h32, hTenNine, h61⟩ := h
  apply bitsOf_injective
  rw [equalPairKey, bitsOf_ofBits, bitsOf_eq_map_range']
  simp [List.range', ← h32, h73, ← h45, h61, ← h18, h96, hTenNine]

theorem positions_equalPairKey (a b c : Bool) :
    k1Positions.map (bitAt (equalPairKey a b c)) = k2Positions.map (bitAt (equalPairKey a b c)) := by
  simp [k1Positions, k2Positions, bitAt_eq_getD_bitsOf, equalPairKey, bitsOf_ofBits]

theorem k1_eq_k2_iff_equalPairKey (key : Key) :
    (keySchedule key).k1 = (keySchedule key).k2 ↔ ∃ a b c, key = equalPairKey a b c := by
  have hPositions : (keySchedule key).k1 = (keySchedule key).k2 ↔
      k1Positions.map (bitAt key) = k2Positions.map (bitAt key) := by
    rw [← bitsOf_k1, ← bitsOf_k2]
    exact ⟨congrArg bitsOf, bitsOf_injective⟩
  rw [hPositions]
  constructor
  · exact fun h => ⟨_, _, _, eq_equalPairKey_of_positions h⟩
  · rintro ⟨a, b, c, rfl⟩
    exact positions_equalPairKey a b c

theorem toNat_equalPairKey_mem :
    ∀ a b c, (equalPairKey a b c).toNat ∈ [0, 96, 392, 488, 535, 631, 927, 1023] := by
  decide

theorem exists_toNat_equalPairKey_eq :
    ∀ n ∈ [0, 96, 392, 488, 535, 631, 927, 1023], ∃ a b c, (equalPairKey a b c).toNat = n := by
  decide

/-- The three free bits give the eight keys of R146. -/
theorem k1_eq_k2_iff_toNat_mem (key : Key) : (keySchedule key).k1 = (keySchedule key).k2 ↔
    key.toNat ∈ [0, 96, 392, 488, 535, 631, 927, 1023] := by
  rw [k1_eq_k2_iff_equalPairKey]
  constructor
  · rintro ⟨a, b, c, rfl⟩
    exact toNat_equalPairKey_mem a b c
  · intro h
    obtain ⟨a, b, c, hKey⟩ := exists_toNat_equalPairKey_eq key.toNat h
    exact ⟨a, b, c, (BitVec.eq_of_toNat_eq hKey).symm⟩

end Sys2Proof.Machine
end

section
/-! PROOFS. F under two round keys, and the two block functions as permutations that differ unless K1 and K2 agree (R146). -/

namespace Sys2Proof.Machine

/-- No nonzero difference of inputs leaves every output of the S-box as it is. -/
def SBox.NoPeriod (s : SBox) : Prop := ∀ d : Half, (∀ x, sboxOut s (x ^^^ d) = sboxOut s x) → d = 0

theorem sbox1_noPeriod : SBox.NoPeriod sbox1 := by
  unfold SBox.NoPeriod
  decide

theorem sbox2_noPeriod : SBox.NoPeriod sbox2 := by
  unfold SBox.NoPeriod
  decide

/-- An S-box without a period determines what is mixed into all its inputs. -/
theorem SBox.NoPeriod.eq_of_mixed_eq {s : SBox} (hs : s.NoPeriod) {a a' : Half}
    (h : ∀ x, sboxOut s (x ^^^ a) = sboxOut s (x ^^^ a')) : a = a' := by
  refine (BitVec.xor_eq_zero_iff.1 (hs (a' ^^^ a) fun x => ?_)).symm
  calc sboxOut s (x ^^^ (a' ^^^ a)) = sboxOut s (x ^^^ a' ^^^ a) := by rw [BitVec.xor_assoc]
    _ = sboxOut s (x ^^^ a' ^^^ a') := h (x ^^^ a')
    _ = sboxOut s x := by rw [xor_cancel_right]

theorem sp_injective : Function.Injective sp := by
  unfold Function.Injective
  decide

theorem joinPairs_inj {a a' b b' : BitVec 2} (h : joinPairs a b = joinPairs a' b') : a = a' ∧ b = b' := by
  have hBits : bitsOf a ++ bitsOf b = bitsOf a' ++ bitsOf b' := by rw [← bitsOf_joinPairs, h, bitsOf_joinPairs]
  obtain ⟨ha, hb⟩ := List.append_inj hBits (by simp)
  exact ⟨bitsOf_injective ha, bitsOf_injective hb⟩

theorem leftHalf_xor (v w : BitVec 8) : leftHalf (v ^^^ w) = leftHalf v ^^^ leftHalf w := BitVec.extractLsb'_xor

theorem rightHalf_xor (v w : BitVec 8) : rightHalf (v ^^^ w) = rightHalf v ^^^ rightHalf w := BitVec.extractLsb'_xor

/-- Each half of EP's table names all four positions, so each half of its output takes every value (R96). -/
theorem exists_leftHalf_ep (x : Half) : ∃ r, leftHalf (ep r) = x := by
  revert x
  decide

theorem exists_rightHalf_ep (x : Half) : ∃ r, rightHalf (ep r) = x := by
  revert x
  decide

/-- F answers the same only where both S-boxes do (R131 to R133). -/
theorem sboxOut_eq_of_roundF_eq {r : Half} {k k' : RoundKey} (h : roundF r k = roundF r k') :
    sboxOut sbox1 (leftHalf (ep r) ^^^ leftHalf k) = sboxOut sbox1 (leftHalf (ep r) ^^^ leftHalf k') ∧
      sboxOut sbox2 (rightHalf (ep r) ^^^ rightHalf k) = sboxOut sbox2 (rightHalf (ep r) ^^^ rightHalf k') := by
  simp only [← leftHalf_xor, ← rightHalf_xor]
  exact joinPairs_inj (sp_injective h)

/-- Two round keys under which F is the same function are equal, half by half. -/
theorem roundKey_eq_of_roundF_eq {k k' : RoundKey} (h : ∀ r, roundF r k = roundF r k') : k = k' := by
  have hLeft : leftHalf k = leftHalf k' := sbox1_noPeriod.eq_of_mixed_eq fun x => by
    obtain ⟨r, rfl⟩ := exists_leftHalf_ep x
    exact (sboxOut_eq_of_roundF_eq (h r)).1
  have hRight : rightHalf k = rightHalf k' := sbox2_noPeriod.eq_of_mixed_eq fun x => by
    obtain ⟨r, rfl⟩ := exists_rightHalf_ep x
    exact (sboxOut_eq_of_roundF_eq (h r)).2
  rw [← join_halves k, hLeft, hRight, join_halves]

/-- `R2` is the left half masked by round 1 alone (R142). -/
theorem rightHalf_ip_crypt (block : Block) (ka kb : RoundKey) :
    rightHalf (ip (crypt block ka kb)) = leftHalf (ip block) ^^^ roundF (rightHalf (ip block)) ka := by
  rw [crypt_of_rounds (join_halves _).symm rfl rfl, ip_ipInv, rightHalf_join]

/-- If the order of two round keys makes no difference to `Crypt`, round 1 gives `R2` the same mask under both, whatever `R0` is. -/
theorem roundKey_eq_of_crypt_comm {ka kb : RoundKey} (h : ∀ b, crypt b ka kb = crypt b kb ka) : ka = kb := by
  refine roundKey_eq_of_roundF_eq fun r => ?_
  have hR2 := congrArg (fun c => rightHalf (ip c)) (h (ipInv (joinHalves 0 r)))
  simpa [rightHalf_ip_crypt, ip_ipInv] using hR2

theorem encrypt_eq_decrypt_iff (key : Key) :
    (∀ b, encrypt b key = decrypt b key) ↔ (keySchedule key).k1 = (keySchedule key).k2 := by
  refine ⟨roundKey_eq_of_crypt_comm, fun h b => ?_⟩
  rw [encrypt_eq, decrypt_eq, h]

/-- Settles O15: functions that undo each other are bijective, the keys of equal round keys are the `equalPairKey`s, and
if the two block functions are the same then the order of the round keys makes no difference to `Crypt`. -/
theorem encryptIsBijective : Obligations.EncryptIsBijective := by
  unfold Obligations.EncryptIsBijective
  refine ⟨fun key => ?_, k1_eq_k2_iff_toNat_mem, encrypt_eq_decrypt_iff⟩
  have hDecEnc : Function.LeftInverse (fun b => decrypt b key) (fun b => encrypt b key) := (decrypt_encrypt · key)
  have hEncDec : Function.RightInverse (fun b => decrypt b key) (fun b => encrypt b key) := (encrypt_decrypt · key)
  exact ⟨⟨hDecEnc.injective, hEncDec.surjective⟩, ⟨hEncDec.injective, hDecEnc.surjective⟩, hDecEnc, hEncDec⟩

end Sys2Proof.Machine
end

section
/-! PROOFS. The commands ENC and DEC (R147, R148). -/

namespace Sys2Proof.Machine

theorem rowOf_mem_opRows (i : Instr) : rowOf i ∈ opRows := by
  cases i <;> simp [rowOf, opRows]

/-- The word of a command stands in the command's row, so it decodes to the command if the row reads the operands back
(R62, R63). -/
theorem decode_encode_of_read {i : Instr} (hRow : Laws.EncodesRow.Statement i) (hRead : (rowOf i).read (encode i) = i) :
    decode (encode i) = .ok i := by
  rw [decode_of_match (rowOf_mem_opRows i) hRow, hRead]

/-- A word whose command only responds leaves the state as it was but for that response in `RSPQ` (R63, R65). -/
theorem execWord_of_exec_respond {w : CmdWord} {i : Instr} {s : State} {st : Status} {hi lo : BitVec 8} {r : RspWord}
    (hWord : decode w = .ok i) (hExec : exec i s = .next (s.respond st hi lo)) (hAnswer : rspWord st hi lo = r) :
    execWord w s = .next { s with rspq := s.rspq ++ [r] } := by
  rw [execWord_of_decode_ok hWord, hExec, State.respond, hAnswer, State.pushResponse]

/-- ENC's word, all other fields 0, decodes to ENC of its operands. -/
theorem decode_commandWord_enc (blk : Block) (key : Key) :
    decode (commandWord 0x1 0 0 key 0 blk) = .ok (.enc blk key) :=
  decode_encode_of_read (Laws.EncodesRow.enc blk key) (by simp [rowOf, rowEnc, encode])

/-- DEC's word, all other fields 0, decodes to DEC of its operands. -/
theorem decode_commandWord_dec (blk : Block) (key : Key) :
    decode (commandWord 0x2 0 0 key 0 blk) = .ok (.dec blk key) :=
  decode_encode_of_read (Laws.EncodesRow.dec blk key) (by simp [rowOf, rowDec, encode])

/-- Settles O31: the word is ENC's, the answer is `exec_enc`, and the example answers R143's worked encryption. -/
theorem encAnswers : Obligations.EncAnswers := by
  unfold Obligations.EncAnswers
  refine ⟨decode_commandWord_enc, exec_enc, fun s => ?_⟩
  have hWord : decode 0x128200BD = .ok (.enc 0b10111101 0b1010000010) := by decide
  have hAnswer : rspWord .ok 0 (encrypt 0b10111101 0b1010000010) = 0x00000087 := by
    rw [encrypt_worked_example]
    decide
  exact execWord_of_exec_respond hWord (exec_enc _ _ s) hAnswer

/-- Settles O32: the word is DEC's, the answer is `exec_dec`, and the example answers R144's worked decryption. -/
theorem decAnswers : Obligations.DecAnswers := by
  unfold Obligations.DecAnswers
  refine ⟨decode_commandWord_dec, exec_dec, fun s => ?_⟩
  have hWord : decode 0x22820087 = .ok (.dec 0b10000111 0b1010000010) := by decide
  have hAnswer : rspWord .ok 0 (decrypt 0b10000111 0b1010000010) = 0x000000BD := by
    rw [decrypt_worked_example]
    decide
  exact execWord_of_exec_respond hWord (exec_dec _ _ s) hAnswer

end Sys2Proof.Machine
end

section
/-! PROOFS. StreamMap (R160): one block function on each byte, which decryption undoes. -/

namespace Sys2Proof.Machine

/-- `StreamMap` is one function of the direction and the key on each byte (R160). -/
theorem streamMap_eq_map (dir : Dir) (key : Key) (bytes : List Block) :
    streamMap dir key bytes = bytes.map (cryptDir dir (keySchedule key)) := by
  cases dir <;> rfl

@[simp] theorem length_streamMap (dir : Dir) (key : Key) (bytes : List Block) :
    (streamMap dir key bytes).length = bytes.length := by
  rw [streamMap_eq_map, List.length_map]

theorem streamMap_decrypt_encrypt (key : Key) (bytes : List Block) :
    streamMap .decrypt key (streamMap .encrypt key bytes) = bytes := by
  simp [streamMap, Function.comp_def, decrypt_encrypt]

theorem streamMap_encrypt_decrypt (key : Key) (bytes : List Block) :
    streamMap .encrypt key (streamMap .decrypt key bytes) = bytes := by
  simp [streamMap, Function.comp_def, encrypt_decrypt]

/-- The round keys of key 642, under which the rules' examples run (R110). -/
theorem keySchedule_642 : keySchedule 0b1010000010 = ⟨0b10100100, 0b01000011⟩ := by decide

/-- The two bytes of "Hi" under the round keys of key 642 (R160, R162). -/
theorem crypt_hi : crypt 0x48 0b10100100 0b01000011 = 0xC4 ∧ crypt 0x69 0b10100100 0b01000011 = 0xC7 := by decide

/-- R160's example. -/
theorem streamMap_hi : streamMap .encrypt 0b1010000010 [0x48, 0x69] = [0xC4, 0xC7] := by
  obtain ⟨hH, hI⟩ := crypt_hi
  simp only [streamMap_eq_map, keySchedule_642, List.map_cons, List.map_nil, cryptDir_encrypt, hH, hI]

/-- Settles O16: `StreamMap` is a `map`, and the two block functions undo each other byte by byte. -/
theorem streamMapIsPerByte : Obligations.StreamMapIsPerByte := by
  unfold Obligations.StreamMapIsPerByte
  refine ⟨fun dir key bytes => ⟨length_streamMap dir key bytes, fun i b hb => ?_⟩, fun dir key => ?_,
    streamMap_decrypt_encrypt, streamMap_hi⟩
  · cases dir <;> simp [streamMap, hb]
  · rw [streamMap_eq_map, List.map_nil]

end Sys2Proof.Machine
end

section
/-! PROOFS. The byte-stream commands SOPEN, SBYTE and SCLOSE (R161 to R163). -/

namespace Sys2Proof.Machine

/-- SOPEN's word, its `D` field the direction's bit and all fields but `KEY` 0, decodes to SOPEN of its operands. -/
theorem decode_commandWord_sopen (dir : Dir) (key : Key) :
    decode (commandWord 0x4 (bitOfDir dir) 0 key 0 0) = .ok (.sopen dir key) :=
  decode_encode_of_read (Laws.EncodesRow.sopen dir key) (by cases dir <;> simp [rowOf, rowSopen, encode, bitOfDir, dirOfBit])

/-- SBYTE's word, all other fields 0, decodes to SBYTE of its byte. -/
theorem decode_commandWord_sbyte (blk : Block) : decode (commandWord 0x5 0 0 0 0 blk) = .ok (.sbyte blk) :=
  decode_encode_of_read (Laws.EncodesRow.sbyte blk) (by simp [rowOf, rowSbyte, encode])

theorem exec_sopen_closed (d : Dir) (key : Key) (s : State) (h : s.sOpen = false) :
    exec (.sopen d key) s = .next ((s.openStream d (keySchedule key)).respond .ok 0 0) :=
  execSopen_closed d key s (s.sOpen_eq_false_iff.1 h)

theorem exec_sopen_open (d : Dir) (key : Key) (s : State) (h : s.sOpen = true) :
    exec (.sopen d key) s = .next (s.respondError .errBusy) := by
  obtain ⟨c, hc⟩ := s.sOpen_eq_true_iff.1 h
  exact execSopen_open d key s c hc

theorem exec_sclose_open (s : State) (h : s.sOpen = true) :
    exec .sclose s = .next (s.closeStream.respond .ok 0 0) := by
  obtain ⟨c, hc⟩ := s.sOpen_eq_true_iff.1 h
  exact execSclose_open s c hc

theorem exec_sclose_closed (s : State) (h : s.sOpen = false) :
    exec .sclose s = .next (s.respondError .errNoStream) :=
  execSclose_closed s (s.sOpen_eq_false_iff.1 h)

/-- Settles O34: the branches are SOPEN's two answers, and in the example the second SOPEN meets the stream of the first. -/
theorem sopenOpensOrIsRefused : Obligations.SopenOpensOrIsRefused := by
  unfold Obligations.SopenOpensOrIsRefused
  refine ⟨fun key => ⟨decode_commandWord_sopen .encrypt key, decode_commandWord_sopen .decrypt key⟩,
    exec_sopen_closed, exec_sopen_open, fun s hs => ?_⟩
  have hFirst : decode 0x42820000 = .ok (.sopen .encrypt 0b1010000010) := by decide
  have hSecond : decode 0x48000000 = .ok (.sopen .decrypt 0) := by decide
  have hOk : rspWord .ok 0 0 = 0x00000000 := by decide
  have hBusy : rspWord .errBusy 0 0 = 0x20000000 := by decide
  have hAnswer := exec_sopen_closed .encrypt 0b1010000010 s hs
  rw [keySchedule_642] at hAnswer
  refine ⟨_, (execWord_of_decode_ok hFirst s).trans hAnswer, ?_, rfl, rfl, rfl, rfl, ?_⟩
  · rw [State.respond_rspq, State.openStream_rspq, hOk]
  · exact execWord_of_exec_respond hSecond (exec_sopen_open _ _ _ rfl) hBusy

/-- Settles O36: the branches are SCLOSE's two answers, and in the example the second SCLOSE meets no stream. -/
theorem scloseDiscardsTheStream : Obligations.ScloseDiscardsTheStream := by
  unfold Obligations.ScloseDiscardsTheStream
  have hWord : decode 0x60000000 = .ok .sclose := by decide
  have hOk : rspWord .ok 0 0 = 0x00000000 := by decide
  have hNoStream : rspWord .errNoStream 0 0 = 0x30000000 := by decide
  refine ⟨hWord, exec_sclose_open, exec_sclose_closed, fun s hs => ?_⟩
  refine ⟨_, (execWord_of_decode_ok hWord s).trans (exec_sclose_open s hs), ?_, rfl, rfl, rfl, rfl, ?_⟩
  · rw [State.respond_rspq, State.closeStream_rspq, hOk]
  · exact execWord_of_exec_respond hWord (exec_sclose_closed _ rfl) hNoStream

theorem cryptDir_eq_ite (dir : Dir) (kp : KeyPair) (b : Block) :
    cryptDir dir kp b = if dir = .encrypt then crypt b kp.k1 kp.k2 else crypt b kp.k2 kp.k1 := by
  cases dir <;> rfl

/-- The SBYTEs of an open stream are answered in order, each by its own byte, and the stream stays as it was (R162). -/
theorem execAll_sbytes (bytes : List Block) {c : StreamCtx} {s : State} (h : s.stream = some c) :
    execAll (bytes.map Instr.sbyte) s =
      some { s with rspq := s.rspq ++ (bytes.map (cryptDir c.dir c.keys)).map (rspWord .ok 0) } := by
  induction bytes generalizing s with
  | nil => simp [execAll]
  | cons b bs ih =>
    have hRest := ih (s := s.respond .ok 0 (cryptDir c.dir c.keys b)) h
    simp only [List.map_cons, execAll, exec_sbyte_open b s c h, hRest]
    simp [State.respond, State.pushResponse]

/-- Settles O35: the open branch is `exec_sbyte_open`, and a stream opened under a key latches that key's round keys, so the
answers to its bytes are the `map` that `StreamMap` is. -/
theorem sbyteTransformsOneByte : Obligations.SbyteTransformsOneByte := by
  unfold Obligations.SbyteTransformsOneByte
  refine ⟨decode_commandWord_sbyte, fun blk c s hs => ?_,
    fun blk s hs => exec_sbyte_closed blk s (s.sOpen_eq_false_iff.1 hs), fun d key bytes s t hs ht => ?_, fun s hs => ?_⟩
  · rw [exec_sbyte_open blk s c hs, cryptDir_eq_ite]
    rfl
  · rw [exec_sopen_closed d key s hs] at ht
    cases ht
    rw [streamMap_eq_map]
    exact execAll_sbytes bytes (c := ⟨d, (keySchedule key).k1, (keySchedule key).k2⟩) rfl
  · obtain ⟨hH, hI⟩ := crypt_hi
    have hWordH : decode 0x50000048 = .ok (.sbyte 0x48) := by decide
    have hWordI : decode 0x50000069 = .ok (.sbyte 0x69) := by decide
    have hAnswerH : rspWord .ok 0 (crypt 0x48 0b10100100 0b01000011) = 0x000000C4 := by rw [hH]; decide
    have hAnswerI : rspWord .ok 0 (crypt 0x69 0b10100100 0b01000011) = 0x000000C7 := by rw [hI]; decide
    exact ⟨execWord_of_exec_respond hWordH (exec_sbyte_open _ s _ hs) hAnswerH,
      execWord_of_exec_respond hWordI (exec_sbyte_open _ s _ hs) hAnswerI⟩

end Sys2Proof.Machine
end

section
/-! PROOFS. Strict UTF-8 one sequence at a time (R167): the nine forms by the number of bytes, and the code point of each. -/

namespace Sys2Proof.Machine

/-- A sequence of bytes has one of the nine forms of R167. -/
def IsSeq (q : List Block) : Prop := isUtf8Seq (q.map BitVec.toNat) = true

/-- The code point a sequence of 1 to 4 bytes spells: the low bits of the first byte, then six bits of each other (R167). -/
def pointOf (q : List Block) : Nat :=
  match q.map BitVec.toNat with
  | [a] => a
  | [a, b] => a % 32 * 64 + b % 64
  | [a, b, c] => a % 16 * 4096 + b % 64 * 64 + c % 64
  | [a, b, c, d] => a % 8 * 262144 + b % 64 * 4096 + c % 64 * 64 + d % 64
  | _ => 0

theorem hasForm_map_toNat_iff (form : List (Nat × Nat)) (q : List Block) :
    hasForm form (q.map BitVec.toNat) = true ↔
      List.Forall₂ (fun (b : Block) (range : Nat × Nat) => range.1 ≤ b.toNat ∧ b.toNat ≤ range.2) q form := by
  induction form generalizing q with
  | nil => cases q <;> simp [hasForm]
  | cons range form ih => cases q <;> simp [hasForm, ih]

/-- A sequence is well formed when each byte is in its range of one of the forms. -/
theorem isSeq_iff (q : List Block) : IsSeq q ↔ ∃ form ∈ utf8Forms,
    List.Forall₂ (fun (b : Block) (range : Nat × Nat) => range.1 ≤ b.toNat ∧ b.toNat ≤ range.2) q form := by
  simp only [IsSeq, isUtf8Seq, List.any_eq_true, hasForm_map_toNat_iff]

section
variable (b0 b1 b2 b3 : Block)

theorem isSeq_one_iff : IsSeq [b0] ↔ b0.toNat ≤ 0x7F := by
  simp [IsSeq, isUtf8Seq, utf8Forms, hasForm]

theorem isSeq_two_iff : IsSeq [b0, b1] ↔
    (0xC2 ≤ b0.toNat ∧ b0.toNat ≤ 0xDF) ∧ 0x80 ≤ b1.toNat ∧ b1.toNat ≤ 0xBF := by
  simp [IsSeq, isUtf8Seq, utf8Forms, hasForm]

theorem isSeq_three_iff : IsSeq [b0, b1, b2] ↔
    (0xE0 ≤ b0.toNat ∧ b0.toNat ≤ 0xEF) ∧ (0x80 ≤ b1.toNat ∧ b1.toNat ≤ 0xBF) ∧
      (b0.toNat = 0xE0 → 0xA0 ≤ b1.toNat) ∧ (b0.toNat = 0xED → b1.toNat ≤ 0x9F) ∧
      0x80 ≤ b2.toNat ∧ b2.toNat ≤ 0xBF := by
  simp only [IsSeq, isUtf8Seq, utf8Forms, hasForm, List.map_cons, List.map_nil, List.any_cons, List.any_nil,
    Bool.or_eq_true, Bool.and_eq_true, decide_eq_true_eq, Bool.false_eq_true, or_false, false_or, and_false, and_true]
  omega

theorem isSeq_four_iff : IsSeq [b0, b1, b2, b3] ↔
    (0xF0 ≤ b0.toNat ∧ b0.toNat ≤ 0xF4) ∧ (0x80 ≤ b1.toNat ∧ b1.toNat ≤ 0xBF) ∧
      (b0.toNat = 0xF0 → 0x90 ≤ b1.toNat) ∧ (b0.toNat = 0xF4 → b1.toNat ≤ 0x8F) ∧
      (0x80 ≤ b2.toNat ∧ b2.toNat ≤ 0xBF) ∧ 0x80 ≤ b3.toNat ∧ b3.toNat ≤ 0xBF := by
  simp only [IsSeq, isUtf8Seq, utf8Forms, hasForm, List.map_cons, List.map_nil, List.any_cons, List.any_nil,
    Bool.or_eq_true, Bool.and_eq_true, decide_eq_true_eq, Bool.false_eq_true, or_false, false_or, and_false, and_true]
  omega

end

/-- A well-formed sequence has 1 to 4 bytes. -/
theorem IsSeq.length_cases {q : List Block} (h : IsSeq q) :
    (∃ b0, q = [b0]) ∨ (∃ b0 b1, q = [b0, b1]) ∨ (∃ b0 b1 b2, q = [b0, b1, b2]) ∨
      ∃ b0 b1 b2 b3, q = [b0, b1, b2, b3] := by
  match q with
  | [] => simp [IsSeq, isUtf8Seq, utf8Forms, hasForm] at h
  | [b0] => exact .inl ⟨b0, rfl⟩
  | [b0, b1] => exact .inr (.inl ⟨b0, b1, rfl⟩)
  | [b0, b1, b2] => exact .inr (.inr (.inl ⟨b0, b1, b2, rfl⟩))
  | [b0, b1, b2, b3] => exact .inr (.inr (.inr ⟨b0, b1, b2, b3, rfl⟩))
  | b0 :: b1 :: b2 :: b3 :: b4 :: rest => simp [IsSeq, isUtf8Seq, utf8Forms, hasForm] at h

/-! ### The encoder of one code point -/

theorem isScalar_iff (c : Nat) : isScalar c = true ↔ c ≤ 0x10FFFF ∧ ¬ (0xD800 ≤ c ∧ c ≤ 0xDFFF) :=
  decide_eq_true_iff

theorem utf8EncodePoint_one {c : Nat} (h : c ≤ 0x7F) : utf8EncodePoint c = some [byteOf c] := by
  have hScalar : isScalar c = true := (isScalar_iff c).2 (by omega)
  simp [utf8EncodePoint, hScalar, h]

theorem utf8EncodePoint_two {c : Nat} (hlo : 0x80 ≤ c) (hhi : c ≤ 0x7FF) :
    utf8EncodePoint c = some [byteOf (0xC0 + c / 64), byteOf (0x80 + c % 64)] := by
  have hScalar : isScalar c = true := (isScalar_iff c).2 (by omega)
  have h1 : ¬ c ≤ 0x7F := by omega
  simp [utf8EncodePoint, hScalar, h1, hhi]

theorem utf8EncodePoint_three {c : Nat} (hlo : 0x800 ≤ c) (hhi : c ≤ 0xFFFF) (hs : ¬ (0xD800 ≤ c ∧ c ≤ 0xDFFF)) :
    utf8EncodePoint c = some [byteOf (0xE0 + c / 4096), byteOf (0x80 + c / 64 % 64), byteOf (0x80 + c % 64)] := by
  have hScalar : isScalar c = true := (isScalar_iff c).2 (by omega)
  have h1 : ¬ c ≤ 0x7F := by omega
  have h2 : ¬ c ≤ 0x7FF := by omega
  simp [utf8EncodePoint, hScalar, h1, h2, hhi]

theorem utf8EncodePoint_four {c : Nat} (hlo : 0x10000 ≤ c) (hhi : c ≤ 0x10FFFF) :
    utf8EncodePoint c = some [byteOf (0xF0 + c / 262144), byteOf (0x80 + c / 4096 % 64), byteOf (0x80 + c / 64 % 64),
      byteOf (0x80 + c % 64)] := by
  have hScalar : isScalar c = true := (isScalar_iff c).2 (by omega)
  have h1 : ¬ c ≤ 0x7F := by omega
  have h2 : ¬ c ≤ 0x7FF := by omega
  have h3 : ¬ c ≤ 0xFFFF := by omega
  simp [utf8EncodePoint, hScalar, h1, h2, h3]

/-- A code point has an encoding exactly when it is a scalar value (R167). -/
theorem isSome_utf8EncodePoint_iff (c : Nat) : (utf8EncodePoint c).isSome = true ↔ isScalar c = true := by
  unfold utf8EncodePoint
  cases isScalar c with
  | false => simp
  | true => simp only [Bool.not_true, Bool.false_eq_true, if_false]; split_ifs <;> simp

@[simp] theorem toNat_byteOf (x : Nat) : (byteOf x).toNat = x % 256 := BitVec.toNat_ofNat x 8

/-- The bytes of a scalar value are a well-formed sequence that spells it (R167). -/
theorem isSeq_and_pointOf_of_utf8EncodePoint {c : Nat} {q : List Block} (h : utf8EncodePoint c = some q) :
    IsSeq q ∧ pointOf q = c := by
  have hScalar := (isScalar_iff c).1 ((isSome_utf8EncodePoint_iff c).1 (by rw [h]; rfl))
  have hRange : c ≤ 0x7F ∨ (0x80 ≤ c ∧ c ≤ 0x7FF) ∨ (0x800 ≤ c ∧ c ≤ 0xFFFF) ∨ 0x10000 ≤ c := by omega
  obtain h1 | h2 | h3 | h4 := hRange
  · cases (utf8EncodePoint_one h1).symm.trans h
    simp only [isSeq_one_iff, pointOf, List.map_cons, List.map_nil, toNat_byteOf]
    omega
  · cases (utf8EncodePoint_two h2.1 h2.2).symm.trans h
    simp only [isSeq_two_iff, pointOf, List.map_cons, List.map_nil, toNat_byteOf]
    omega
  · cases (utf8EncodePoint_three h3.1 h3.2 hScalar.2).symm.trans h
    simp only [isSeq_three_iff, pointOf, List.map_cons, List.map_nil, toNat_byteOf]
    omega
  · cases (utf8EncodePoint_four h4 hScalar.1).symm.trans h
    simp only [isSeq_four_iff, pointOf, List.map_cons, List.map_nil, toNat_byteOf]
    omega

theorem byteOf_eq_of_toNat {x : Nat} {b : Block} (h : x = b.toNat) : byteOf x = b := by
  rw [h, byteOf, BitVec.ofNat_toNat, BitVec.setWidth_eq]

/-- The code point of a well-formed sequence is encoded as that sequence: no other spelling of it is well formed (R167). -/
theorem IsSeq.utf8EncodePoint_pointOf {q : List Block} (h : IsSeq q) : utf8EncodePoint (pointOf q) = some q := by
  obtain ⟨b0, rfl⟩ | ⟨b0, b1, rfl⟩ | ⟨b0, b1, b2, rfl⟩ | ⟨b0, b1, b2, b3, rfl⟩ := h.length_cases <;>
    simp only [pointOf, List.map_cons, List.map_nil]
  · rw [isSeq_one_iff] at h
    rw [utf8EncodePoint_one h, byteOf_eq_of_toNat rfl]
  · rw [isSeq_two_iff] at h
    rw [utf8EncodePoint_two (by omega) (by omega), byteOf_eq_of_toNat (b := b0) (by omega),
      byteOf_eq_of_toNat (b := b1) (by omega)]
  · rw [isSeq_three_iff] at h
    rw [utf8EncodePoint_three (by omega) (by omega) (by omega), byteOf_eq_of_toNat (b := b0) (by omega),
      byteOf_eq_of_toNat (b := b1) (by omega), byteOf_eq_of_toNat (b := b2) (by omega)]
  · rw [isSeq_four_iff] at h
    rw [utf8EncodePoint_four (by omega) (by omega), byteOf_eq_of_toNat (b := b0) (by omega),
      byteOf_eq_of_toNat (b := b1) (by omega), byteOf_eq_of_toNat (b := b2) (by omega),
      byteOf_eq_of_toNat (b := b3) (by omega)]

/-- The encodings of code points are exactly the well-formed sequences (R167). -/
theorem utf8EncodePoint_eq_some_iff (c : Nat) (q : List Block) :
    utf8EncodePoint c = some q ↔ IsSeq q ∧ pointOf q = c := by
  refine ⟨isSeq_and_pointOf_of_utf8EncodePoint, ?_⟩
  rintro ⟨hq, rfl⟩
  exact hq.utf8EncodePoint_pointOf

end Sys2Proof.Machine
end

section
/-! PROOFS. `utf8_encode` and `utf8_decode` of whole texts: both relate a text to the bytes that are the concatenation of
well-formed sequences spelling its code points (R167). -/

namespace Sys2Proof.Machine

/-- A text and bytes that spell it: the bytes fall into well-formed sequences, one for each code point. -/
def Spells (bytes : List Block) (text : List Nat) : Prop :=
  ∃ seqs : List (List Block), (∀ q ∈ seqs, IsSeq q) ∧ bytes = seqs.flatten ∧ text = seqs.map pointOf

theorem spells_nil : Spells [] [] := ⟨[], by simp, rfl, rfl⟩

theorem Spells.cons {q : List Block} (hq : IsSeq q) {rest : List Block} {text : List Nat} (h : Spells rest text) :
    Spells (q ++ rest) (pointOf q :: text) := by
  obtain ⟨seqs, hSeqs, rfl, rfl⟩ := h
  exact ⟨q :: seqs, List.forall_mem_cons.2 ⟨hq, hSeqs⟩, rfl, rfl⟩

/-! ### The encoder -/

theorem utf8Encode_cons_eq_some_iff (c : Nat) (cs : List Nat) (bytes : List Block) :
    utf8Encode (c :: cs) = some bytes ↔
      ∃ q rest, utf8EncodePoint c = some q ∧ utf8Encode cs = some rest ∧ bytes = q ++ rest := by
  rw [utf8Encode]
  cases utf8EncodePoint c <;> cases utf8Encode cs <;> simp [eq_comm]

theorem utf8Encode_singleton (c : Nat) : utf8Encode [c] = utf8EncodePoint c := by
  simp only [utf8Encode]
  cases utf8EncodePoint c <;> simp

/-- The encoder relates a text to bytes exactly when the bytes spell it. -/
theorem utf8Encode_eq_some_iff (text : List Nat) (bytes : List Block) :
    utf8Encode text = some bytes ↔ Spells bytes text := by
  constructor
  · intro h
    induction text generalizing bytes with
    | nil => cases h; exact spells_nil
    | cons c cs ih =>
      obtain ⟨q, rest, hq, hRest, rfl⟩ := (utf8Encode_cons_eq_some_iff c cs bytes).1 h
      obtain ⟨hSeq, rfl⟩ := (utf8EncodePoint_eq_some_iff c q).1 hq
      exact (ih rest hRest).cons hSeq
  · rintro ⟨seqs, hSeqs, rfl, rfl⟩
    induction seqs with
    | nil => rfl
    | cons q seqs ih =>
      obtain ⟨hq, hRest⟩ := List.forall_mem_cons.1 hSeqs
      exact (utf8Encode_cons_eq_some_iff _ _ _).2 ⟨q, _, hq.utf8EncodePoint_pointOf, ih hRest, rfl⟩

/-- A text can be encoded exactly when all its code points are scalar values (R167). -/
theorem isSome_utf8Encode_iff (text : List Nat) :
    (utf8Encode text).isSome = true ↔ ∀ c ∈ text, isScalar c = true := by
  induction text with
  | nil => simp [utf8Encode]
  | cons c cs ih =>
    rw [List.forall_mem_cons, ← ih, ← isSome_utf8EncodePoint_iff, utf8Encode]
    cases utf8EncodePoint c <;> cases utf8Encode cs <;> simp

/-- The encoding of a concatenation is the concatenation of the encodings. -/
theorem utf8Encode_append {text text' : List Nat} {bytes bytes' : List Block} (h : utf8Encode text = some bytes)
    (h' : utf8Encode text' = some bytes') : utf8Encode (text ++ text') = some (bytes ++ bytes') := by
  rw [utf8Encode_eq_some_iff] at h h' ⊢
  obtain ⟨seqs, hSeqs, rfl, rfl⟩ := h
  obtain ⟨seqs', hSeqs', rfl, rfl⟩ := h'
  exact ⟨seqs ++ seqs', List.forall_mem_append.2 ⟨hSeqs, hSeqs'⟩, by simp, by simp⟩

/-! ### The decoder -/

theorem consPoint_eq_some_iff (c : Nat) (rest : Option (List Nat)) (text : List Nat) :
    consPoint c rest = some text ↔ ∃ cs, rest = some cs ∧ text = c :: cs := by
  simp [consPoint, eq_comm]

/-- The decoder takes a well-formed sequence off the front: no shorter sequence is well formed (R167). -/
theorem utf8Decode_append {q : List Block} (hq : IsSeq q) (rest : List Block) :
    utf8Decode (q ++ rest) = consPoint (pointOf q) (utf8Decode rest) := by
  obtain ⟨b0, rfl⟩ | ⟨b0, b1, rfl⟩ | ⟨b0, b1, b2, rfl⟩ | ⟨b0, b1, b2, b3, rfl⟩ := hq.length_cases
  · simp only [IsSeq, List.map_cons, List.map_nil] at hq
    rw [List.cons_append, utf8Decode.eq_def]
    simp [hq, pointOf]
  · have h1 : ¬ IsSeq [b0] := by rw [isSeq_two_iff] at hq; rw [isSeq_one_iff]; omega
    simp only [IsSeq, List.map_cons, List.map_nil] at hq h1
    rw [List.cons_append, utf8Decode.eq_def]
    simp [hq, h1, pointOf]
  · have h1 : ¬ IsSeq [b0] := by rw [isSeq_three_iff] at hq; rw [isSeq_one_iff]; omega
    have h2 : ¬ IsSeq [b0, b1] := by rw [isSeq_three_iff] at hq; rw [isSeq_two_iff]; omega
    simp only [IsSeq, List.map_cons, List.map_nil] at hq h1 h2
    rw [List.cons_append, utf8Decode.eq_def]
    simp [hq, h1, h2, pointOf]
  · have h1 : ¬ IsSeq [b0] := by rw [isSeq_four_iff] at hq; rw [isSeq_one_iff]; omega
    have h2 : ¬ IsSeq [b0, b1] := by rw [isSeq_four_iff] at hq; rw [isSeq_two_iff]; omega
    have h3 : ¬ IsSeq [b0, b1, b2] := by rw [isSeq_four_iff] at hq; rw [isSeq_three_iff]; omega
    simp only [IsSeq, List.map_cons, List.map_nil] at hq h1 h2 h3
    rw [List.cons_append, utf8Decode.eq_def]
    simp [hq, h1, h2, h3, pointOf]

/-- A decoded first sequence before a rest whose decoding spells it. -/
theorem Spells.of_consPoint {q rest : List Block} {text : List Nat} (hq : IsSeq q)
    (ih : ∀ {cs : List Nat}, utf8Decode rest = some cs → Spells rest cs)
    (h : consPoint (pointOf q) (utf8Decode rest) = some text) : Spells (q ++ rest) text := by
  obtain ⟨cs, hRest, rfl⟩ := (consPoint_eq_some_iff _ _ _).1 h
  exact (ih hRest).cons hq

/-- What the decoder accepts spells what it gives: it stops only at the end of the bytes or with none. -/
theorem spells_of_utf8Decode {bytes : List Block} {text : List Nat} (h : utf8Decode bytes = some text) :
    Spells bytes text := by
  fun_induction utf8Decode bytes generalizing text with
  | case1 => cases h; exact spells_nil
  | case2 b0 rest hq ih => exact .of_consPoint (q := [b0]) hq ih h
  | case4 b0 _ b1 rest hq ih => exact .of_consPoint (q := [b0, b1]) hq ih h
  | case6 b0 _ b1 _ b2 rest hq ih => exact .of_consPoint (q := [b0, b1, b2]) hq ih h
  | case8 b0 _ b1 _ b2 _ b3 rest hq ih => exact .of_consPoint (q := [b0, b1, b2, b3]) hq ih h
  | case3 | case5 | case7 | case9 => cases h

/-- The decoder relates bytes to a text exactly when they spell it. -/
theorem utf8Decode_eq_some_iff (bytes : List Block) (text : List Nat) :
    utf8Decode bytes = some text ↔ Spells bytes text := by
  refine ⟨spells_of_utf8Decode, ?_⟩
  rintro ⟨seqs, hSeqs, rfl, rfl⟩
  induction seqs with
  | nil => rfl
  | cons q seqs ih =>
    obtain ⟨hq, hRest⟩ := List.forall_mem_cons.1 hSeqs
    rw [List.flatten_cons, utf8Decode_append hq, ih hRest]
    rfl

/-- The decoder is the inverse of the encoder (R167). -/
theorem utf8Decode_eq_some_iff_utf8Encode (bytes : List Block) (text : List Nat) :
    utf8Decode bytes = some text ↔ utf8Encode text = some bytes :=
  (utf8Decode_eq_some_iff bytes text).trans (utf8Encode_eq_some_iff text bytes).symm

/-- The decoder is defined exactly on concatenations of well-formed sequences (R167). -/
theorem isSome_utf8Decode_iff (bytes : List Block) :
    (utf8Decode bytes).isSome = true ↔ ∃ seqs : List (List Block), bytes = seqs.flatten ∧ ∀ q ∈ seqs, IsSeq q := by
  simp only [Option.isSome_iff_exists, utf8Decode_eq_some_iff]
  constructor
  · rintro ⟨text, seqs, hSeqs, hBytes, -⟩
    exact ⟨seqs, hBytes, hSeqs⟩
  · rintro ⟨seqs, hBytes, hSeqs⟩
    exact ⟨_, seqs, hSeqs, hBytes, rfl⟩

end Sys2Proof.Machine
end

section
/-! PROOFS. The text encoding is strict UTF-8 (R167). -/

namespace Sys2Proof.Machine

/-- Fixed leading bits before the low bits of a number, as an integer. -/
theorem toNat_append_vecOf {m : Nat} (p : BitVec m) (n x : Nat) :
    (p ++ vecOf n x).toNat = p.toNat * 2 ^ n + x % 2 ^ n := by
  rw [BitVec.toNat_append, vecOf, BitVec.toNat_ofNat,
    ← Nat.shiftLeft_add_eq_or_of_lt (Nat.mod_lt x (Nat.two_pow_pos n)), Nat.shiftLeft_eq]

/-- A byte of R167's table, fixed leading bits and the low bits of a number, by its integer value. -/
theorem byteOf_eq_append_vecOf {m n x y : Nat} (p : BitVec m) (hWidth : m + n = 8) (h : y = p.toNat * 2 ^ n + x % 2 ^ n) :
    byteOf y = (p ++ vecOf n x).cast hWidth := by
  apply byteOf_eq_of_toNat
  rw [BitVec.toNat_cast, toNat_append_vecOf, h]

/-- A continuation byte holds six bits (R167). -/
theorem byteOf_continuation (x : Nat) : byteOf (0x80 + x % 64) = 0b10#2 ++ vecOf 6 x :=
  byteOf_eq_append_vecOf 0b10#2 rfl rfl

/-- A text with a code point that is no scalar value cannot be encoded, a shape error (R167). -/
theorem encryptText_of_not_scalar {text : List Nat} {c : Nat} (hc : c ∈ text) (hScalar : ¬ isScalar c = true)
    (key : Key) : encryptText text key = .error .shape := by
  have hNone : utf8Encode text = none := by
    rw [← Option.not_isSome_iff_eq_none, isSome_utf8Encode_iff]
    exact fun h => hScalar (h c hc)
  rw [encryptText, hNone]

/-- Settles O57: one code point by the rule's table, whole texts by what spells them, which the encoder and the decoder
share. -/
theorem utf8IsStrict : Obligations.Utf8IsStrict := by
  unfold Obligations.Utf8IsStrict
  refine ⟨fun text => ?_, fun c h => ?_, fun c hlo hhi => ?_, fun c hlo hhi hs => ?_, fun c hlo hhi => ?_,
    fun text text' b b' => utf8Encode_append, fun text bytes => (utf8Decode_eq_some_iff_utf8Encode bytes text).2,
    fun bytes text => (utf8Decode_eq_some_iff_utf8Encode bytes text).1, fun bytes => ?_, ?_⟩
  · simp only [isSome_utf8Encode_iff, isScalar_iff]
  · rw [utf8Encode_singleton, utf8EncodePoint_one h,
      byteOf_eq_append_vecOf (n := 7) (x := c) 0#1 rfl (by rw [BitVec.toNat_ofNat]; omega)]
    rfl
  · rw [utf8Encode_singleton, utf8EncodePoint_two hlo hhi, byteOf_continuation,
      byteOf_eq_append_vecOf (n := 5) (x := c / 64) 0b110#3 rfl (by rw [BitVec.toNat_ofNat]; omega)]
    rfl
  · rw [utf8Encode_singleton, utf8EncodePoint_three hlo hhi hs, byteOf_continuation, byteOf_continuation,
      byteOf_eq_append_vecOf (n := 4) (x := c / 4096) 0b1110#4 rfl (by rw [BitVec.toNat_ofNat]; omega)]
    rfl
  · rw [utf8Encode_singleton, utf8EncodePoint_four hlo hhi, byteOf_continuation, byteOf_continuation, byteOf_continuation,
      byteOf_eq_append_vecOf (n := 3) (x := c / 262144) 0b11110#5 rfl (by rw [BitVec.toNat_ofNat]; omega)]
    rfl
  · simp only [isSome_utf8Decode_iff, isSeq_iff]
    rfl
  · rintro text key ⟨c, hc, hBad⟩
    refine encryptText_of_not_scalar hc ?_ key
    rw [isScalar_iff]
    omega

end Sys2Proof.Machine
end

section
/-! PROOFS. The text functions (R165, R166) and their round trip (R169, R170). -/

namespace Sys2Proof.Machine

theorem byteOf_intOf (b : Block) : byteOf (intOf b) = b := byteOf_eq_of_toNat rfl

theorem map_byteOf_map_intOf (bytes : List Block) : (bytes.map intOf).map byteOf = bytes := by
  simp [Function.comp_def, byteOf_intOf]

theorem map_intOf_map_byteOf {cps : List Nat} (h : ∀ c ∈ cps, c ≤ 255) : (cps.map byteOf).map intOf = cps := by
  have hEach : ∀ c ∈ cps, (intOf ∘ byteOf) c = id c := fun c hc =>
    (toNat_byteOf c).trans (Nat.mod_eq_of_lt (Nat.lt_succ_of_le (h c hc)))
  rw [List.map_map, List.map_congr_left hEach, List.map_id]

theorem intOf_le_255 {bytes : List Block} : ∀ c ∈ bytes.map intOf, c ≤ 255 := by
  rintro c hc
  obtain ⟨b, -, rfl⟩ := List.mem_map.1 hc
  exact Nat.le_of_lt_succ b.isLt

/-- The guard of R169, as a statement about each code point. -/
theorem all_le_255_iff (cps : List Nat) : cps.all (fun c => decide (c ≤ 255)) = true ↔ ∀ c ∈ cps, c ≤ 255 := by
  simp

theorem encryptText_of_utf8Encode {text : List Nat} {bytes : List Block} (h : utf8Encode text = some bytes) (key : Key) :
    encryptText text key = .ok ((streamMap .encrypt key bytes).map intOf) := by
  rw [encryptText, h]

theorem encryptText_eq_ok_iff (text cps : List Nat) (key : Key) : encryptText text key = .ok cps ↔
    ∃ bytes, utf8Encode text = some bytes ∧ cps = (streamMap .encrypt key bytes).map intOf := by
  unfold encryptText
  cases utf8Encode text <;> simp [eq_comm]

section
variable {cps : List Nat} (hBytes : ∀ c ∈ cps, c ≤ 255) {key : Key}
include hBytes

theorem decryptText_of_utf8Decode_some {text : List Nat}
    (h : utf8Decode (streamMap .decrypt key (cps.map byteOf)) = some text) : decryptText cps key = .ok text := by
  rw [decryptText, if_pos ((all_le_255_iff cps).2 hBytes), h]

theorem decryptText_of_utf8Decode_none
    (h : utf8Decode (streamMap .decrypt key (cps.map byteOf)) = none) : decryptText cps key = .error .decoding := by
  rw [decryptText, if_pos ((all_le_255_iff cps).2 hBytes), h]

end

theorem not_all_le_255 {cps : List Nat} (h : ∃ c ∈ cps, 255 < c) : ¬ cps.all (fun c => decide (c ≤ 255)) = true := by
  obtain ⟨c, hc, hBig⟩ := h
  rw [all_le_255_iff]
  exact fun hAll => absurd (hAll c hc) (by omega)

/-- R169: a code point above 255 is no byte. -/
theorem decryptText_of_above_255 {cps : List Nat} (h : ∃ c ∈ cps, 255 < c) (key : Key) :
    decryptText cps key = .error .shape := by
  rw [decryptText, if_neg (not_all_le_255 h)]

/-- R169: a code point above 255 forms no command. -/
theorem decTextCommands_of_above_255 {cps : List Nat} (h : ∃ c ∈ cps, 255 < c) (key : Key) :
    decTextCommands cps key = .error .shape := by
  rw [decTextCommands, if_neg (not_all_le_255 h)]

theorem decryptText_eq_ok_iff (cps text : List Nat) (key : Key) : decryptText cps key = .ok text ↔
    (∀ c ∈ cps, c ≤ 255) ∧ utf8Decode (streamMap .decrypt key (cps.map byteOf)) = some text := by
  constructor
  · intro h
    have hBytes : ∀ c ∈ cps, c ≤ 255 := by
      by_contra hBig
      push Not at hBig
      cases (decryptText_of_above_255 hBig key).symm.trans h
    refine ⟨hBytes, ?_⟩
    cases hDecode : utf8Decode (streamMap .decrypt key (cps.map byteOf)) with
    | none => cases (decryptText_of_utf8Decode_none hBytes hDecode).symm.trans h
    | some text' => cases (decryptText_of_utf8Decode_some hBytes hDecode).symm.trans h; rfl
  · rintro ⟨hBytes, hDecode⟩
    exact decryptText_of_utf8Decode_some hBytes hDecode

/-- Decryption of code points gives a text exactly when encryption of the text gives the code points: the byte maps undo each
other (R160), and so do the encoder and the decoder (R167, R170). -/
theorem decryptText_eq_ok_iff_encryptText (cps text : List Nat) (key : Key) :
    decryptText cps key = .ok text ↔ encryptText text key = .ok cps := by
  rw [decryptText_eq_ok_iff, encryptText_eq_ok_iff]
  constructor
  · rintro ⟨hBytes, hDecode⟩
    refine ⟨_, (utf8Decode_eq_some_iff_utf8Encode _ _).1 hDecode, ?_⟩
    rw [streamMap_encrypt_decrypt, map_intOf_map_byteOf hBytes]
  · rintro ⟨bytes, hEncode, rfl⟩
    refine ⟨intOf_le_255, ?_⟩
    rw [map_byteOf_map_intOf, streamMap_decrypt_encrypt]
    exact (utf8Decode_eq_some_iff_utf8Encode _ _).2 hEncode

/-- Settles O59: both directions of the round trip are `decryptText_eq_ok_iff_encryptText`, and the encryption of a text of
scalar values succeeds since its encoding does. -/
theorem textRoundTrip : Obligations.TextRoundTrip := by
  unfold Obligations.TextRoundTrip
  refine ⟨fun text key hText => ?_, fun cps text key => (decryptText_eq_ok_iff_encryptText cps text key).1,
    fun cps key h => ⟨decryptText_of_above_255 h key, decTextCommands_of_above_255 h key⟩⟩
  have hEncodes : (utf8Encode text).isSome = true := by
    simpa only [isSome_utf8Encode_iff, isScalar_iff] using hText
  obtain ⟨bytes, hBytes⟩ := Option.isSome_iff_exists.1 hEncodes
  have hEncrypt := encryptText_of_utf8Encode hBytes key
  exact ⟨_, hEncrypt, (decryptText_eq_ok_iff_encryptText _ text key).2 hEncrypt⟩

/-! ### The rules' examples (R165, R166) -/

theorem encryptText_hi : encryptText [0x48, 0x69] 0b1010000010 = .ok [0xC4, 0xC7] := by
  have hEncode : utf8Encode [0x48, 0x69] = some [0x48, 0x69] := by decide
  rw [encryptText_of_utf8Encode hEncode, streamMap_hi]
  rfl

theorem encryptText_e_acute : encryptText [0xE9] 0b1010000010 = .ok [0x8A, 0x35] := by
  have hEncode : utf8Encode [0xE9] = some [0xC3, 0xA9] := by decide
  have hMap : streamMap .encrypt 0b1010000010 [0xC3, 0xA9] = [0x8A, 0x35] := by
    rw [streamMap_eq_map, keySchedule_642]
    decide
  rw [encryptText_of_utf8Encode hEncode, hMap]
  rfl

/-- The bytes of "Hi" under key 642 decrypt under the all-zero key to 83 35, which is not UTF-8 (R166). -/
theorem streamMap_hi_key_0 : streamMap .decrypt 0b0000000000 [0xC4, 0xC7] = [0x83, 0x35] := by
  have hKeys : keySchedule 0b0000000000 = ⟨0b00000000, 0b00000000⟩ := by decide
  rw [streamMap_eq_map, hKeys]
  decide

/-- The bytes of "Hi" under key 642 decrypt under key 3 to another text (R166). -/
theorem streamMap_hi_key_3 : streamMap .decrypt 0b0000000011 [0xC4, 0xC7] = [0x27, 0x51] := by
  have hKeys : keySchedule 0b0000000011 = ⟨0b00100010, 0b00001010⟩ := by decide
  rw [streamMap_eq_map, hKeys]
  decide

/-- Settles O58: the clauses are the definitions read through their guards, and each example is an encoding, a byte map and a
decoding. -/
theorem textFunctions : Obligations.TextFunctions := by
  unfold Obligations.TextFunctions
  have hBytes : ∀ c ∈ [0xC4, 0xC7], c ≤ 255 := by decide
  have hMap : [0xC4, 0xC7].map byteOf = [0xC4, 0xC7] := by decide
  refine ⟨fun text key bytes h => ⟨encryptText_of_utf8Encode h key, ?_, intOf_le_255⟩,
    fun cps key h => ⟨decryptText_of_utf8Decode_none h, fun text => decryptText_of_utf8Decode_some h⟩,
    encryptText_hi, encryptText_e_acute, fun key => ?_,
    (decryptText_eq_ok_iff_encryptText _ _ _).2 encryptText_hi, ?_, ?_⟩
  · rw [List.length_map, length_streamMap]
  · rw [encryptText_of_utf8Encode (bytes := []) rfl, streamMap_eq_map]
    rfl
  · refine decryptText_of_utf8Decode_none hBytes ?_
    rw [hMap, streamMap_hi_key_0]
    decide
  · refine decryptText_of_utf8Decode_some hBytes ?_
    rw [hMap, streamMap_hi_key_3]
    decide

end Sys2Proof.Machine
end

section
/-! PROOFS. The command SEARCH (R182). -/

namespace Sys2Proof.Machine

/-- SEARCH's word, all fields but `AUX` and `DATA` 0, decodes to SEARCH of its operands. -/
theorem decode_commandWord_search (plain cipher : Block) :
    decode (commandWord 0x7 0 0 0 cipher plain) = .ok (.search plain cipher) :=
  decode_encode_of_read (Laws.EncodesRow.search plain cipher) (by simp [rowOf, rowSearch, encode])

theorem exec_search_idle (plain cipher : Block) (s : State) (h : s.qBusy = false) :
    exec (.search plain cipher) s = .next ((s.startSearch plain cipher).respond .ok 0 0) :=
  execSearch_idle plain cipher s (s.qBusy_eq_false_iff.1 h)

theorem exec_search_busy (plain cipher : Block) (s : State) (h : s.qBusy = true) :
    exec (.search plain cipher) s = .next (s.respondError .errBusy) := by
  obtain ⟨q, hq⟩ := s.qBusy_eq_true_iff.1 h
  exact execSearch_busy plain cipher s q hq

/-- Settles O37: the branches are SEARCH's two answers, and in the example the second SEARCH meets the search of the first. -/
theorem searchStartsOrIsRefused : Obligations.SearchStartsOrIsRefused := by
  unfold Obligations.SearchStartsOrIsRefused
  refine ⟨decode_commandWord_search, exec_search_idle, exec_search_busy, fun s hs => ?_⟩
  have hWord : decode 0x700087BD = .ok (.search 0b10111101 0b10000111) := by decide
  have hOk : rspWord .ok 0 0 = 0x00000000 := by decide
  have hBusy : rspWord .errBusy 0 0 = 0x20000000 := by decide
  refine ⟨_, (execWord_of_decode_ok hWord s).trans (exec_search_idle _ _ s hs), ?_, rfl, rfl, rfl, rfl, rfl, ?_⟩
  · rw [State.respond_rspq, State.startSearch_rspq, hOk]
  · exact execWord_of_exec_respond hWord (exec_search_busy _ _ _ rfl) hBusy

end Sys2Proof.Machine
end

section
/-! PROOFS. The engine's run from candidate 0, cancelled at a candidate or never (R183, R185). -/

namespace Sys2Proof.Machine

/-- A run that has not ended is continued by the next samples from the context it left. -/
theorem searchRun_append {samples : List Bool} {q q' : SearchCtx} {words : List ResWord}
    (h : searchRun samples q = (words, some q')) (later : List Bool) :
    searchRun (samples ++ later) q = (words ++ (searchRun later q').1, (searchRun later q').2) := by
  induction samples generalizing q words with
  | nil =>
    cases h
    rfl
  | cons cancel rest ih =>
    rw [List.cons_append]
    rcases hAdvance : searchAdvance q cancel with ⟨r, - | next⟩
    · rw [searchRun_of_end rest hAdvance] at h
      cases h
    · rw [searchRun_of_advance rest hAdvance] at h
      obtain ⟨hWords, hNext⟩ := Prod.mk.inj h
      rw [searchRun_of_advance _ hAdvance, ih (Prod.ext rfl hNext), ← hWords, List.append_assoc]

/-- Uncancelled for `n` steps, the engine has tested the candidates below `n` and appended their HITs: by induction on `n`, each
step testing one more candidate (R183, R185). -/
theorem searchRun_uncancelled (p c : Block) {n : Nat} (h : n < 1025) :
    searchRun (List.replicate n false) ⟨p, c, 0⟩ = (hitsBelow p c n, some ⟨p, c, ⟨n, h⟩⟩) := by
  induction n with
  | zero => rfl
  | succ n ih =>
    rw [List.replicate_succ', searchRun_append (ih (by omega)), hitsBelow_succ,
      searchRun_of_advance [] (searchAdvance_tested ⟨p, c, ⟨n, by omega⟩⟩ h)]
    split <;> simp [searchRun]

/-- A step at candidate `n` that ends the search puts its END behind the HITs below `n`. -/
theorem searchRun_of_end_at {p c : Block} {n : Nat} (h : n < 1025) {sample : Bool} {word : ResWord} (later : List Bool)
    (hEnd : searchAdvance ⟨p, c, ⟨n, h⟩⟩ sample = (some word, none)) :
    searchRun (List.replicate n false ++ sample :: later) ⟨p, c, 0⟩ = (hitsBelow p c n ++ [word], none) := by
  rw [searchRun_append (searchRun_uncancelled p c h), searchRun_of_end later hEnd, Option.toList_some]

/-- All candidates tested, the next step ends the search, whatever `CANCEL` is (R183). -/
theorem searchRun_complete (p c : Block) (last : Bool) (later : List Bool) :
    searchRun (List.replicate 1024 false ++ last :: later) ⟨p, c, 0⟩ = (hitsBelow p c 1024 ++ [endWord 0 1024], none) :=
  searchRun_of_end_at (by omega) later (searchAdvance_done _ last rfl)

/-- Settles O49: the run is `searchRun_uncancelled`, ended at candidate `n` by the step that meets `CANCEL`, or at 1024. -/
theorem searchRunIsAPrefix : Obligations.SearchRunIsAPrefix := by
  unfold Obligations.SearchRunIsAPrefix
  refine ⟨fun p c n later hn => ?_, searchRun_complete, fun p c n hn => ?_⟩
  · exact searchRun_of_end_at (by omega) later (searchAdvance_cancelled _ hn)
  · exact ⟨_, rfl, searchRun_uncancelled p c (by omega)⟩

/-- An uncancelled search takes exactly 1025 steps (R183). -/
theorem searchRun_uncancelled_ended_iff (p c : Block) (n : Nat) :
    (searchRun (List.replicate n false) ⟨p, c, 0⟩).2 = none ↔ 1025 ≤ n := by
  rcases Nat.lt_or_ge n 1025 with h | h
  · rw [searchRun_uncancelled p c h]
    exact iff_of_false (Option.some_ne_none _) (Nat.not_le.2 h)
  · obtain ⟨k, rfl⟩ := Nat.exists_eq_add_of_le h
    have hSplit : 1025 + k = 1024 + (k + 1) := by omega
    rw [hSplit, List.replicate_add, List.replicate_succ (n := k), searchRun_complete]
    exact iff_of_true rfl (by omega)

end Sys2Proof.Machine
end

section
/-! PROOFS. The step of agent SRCH (R183). -/

namespace Sys2Proof.Machine

/-- SRCH does nothing while no search runs (R48). -/
theorem srchStep_idle (s : State) (h : s.qBusy = false) : srchStep s = s := by
  simp [srchStep, searchStep?, s.qBusy_eq_false_iff.1 h]

/-- With room in `RESQ`, SRCH appends the word of its step and moves on to the context the step leaves. -/
theorem srchStep_of_word {s : State} {q : SearchCtx} {r : ResWord} {next : Option SearchCtx} (hs : s.search = some q)
    (hRoom : s.resq.length < Config.resDepth) (hAdvance : searchAdvance q s.cancel = (some r, next)) :
    srchStep s = (s.setSearch next).pushResult r := by
  simp [srchStep, searchStep?_some hs, hAdvance, s.resRoom_iff.2 hRoom]

/-- A step that appends no word needs no room in `RESQ` (R48). -/
theorem srchStep_of_no_word {s : State} {q : SearchCtx} {next : Option SearchCtx} (hs : s.search = some q)
    (hAdvance : searchAdvance q s.cancel = (none, next)) : srchStep s = s.setSearch next := by
  simp [srchStep, searchStep?_some hs, hAdvance]

theorem srchStep_done {s : State} {q : SearchCtx} (hs : s.search = some q) (hRoom : s.resq.length < Config.resDepth)
    (hDone : q.cand.val = 1024) : srchStep s = (s.setSearch none).pushResult 0x8400 := by
  have hEnd : endWord 0#1 1024 = 0x8400 := by decide
  rw [srchStep_of_word hs hRoom (searchAdvance_done q s.cancel hDone), hEnd]

theorem srchStep_cancelled {s : State} {q : SearchCtx} (hs : s.search = some q) (hRoom : s.resq.length < Config.resDepth)
    (hCand : q.cand.val < 1024) (hCancel : s.cancel = true) :
    srchStep s = (s.setSearch none).pushResult (endWord 1 q.cand.val) :=
  srchStep_of_word hs hRoom (by rw [hCancel]; exact searchAdvance_cancelled q hCand)

theorem srchStep_hit {s : State} {q : SearchCtx} (hs : s.search = some q) (hRoom : s.resq.length < Config.resDepth)
    (hCancel : s.cancel = false) (hMatch : encrypt q.p (vecOf 10 q.cand.val) = q.c) (h : q.cand.val + 1 < 1025) :
    srchStep s = (s.setSearch (some ⟨q.p, q.c, ⟨q.cand.val + 1, h⟩⟩)).pushResult (hitWord q.cand.val) :=
  srchStep_of_word hs hRoom (by rw [hCancel, searchAdvance_tested q h, if_pos hMatch])

theorem srchStep_miss {s : State} {q : SearchCtx} (hs : s.search = some q) (hCancel : s.cancel = false)
    (hMiss : encrypt q.p (vecOf 10 q.cand.val) ≠ q.c) (h : q.cand.val + 1 < 1025) :
    srchStep s = s.setSearch (some ⟨q.p, q.c, ⟨q.cand.val + 1, h⟩⟩) :=
  srchStep_of_no_word hs (by rw [hCancel, searchAdvance_tested q h, if_neg hMiss])

/-- Settles O47: a clause for each of the step's outcomes; a search just started is at candidate 0, where it can be cancelled. -/
theorem searchStepFollowsItsRule : Obligations.SearchStepFollowsItsRule := by
  unfold Obligations.SearchStepFollowsItsRule
  refine ⟨fun s q => srchStep_done, fun s q => srchStep_cancelled, fun s q hs hRoom hCancel h => ?_,
    fun s q => srchStep_miss, fun s p c hIdle hCancel hRoom => ?_, srchStep_idle, searchRun_uncancelled_ended_iff⟩
  · split
    next hMatch => exact srchStep_hit hs hRoom hCancel hMatch h
    next hMiss =>
      rw [List.append_nil]
      exact srchStep_miss hs hCancel hMiss h
  · have hEnd : endWord 1 0 = 0xC000 := by decide
    refine ⟨_, exec_search_idle p c s hIdle, ?_⟩
    rw [← hEnd]
    exact srchStep_cancelled (q := ⟨p, c, 0⟩) rfl hRoom (Nat.zero_lt_succ _) hCancel

end Sys2Proof.Machine
end

section
/-! PROOFS. The set of keys that a search delivers (R180, R187). -/

namespace Sys2Proof.Machine

theorem mem_searchKeys_iff (p c : Block) (k : Nat) : k ∈ searchKeys p c ↔ k < nKeys ∧ encrypt p (vecOf 10 k) = c := by
  simp [searchKeys, keysBelow]

theorem searchKeys_pairwise_lt (p c : Block) : (searchKeys p c).Pairwise (· < ·) :=
  List.Pairwise.filter _ List.pairwise_lt_range

/-- `vec_n` undoes `int` (R11). -/
theorem vecOf_intOf {n : Nat} (v : BitVec n) : vecOf n (intOf v) = v := by
  rw [vecOf, intOf, BitVec.ofNat_toNat, BitVec.setWidth_eq]

/-- `int` undoes `vec_n` on the numbers that `n` bits hold (R11). -/
theorem intOf_vecOf {n x : Nat} (h : x < 2 ^ n) : intOf (vecOf n x) = x := by
  rw [vecOf, intOf, BitVec.toNat_ofNat, Nat.mod_eq_of_lt h]

theorem eq_vecOf_iff {n x : Nat} (v : BitVec n) (h : x < 2 ^ n) : v = vecOf n x ↔ intOf v = x := by
  constructor
  · rintro rfl
    exact intOf_vecOf h
  · rintro rfl
    exact (vecOf_intOf v).symm

/-- The key that made a pair is in the pair's set (R187). -/
theorem intOf_mem_searchKeys (p : Block) (key : Key) : intOf key ∈ searchKeys p (encrypt p key) :=
  (mem_searchKeys_iff _ _ _).2 ⟨key.isLt, by rw [vecOf_intOf]⟩

/-- The HIT word of each key of the set is among the words of an uncancelled search (R185). -/
theorem hitWord_mem_searchRun {p c : Block} {k : Nat} (h : k ∈ searchKeys p c) :
    hitWord k ∈ (searchRun (List.replicate 1025 false) ⟨p, c, 0⟩).1 := by
  rw [List.replicate_succ', searchRun_complete p c false []]
  exact List.mem_append_left _ (List.mem_map_of_mem h)

/-- The size of a set, as that of the fibre of `Encrypt(P, ·)` over the ciphertext's number. -/
theorem length_searchKeys_vecOf (p : Block) {c : Nat} (h : c < 2 ^ 8) : (searchKeys p (vecOf 8 c)).length =
    ((Finset.range nKeys).filter fun k => intOf (encrypt p (vecOf 10 k)) = c).card := by
  rw [← Finset.filter_congr fun k _ => eq_vecOf_iff (encrypt p (vecOf 10 k)) h]
  rfl

/-- The sets of the 256 ciphertexts part the 1024 keys: each key encrypts the plaintext to one ciphertext (R181). -/
theorem sum_length_searchKeys (p : Block) :
    ((List.range (2 ^ 8)).map fun c => (searchKeys p (vecOf 8 c)).length).sum = nKeys := by
  have hMaps : Set.MapsTo (fun k => intOf (encrypt p (vecOf 10 k))) (Finset.range nKeys : Set Nat) (Finset.range (2 ^ 8)) :=
    fun k _ => Finset.mem_coe.2 (Finset.mem_range.2 (encrypt p (vecOf 10 k)).isLt)
  calc ((List.range (2 ^ 8)).map fun c => (searchKeys p (vecOf 8 c)).length).sum
      = ∑ c ∈ Finset.range (2 ^ 8), (searchKeys p (vecOf 8 c)).length := by
        rw [← List.sum_toFinset _ List.nodup_range, List.toFinset_range]
    _ = ∑ c ∈ Finset.range (2 ^ 8), ((Finset.range nKeys).filter fun k => intOf (encrypt p (vecOf 10 k)) = c).card :=
        Finset.sum_congr rfl fun c hc => length_searchKeys_vecOf p (Finset.mem_range.1 hc)
    _ = (Finset.range nKeys).card := (Finset.card_eq_sum_card_fiberwise hMaps).symm
    _ = nKeys := Finset.card_range _

end Sys2Proof.Machine
end

section
/-! PROOFS. The keys of one pair from both ends: the masks that the two rounds put on the halves are fixed by the plaintext and the
ciphertext, and so are the outputs of the four S-boxes (R133, R142, R180). -/

namespace Sys2Proof.Machine

theorem joinHalves_eq_iff (l r : Half) (v : BitVec 8) : joinHalves l r = v ↔ l = leftHalf v ∧ r = rightHalf v := by
  constructor
  · rintro rfl
    exact ⟨(leftHalf_join l r).symm, (rightHalf_join l r).symm⟩
  · rintro ⟨rfl, rfl⟩
    exact join_halves v

theorem ipInv_eq_iff (v c : Block) : ipInv v = c ↔ v = ip c := by
  constructor
  · rintro rfl
    exact (ip_ipInv v).symm
  · rintro rfl
    exact ipInv_ip c

/-- `Crypt` maps a block of halves `l`, `r` after IP to one of halves `l'`, `r'` exactly if round 1 masks `l` to `r'` and round 2,
which reads `r'`, masks `r` to `l'` (R142). -/
theorem crypt_eq_iff {b c : Block} {l r l' r' : Half} (hB : ip b = joinHalves l r) (hC : ip c = joinHalves l' r')
    (ka kb : RoundKey) : crypt b ka kb = c ↔ roundF r ka = l ^^^ r' ∧ roundF r' kb = r ^^^ l' := by
  rw [crypt_of_rounds hB rfl rfl, ipInv_eq_iff, hC, joinHalves_eq_iff, leftHalf_join, rightHalf_join]
  rw [and_comm, and_congr_right fun hOne => by rw [hOne], xor_eq_iff_right_eq, xor_eq_iff_right_eq]

/-- F's output fixes the output of each S-box (R131 to R133). -/
theorem roundF_eq_iff {r out x1 x2 : Half} {y1 y2 : BitVec 2} (hEp : ep r = joinHalves x1 x2)
    (hOut : out = sp (joinPairs y1 y2)) (k : RoundKey) :
    roundF r k = out ↔ sboxOut sbox1 (x1 ^^^ leftHalf k) = y1 ∧ sboxOut sbox2 (x2 ^^^ rightHalf k) = y2 := by
  have hRound : roundF r k =
      sp (joinPairs (sboxOut sbox1 (x1 ^^^ leftHalf k)) (sboxOut sbox2 (x2 ^^^ rightHalf k))) := by
    simp only [roundF, leftHalf_xor, rightHalf_xor, hEp, leftHalf_join, rightHalf_join]
  rw [hRound, hOut, sp_injective.eq_iff]
  exact ⟨joinPairs_inj, fun ⟨h1, h2⟩ => by rw [h1, h2]⟩

theorem bitsOf_leftHalf (v : BitVec 8) : bitsOf (leftHalf v) = (bitsOf v).take 4 := by
  obtain ⟨hHalves, -⟩ := halvesSplitAndJoin
  exact (hHalves v).1

theorem bitsOf_rightHalf (v : BitVec 8) : bitsOf (rightHalf v) = (bitsOf v).drop 4 := by
  obtain ⟨hHalves, -⟩ := halvesSplitAndJoin
  exact (hHalves v).2

/-- The two halves of K1, by positions of the master key (R112). -/
theorem halves_k1 (key : Key) :
    leftHalf (keySchedule key).k1 = ofBits [bitAt key 1, bitAt key 7, bitAt key 9, bitAt key 4] ∧
      rightHalf (keySchedule key).k1 = ofBits [bitAt key 8, bitAt key 3, bitAt key 10, bitAt key 6] :=
  ⟨bitsOf_injective (by rw [bitsOf_leftHalf, bitsOf_k1, bitsOf_ofBits]; rfl),
    bitsOf_injective (by rw [bitsOf_rightHalf, bitsOf_k1, bitsOf_ofBits]; rfl)⟩

/-- The two halves of K2, by positions of the master key (R113). -/
theorem halves_k2 (key : Key) :
    leftHalf (keySchedule key).k2 = ofBits [bitAt key 8, bitAt key 3, bitAt key 6, bitAt key 5] ∧
      rightHalf (keySchedule key).k2 = ofBits [bitAt key 10, bitAt key 2, bitAt key 9, bitAt key 1] :=
  ⟨bitsOf_injective (by rw [bitsOf_leftHalf, bitsOf_k2, bitsOf_ofBits]; rfl),
    bitsOf_injective (by rw [bitsOf_rightHalf, bitsOf_k2, bitsOf_ofBits]; rfl)⟩

/-- R180's example from both ends: what the four S-boxes must answer, each to a known half mixed with four bits of the key. -/
theorem encrypt_example_iff (key : Key) : encrypt 0b10111101 key = 0b10000111 ↔
    (sboxOut sbox1 (0b0111 ^^^ ofBits [bitAt key 1, bitAt key 7, bitAt key 9, bitAt key 4]) = 0b00 ∧
      sboxOut sbox2 (0b1101 ^^^ ofBits [bitAt key 8, bitAt key 3, bitAt key 10, bitAt key 6]) = 0b10) ∧
    (sboxOut sbox1 (0b1010 ^^^ ofBits [bitAt key 8, bitAt key 3, bitAt key 6, bitAt key 5]) = 0b11 ∧
      sboxOut sbox2 (0b1010 ^^^ ofBits [bitAt key 10, bitAt key 2, bitAt key 9, bitAt key 1]) = 0b10) := by
  have hPlain : ip 0b10111101 = joinHalves 0b0111 0b1110 := by decide
  have hCipher : ip 0b10000111 = joinHalves 0b0101 0b0101 := by decide
  have hEp1 : ep 0b1110 = joinHalves 0b0111 0b1101 := by decide
  have hMask1 : (0b0111 ^^^ 0b0101 : Half) = sp (joinPairs 0b00 0b10) := by decide
  have hEp2 : ep 0b0101 = joinHalves 0b1010 0b1010 := by decide
  have hMask2 : (0b1110 ^^^ 0b0101 : Half) = sp (joinPairs 0b11 0b10) := by decide
  obtain ⟨hLeft1, hRight1⟩ := halves_k1 key
  obtain ⟨hLeft2, hRight2⟩ := halves_k2 key
  rw [encrypt_eq, crypt_eq_iff hPlain hCipher, roundF_eq_iff hEp1 hMask1, roundF_eq_iff hEp2 hMask2, hLeft1, hRight1,
    hLeft2, hRight2]

/-- The ten keys of R180's example. -/
def exampleKeys : List Nat := [308, 380, 384, 456, 563, 566, 635, 638, 642, 714]

/-- The key bits that give the four S-boxes of R180's example their answers: each S-box leaves four of its sixteen inputs, and the
later ones share bits with the earlier. -/
theorem exampleKeys_of_sboxes : ∀ b1 b7 b9 b4, sboxOut sbox1 (0b0111 ^^^ ofBits [b1, b7, b9, b4]) = 0b00 →
    ∀ b8 b3 b10 b6, sboxOut sbox2 (0b1101 ^^^ ofBits [b8, b3, b10, b6]) = 0b10 →
    ∀ b5, sboxOut sbox1 (0b1010 ^^^ ofBits [b8, b3, b6, b5]) = 0b11 →
    ∀ b2, sboxOut sbox2 (0b1010 ^^^ ofBits [b10, b2, b9, b1]) = 0b10 →
    intOf (ofBits [b1, b2, b3, b4, b5, b6, b7, b8, b9, b10]) ∈ exampleKeys := by
  decide

theorem encrypt_of_mem_exampleKeys :
    ∀ k ∈ exampleKeys, k < nKeys ∧ encrypt 0b10111101 (vecOf 10 k) = 0b10000111 := by
  simp only [encrypt_example_iff]
  decide

/-- A key is its ten positions. -/
theorem key_eq_ofBits (key : Key) : key = ofBits [bitAt key 1, bitAt key 2, bitAt key 3, bitAt key 4, bitAt key 5,
    bitAt key 6, bitAt key 7, bitAt key 8, bitAt key 9, bitAt key 10] :=
  bitsOf_injective (by rw [bitsOf_ofBits]; rfl)

theorem intOf_mem_exampleKeys {key : Key} (h : encrypt 0b10111101 key = 0b10000111) : intOf key ∈ exampleKeys := by
  obtain ⟨⟨hLeft1, hRight1⟩, hLeft2, hRight2⟩ := (encrypt_example_iff key).1 h
  rw [key_eq_ofBits key]
  exact exampleKeys_of_sboxes _ _ _ _ hLeft1 _ _ _ _ hRight1 _ hLeft2 _ hRight2

/-- R180's example: two ascending lists with the same members are equal. -/
theorem searchKeys_example : searchKeys 0b10111101 0b10000111 = exampleKeys := by
  have hAscending : exampleKeys.Pairwise (· < ·) := by decide
  refine (searchKeys_pairwise_lt _ _).eq_of_mem_iff hAscending fun k => ?_
  rw [mem_searchKeys_iff]
  refine ⟨fun ⟨hk, hMatch⟩ => ?_, encrypt_of_mem_exampleKeys k⟩
  rw [← intOf_vecOf (n := 10) hk]
  exact intOf_mem_exampleKeys hMatch

/-- Settles O48: the set is a filter of an ascending range, the ciphertexts' sets part the keys by `sum_length_searchKeys`, and
the example is solved from both ends by `searchKeys_example`. -/
theorem searchSetIsExact : Obligations.SearchSetIsExact := by
  unfold Obligations.SearchSetIsExact
  exact ⟨mem_searchKeys_iff, searchKeys_pairwise_lt,
    fun p key => ⟨intOf_mem_searchKeys p key, hitWord_mem_searchRun (intOf_mem_searchKeys p key)⟩,
    sum_length_searchKeys, searchKeys_example⟩

end Sys2Proof.Machine
end

section
/-! PROOFS. A command answered with an error (R205). -/

namespace Sys2Proof.Machine

/-- A word is answered by the shared error operation on the untouched state, or with `OK` (R200, R205). -/
theorem respondError_or_respond_ok_of_execWord {w : CmdWord} {s t : State} (h : execWord w s = .next t) :
    (∃ st, t = s.respondError st) ∨ ∃ (u : State) (hi lo : BitVec 8), u.rspq = s.rspq ∧ t = u.respond .ok hi lo := by
  rcases execWord_cases h with ⟨st, -, rfl⟩ | ⟨hi, lo, rfl⟩ | ⟨d, key, -, -, rfl⟩ | ⟨c, -, -, rfl⟩ | ⟨p, c, -, -, rfl⟩
  · exact .inl ⟨st, rfl⟩
  · exact .inr ⟨s, hi, lo, rfl, rfl⟩
  · exact .inr ⟨s.openStream d (keySchedule key), 0, 0, rfl, rfl⟩
  · exact .inr ⟨s.closeStream, 0, 0, rfl, rfl⟩
  · exact .inr ⟨s.startSearch p c, 0, 0, rfl, rfl⟩

/-- Settles O38: an error is `respondError` on the old state, whose payload is zero; every other answer carries the status `OK`,
which the hypothesis excludes. -/
theorem errorsChangeNothing : Obligations.ErrorsChangeNothing := by
  unfold Obligations.ErrorsChangeNothing
  intro w s t r h hr hStatus
  rcases respondError_or_respond_ok_of_execWord h with ⟨st, rfl⟩ | ⟨u, hi, lo, hq, rfl⟩
  · obtain rfl : r = rspWord st 0 0 := by simpa using hr.symm
    exact ⟨rfl, rspHi_rspWord st 0 0, rspLo_rspWord st 0 0⟩
  · obtain rfl : r = rspWord .ok hi lo := by simpa [hq] using hr.symm
    exact absurd (rspStatus_rspWord .ok hi lo) hStatus

end Sys2Proof.Machine
end

section
/-! PROOFS. The reset event (R220, R221). -/

namespace Sys2Proof.Machine

/-- The move on `RST` is the reset event, in every state. -/
theorem makeMove_rst (s : State) : makeMove .rst s = .next s.resetCore := rfl

/-- Settles O53: the reset event leaves neither a stream nor a search, so no guarded register holds a value (R33), the channels
are empty, and `CANCEL` passes through it. -/
theorem resetDropsEverything : Obligations.ResetDropsEverything := by
  unfold Obligations.ResetDropsEverything
  intro s
  obtain ⟨hOpen, hDir, hK1, hK2⟩ := s.resetCore.streamRegisters_of_stream_none s.resetCore_stream
  obtain ⟨hBusy, hP, hC, hCand⟩ := s.resetCore.searchRegisters_of_search_none s.resetCore_search
  have hPass : ∀ b, makeMove .rst (s.setCancel b) = .next (s.resetCore.setCancel b) := fun b => by
    rw [makeMove_rst, State.setCancel_resetCore]
  exact ⟨s.resetCore, makeMove_rst s, hOpen, hDir, hK1, hK2, hBusy, hP, hC, hCand, s.resetCore_cmdq, s.resetCore_rspq,
    s.resetCore_resq, s.resetCore_cancel, hPass⟩

end Sys2Proof.Machine
end

section
/-! PROOFS. The encoder and the decoder undo each other (R60 to R64). -/

namespace Sys2Proof.Machine

/-- Every command's word decodes to the command, whatever its operands (R62, R63). -/
theorem decode_encode (i : Instr) : decode (encode i) = .ok i := by
  cases i with
  | enc blk key => exact decode_commandWord_enc blk key
  | dec blk key => exact decode_commandWord_dec blk key
  | keyinfo key => exact decode_commandWord_keyinfo key
  | sopen dir key => exact decode_commandWord_sopen dir key
  | sbyte blk => exact decode_commandWord_sbyte blk
  | sclose => exact decode_encode_of_read Laws.EncodesRow.sclose rfl
  | search plain cipher => exact decode_commandWord_search plain cipher

/-- Settles O20: every instruction is well formed, and each command's word stands in the command's row. -/
theorem decodeOfEncode : Obligations.DecodeOfEncode := by
  unfold Obligations.DecodeOfEncode
  exact fun i _ => decode_encode i

theorem bitOfDir_dirOfBit (d : BitVec 1) : bitOfDir (dirOfBit d) = d := by
  revert d
  decide

/-- A word that hits a row is the word of the command the row reads: each of its six fields is read as an operand or is fixed by
the row's mask and match (R61, R62). -/
theorem encode_read_of_hits {r : OpRow} (hr : r ∈ opRows) {w : CmdWord} (h : r.hits w = true) : encode (r.read w) = w := by
  have hw := commandWord_fields w
  simp only [opRows, List.mem_cons, List.not_mem_nil, or_false] at hr
  rcases hr with rfl | rfl | rfl | rfl | rfl | rfl | rfl
  · obtain ⟨hOp, hD, hZ, hAux⟩ := (rowEnc_hits w).1 h
    rwa [hOp, hD, hZ, hAux] at hw
  · obtain ⟨hOp, hD, hZ, hAux⟩ := (rowDec_hits w).1 h
    rwa [hOp, hD, hZ, hAux] at hw
  · obtain ⟨hOp, hD, hZ, hAux, hData⟩ := (rowKeyinfo_hits w).1 h
    rwa [hOp, hD, hZ, hAux, hData] at hw
  · obtain ⟨hOp, hZ, hAux, hData⟩ := (rowSopen_hits w).1 h
    rwa [hOp, hZ, hAux, hData, ← bitOfDir_dirOfBit (dField w)] at hw
  · obtain ⟨hOp, hD, hZ, hKey, hAux⟩ := (rowSbyte_hits w).1 h
    rwa [hOp, hD, hZ, hKey, hAux] at hw
  · obtain ⟨hOp, hD, hZ, hKey, hAux, hData⟩ := (rowSclose_hits w).1 h
    rwa [hOp, hD, hZ, hKey, hAux, hData] at hw
  · obtain ⟨hOp, hD, hZ, hKey⟩ := (rowSearch_hits w).1 h
    rwa [hOp, hD, hZ, hKey] at hw

/-- Settles O21: a word that decodes hits the row it is read from, and that row fixes every bit that is no operand's. -/
theorem encodeOfDecode : Obligations.EncodeOfDecode := by
  unfold Obligations.EncodeOfDecode
  intro w i h
  obtain ⟨r, hr, hHits, rfl⟩ := hits_of_decode h
  exact encode_read_of_hits hr hHits

/-- A word of the table is read as the command whose word it is. -/
theorem decodeTableWord_of_encode {nbits w : Nat} {i : Instr} (h : tableWord nbits w = encode i) :
    decodeTableWord nbits w = some i := by
  rw [decodeTableWord, h, decode_encode]

/-- Settles O22: eight of the sample words are the words of their commands, and the two illegal ones are rejected. -/
theorem sampleWordsDecode : Obligations.SampleWordsDecode := by
  unfold Obligations.SampleWordsDecode
  refine ⟨decodeTableWord_of_encode ?_, decodeTableWord_of_encode ?_, decodeTableWord_of_encode ?_,
    decodeTableWord_of_encode ?_, decodeTableWord_of_encode ?_, decodeTableWord_of_encode ?_,
    decodeTableWord_of_encode ?_, decodeTableWord_of_encode ?_, ?_, ?_⟩ <;> decide

end Sys2Proof.Machine
end

section
/-! PROOFS. The frames of the commands and of the two agents: what a step of CMD or of SRCH leaves as it is (R26, R44, R183). -/

namespace Sys2Proof.Machine

/-- No command word writes `CMDQ`, `RESQ`, the pin or the model's own fields, and each appends one response (R26, R65). -/
theorem execWord_frame {w : CmdWord} {s t : State} (h : execWord w s = .next t) :
    t.cmdq = s.cmdq ∧ t.resq = s.resq ∧ t.cancel = s.cancel ∧ t.script = s.script ∧ t.hostGoesOn = s.hostGoesOn ∧
      t.turn = s.turn ∧ ∃ r, t.rspq = s.rspq ++ [r] := by
  rcases execWord_cases h with ⟨_, -, rfl⟩ | ⟨_, _, rfl⟩ | ⟨_, _, -, -, rfl⟩ | ⟨_, -, -, rfl⟩ | ⟨_, _, -, -, rfl⟩ <;>
    exact ⟨rfl, rfl, rfl, rfl, rfl, rfl, _, rfl⟩

/-- A command is executed as its own word is. -/
theorem execWord_encode (i : Instr) (s : State) : execWord (encode i) s = exec i s :=
  execWord_of_decode_ok (decode_encode i) s

/-- Settles O39: the channels, the pin and the model's own fields by the frame of every word, the registers by the answers of each
command. -/
theorem commandFrames : Obligations.CommandFrames := by
  unfold Obligations.CommandFrames
  intro i s t h
  obtain ⟨hCmdq, hResq, hCancel, hScript, hHost, hTurn, hRspq⟩ := execWord_frame ((execWord_encode i s).trans h)
  refine ⟨hCmdq, hResq, hCancel, hScript, hHost, hTurn, hRspq, ?_⟩
  cases i with
  | enc b k => cases h; exact ⟨rfl, rfl⟩
  | dec b k => cases h; exact ⟨rfl, rfl⟩
  | keyinfo k => cases h; exact ⟨rfl, rfl⟩
  | sopen d k =>
    cases hs : s.sOpen with
    | false => cases (exec_sopen_closed d k s hs).symm.trans h; exact ⟨rfl, fun hOpen => nomatch hOpen⟩
    | true => cases (exec_sopen_open d k s hs).symm.trans h; exact ⟨rfl, fun _ => rfl⟩
  | sbyte b =>
    cases hs : s.stream with
    | none => cases (exec_sbyte_closed b s hs).symm.trans h; exact ⟨hs, rfl⟩
    | some c => cases (exec_sbyte_open b s c hs).symm.trans h; exact ⟨hs, rfl⟩
  | sclose =>
    cases hs : s.sOpen with
    | false => cases (exec_sclose_closed s hs).symm.trans h; exact ⟨rfl, s.sOpen_eq_false_iff.1 hs⟩
    | true => cases (exec_sclose_open s hs).symm.trans h; exact ⟨rfl, rfl⟩
  | search p c =>
    cases hs : s.qBusy with
    | false => cases (exec_search_idle p c s hs).symm.trans h; exact ⟨rfl, fun hBusy => nomatch hBusy⟩
    | true => cases (exec_search_busy p c s hs).symm.trans h; exact ⟨rfl, fun _ => rfl⟩

/-- CMD's step is held, or takes the oldest word of `CMDQ` and appends one response, and touches no other channel. -/
theorem cmdStep_channels {s t : State} (h : cmdStep s = .next t) :
    t = s ∨ ∃ w rest r, s.cmdq = w :: rest ∧ t.cmdq = rest ∧ t.rspq = s.rspq ++ [r] ∧ t.resq = s.resq := by
  rcases cmdStep_cases h with rfl | ⟨w, rest, hq, -, hw⟩
  · exact .inl rfl
  · obtain ⟨hCmdq, hResq, -, -, -, -, r, hRspq⟩ := execWord_frame hw
    exact .inr ⟨w, rest, r, hq, hCmdq, hRspq, hResq⟩

theorem cmdStep_cancel {s t : State} (h : cmdStep s = .next t) : t.cancel = s.cancel := by
  rcases cmdStep_cases h with rfl | ⟨w, rest, -, -, hw⟩
  · rfl
  · obtain ⟨-, -, hCancel, -⟩ := execWord_frame hw
    exact hCancel

/-- SRCH writes the search context and `RESQ` only: its step is a function of the search, `RESQ` and `CANCEL` (R183). -/
theorem srchStep_frame (s : State) : ∃ q rs, srchStep s = { s with search := q, resq := rs } := by
  unfold srchStep
  split
  · exact ⟨s.search, s.resq, rfl⟩
  · exact ⟨_, s.resq, rfl⟩
  · exact ⟨_, _, rfl⟩

@[simp] theorem srchStep_stream (s : State) : (srchStep s).stream = s.stream := by
  obtain ⟨q, rs, h⟩ := srchStep_frame s
  rw [h]
@[simp] theorem srchStep_cmdq (s : State) : (srchStep s).cmdq = s.cmdq := by
  obtain ⟨q, rs, h⟩ := srchStep_frame s
  rw [h]
@[simp] theorem srchStep_rspq (s : State) : (srchStep s).rspq = s.rspq := by
  obtain ⟨q, rs, h⟩ := srchStep_frame s
  rw [h]
@[simp] theorem srchStep_cancel (s : State) : (srchStep s).cancel = s.cancel := by
  obtain ⟨q, rs, h⟩ := srchStep_frame s
  rw [h]
@[simp] theorem srchStep_script (s : State) : (srchStep s).script = s.script := by
  obtain ⟨q, rs, h⟩ := srchStep_frame s
  rw [h]

end Sys2Proof.Machine
end

section
/-! PROOFS. The channels over a run: no word is lost, doubled or reordered (R23, R47, R49). -/

namespace Sys2Proof.Machine

/-- What passes through the channels: the words put and taken, the answers, and the result words appended. -/
structure Traffic where
  puts : List CmdWord
  answers : List (CmdWord × RspWord)
  takenResponses : List RspWord
  takenResults : List ResWord
  results : List ResWord

/-- The traffic of one part of a run followed by that of the next. -/
def Traffic.append (a b : Traffic) : Traffic :=
  ⟨a.puts ++ b.puts, a.answers ++ b.answers, a.takenResponses ++ b.takenResponses, a.takenResults ++ b.takenResults,
    a.results ++ b.results⟩

/-- The traffic of the next step. -/
def trafficOf (s : State) : Traffic := ⟨putOf s, answerOf s, takenResponseOf s, takenResultOf s, resultOf s⟩

/-- The traffic of the next `n` steps. -/
def trafficIn (n : Nat) (s : State) : Traffic :=
  ⟨putsIn n s, answersIn n s, takenResponsesIn n s, takenResultsIn n s, resultsIn n s⟩

theorem trafficIn_succ (n : Nat) {s t : State} (h : step s = .next t) :
    trafficIn (n + 1) s = (trafficOf s).append (trafficIn n t) := by
  simp [trafficIn, trafficOf, Traffic.append, putsIn, answersIn, takenResponsesIn, takenResultsIn, resultsIn, h]

theorem movesIn_succ (n : Nat) {s t : State} (h : step s = .next t) : movesIn (n + 1) s = moveMade s ++ movesIn n t := by
  simp [movesIn, h]

/-- In each channel, what waited at the start followed by what went in is what came out followed by what waits at the end. -/
def Traffic.Balances (a : Traffic) (s t : State) : Prop :=
  s.cmdq ++ a.puts = a.answers.map Prod.fst ++ t.cmdq ∧
  a.takenResponses ++ t.rspq = s.rspq ++ a.answers.map Prod.snd ∧
  a.takenResults ++ t.resq = s.resq ++ a.results

theorem Traffic.Balances.append {a b : Traffic} {s t u : State} (h : a.Balances s t) (h' : b.Balances t u) :
    (a.append b).Balances s u := by
  obtain ⟨hCmd, hRsp, hRes⟩ := h
  obtain ⟨hCmd', hRsp', hRes'⟩ := h'
  refine ⟨?_, ?_, ?_⟩
  · simp only [Traffic.append, List.map_append, List.append_assoc, ← hCmd']
    rw [← List.append_assoc, hCmd, List.append_assoc]
  · simp only [Traffic.append, List.map_append, List.append_assoc, hRsp']
    rw [← List.append_assoc, hRsp, List.append_assoc]
  · simp only [Traffic.append, List.append_assoc, hRes']
    rw [← List.append_assoc, hRes, List.append_assoc]

/-- A held CMD takes no word, so none is answered. -/
theorem answerOf_of_held {s u : State} (hn : nextMove s = (some .cmd, u)) (h : cmdStep u = .next u) : answerOf s = [] := by
  unfold answerOf
  rw [hn]
  cases hq : u.cmdq <;> simp [hq, h]

/-- The word CMD takes is answered with the response it appends. -/
theorem answerOf_of_taken {s u t : State} {w : CmdWord} {rest : List CmdWord} {r : RspWord}
    (hn : nextMove s = (some .cmd, u)) (h : cmdStep u = .next t) (hq : u.cmdq = w :: rest) (hr : t.rspq = u.rspq ++ [r]) :
    answerOf s = [(w, r)] := by
  simp [answerOf, hn, hq, h, hr]

/-- What a step of SRCH appends to `RESQ`. -/
theorem resq_srchStep {s u : State} (hn : nextMove s = (some .srch, u)) : (srchStep u).resq = u.resq ++ resultOf s := by
  unfold srchStep resultOf
  rw [hn]
  rcases hStep : searchStep? u with - | ⟨- | r, q⟩ <;> simp [hStep]

/-- In a step that is not CMD's no word is answered. -/
theorem answerOf_of_not_cmd {s : State} (h : (nextMove s).1 ≠ some .cmd) : answerOf s = [] := by
  unfold answerOf
  split
  next hn => exact absurd (by rw [hn]) h
  next => rfl

/-- In a step that is not SRCH's no result word is appended. -/
theorem resultOf_of_not_srch {s : State} (h : (nextMove s).1 ≠ some .srch) : resultOf s = [] := by
  unfold resultOf
  split
  next hn => exact absurd (by rw [hn]) h
  next => rfl

/-- The channels balance over one step whose move is not reset: CMD moves one word on to its answer, SRCH appends to `RESQ`, the
HOST puts or takes one word. -/
theorem trafficOf_balances {s t : State} (h : step s = .next t) (hReset : Move.rst ∉ moveMade s) :
    (trafficOf s).Balances s t := by
  unfold Traffic.Balances trafficOf putOf takenResponseOf takenResultOf
  rcases step_cases h with ⟨hn, rfl⟩ | ⟨m, ms, k, hn, hm⟩
  · simp [hn, answerOf_of_not_cmd, resultOf_of_not_srch]
  · have hAnswer : m ≠ .cmd → answerOf s = [] := fun hne => answerOf_of_not_cmd (by simpa [hn] using hne)
    have hResult : m ≠ .srch → resultOf s = [] := fun hne => resultOf_of_not_srch (by simpa [hn] using hne)
    cases m with
    | cmd =>
      rcases cmdStep_channels hm with rfl | ⟨w, rest, r, hq, hCmdq, hRspq, hResq⟩
      · simp [hn, hResult, answerOf_of_held hn hm]
      · have hWaiting : s.cmdq = w :: rest := hq
        simp [hn, hResult, answerOf_of_taken hn hm hq hRspq, hWaiting, hCmdq, hRspq, hResq]
    | srch =>
      cases hm
      simp [hn, hAnswer, resq_srchStep hn]
    | put w =>
      cases hm
      simp [hn, hAnswer, hResult]
    | takeResponse =>
      cases hm
      cases hq : s.rspq <;> simp [hn, hAnswer, hResult, hq]
    | takeResult =>
      cases hm
      cases hq : s.resq <;> simp [hn, hAnswer, hResult, hq]
    | setCancel b =>
      cases hm
      simp [hn, hAnswer, hResult]
    | rst => exact absurd (by simp [moveMade, hn]) hReset

/-- The channels balance over any number of steps with no reset among the moves: by induction on the steps. -/
theorem trafficIn_balances (n : Nat) {s t : State} (hReset : Move.rst ∉ movesIn n s) (h : core.run n s = .next t) :
    (trafficIn n s).Balances s t := by
  induction n generalizing s with
  | zero =>
    cases h
    simp [Traffic.Balances, trafficIn, putsIn, answersIn, takenResponsesIn, takenResultsIn, resultsIn]
  | succ n ih =>
    obtain ⟨u, hu⟩ := step_total s
    rw [core_run_succ n s u hu] at h
    rw [movesIn_succ n hu, List.mem_append, not_or] at hReset
    rw [trafficIn_succ n hu]
    exact (trafficOf_balances hu hReset.1).append (ih hReset.2 h)

/-- Settles O43: the channels balance over one step, and so over any number. -/
theorem channelsKeepOrder : Obligations.ChannelsKeepOrder := by
  unfold Obligations.ChannelsKeepOrder
  exact fun n s t hReset h => trafficIn_balances n hReset h

end Sys2Proof.Machine
end

section
/-! PROOFS. The invariant of the machine: it holds after reset, and every step keeps it (R21, R23, R48, R49, R65, R68). -/

namespace Sys2Proof.Machine

/-- The invariant speaks of the stream, the search, `RSPQ` and `RESQ` only. -/
theorem State.Inv.of_eq {s t : State} (h : s.Inv) (hStream : t.stream = s.stream) (hSearch : t.search = s.search)
    (hRspq : t.rspq = s.rspq) (hResq : t.resq = s.resq) : t.Inv where
  rspBound := hRspq ▸ h.rspBound
  resBound := hResq ▸ h.resBound
  rspOk := hRspq ▸ h.rspOk
  resOk := hResq ▸ h.resOk
  streamKeys := hStream ▸ h.streamKeys
  hits := by simpa only [HitsBelongToSearch, hSearch, hResq] using h.hits

/-- Settles O54: after reset the channels are empty, and neither a stream nor a search is there. -/
theorem invariantAfterReset : Obligations.InvariantAfterReset where
  rspBound := Nat.zero_le _
  resBound := Nat.zero_le _
  rspOk := by simp
  resOk := by simp
  streamKeys := by simp
  hits := by simp [HitsBelongToSearch, openHits]

/-- A well-formed response fits into an `RSPQ` that has room (R48, R65). -/
theorem State.Inv.pushResponse {s : State} (h : s.Inv) (hRoom : s.rspRoom = true) {r : RspWord} (hr : RspOk r) :
    (s.pushResponse r).Inv where
  rspBound := by simpa using s.rspRoom_iff.1 hRoom
  resBound := h.resBound
  rspOk := by simpa [or_imp, forall_and] using ⟨h.rspOk, hr⟩
  resOk := h.resOk
  streamKeys := h.streamKeys
  hits := h.hits

/-- An opened stream latches the round keys of SOPEN's key (R161). -/
theorem State.Inv.openStream {s : State} (h : s.Inv) (d : Dir) (key : Key) : (s.openStream d (keySchedule key)).Inv :=
  { h with
    streamKeys := by
      rintro c ⟨⟩
      exact ⟨key, rfl⟩ }

theorem State.Inv.closeStream {s : State} (h : s.Inv) : s.closeStream.Inv :=
  { h with streamKeys := by simp }

/-- A search starts when none runs, and then no HIT waits behind the last END (R182). -/
theorem State.Inv.startSearch {s : State} (h : s.Inv) (hs : s.search = none) (p c : Block) : (s.startSearch p c).Inv :=
  { h with
    hits := by
      have hNone : openHits s.resq = [] := by simpa only [HitsBelongToSearch, hs] using h.hits
      simp [HitsBelongToSearch, hNone] }

/-- Executing a word with room in `RSPQ` keeps the invariant. -/
theorem State.Inv.execWord {w : CmdWord} {s t : State} (h : s.Inv) (hRoom : s.rspRoom = true)
    (ht : execWord w s = .next t) : t.Inv := by
  have hError : ∀ st, RspOk (rspWord st 0 0) := fun st => rspOk_rspWord st 0 0 fun _ => ⟨rfl, rfl⟩
  rcases execWord_cases ht with ⟨st, -, rfl⟩ | ⟨hi, lo, rfl⟩ | ⟨d, key, -, -, rfl⟩ | ⟨c, -, -, rfl⟩ | ⟨p, c, -, hs, rfl⟩
  · exact h.pushResponse hRoom (hError st)
  · exact h.pushResponse hRoom (rspOk_rspWord .ok hi lo fun hOk => absurd rfl hOk)
  · exact (h.openStream d key).pushResponse hRoom (hError .ok)
  · exact h.closeStream.pushResponse hRoom (hError .ok)
  · exact (h.startSearch hs p c).pushResponse hRoom (hError .ok)

theorem State.Inv.cmdStep {s t : State} (h : s.Inv) (ht : cmdStep s = .next t) : t.Inv := by
  rcases cmdStep_cases ht with rfl | ⟨w, rest, -, hRoom, hw⟩
  · exact h
  · have hSet : (s.setCmdq rest).Inv := h.of_eq rfl rfl rfl rfl
    exact hSet.execWord hRoom hw

/-- A search step that appends a well-formed word to a `RESQ` with room keeps the invariant, if the HITs then waiting are those of
the context it leaves. -/
theorem State.Inv.pushResult {s : State} (h : s.Inv) (hRoom : s.resRoom = true) {r : ResWord} (hr : ResOk r)
    {q : Option SearchCtx} (hHits : HitsBelongToSearch ((s.setSearch q).pushResult r)) :
    ((s.setSearch q).pushResult r).Inv where
  rspBound := h.rspBound
  resBound := by simpa using s.resRoom_iff.1 hRoom
  rspOk := h.rspOk
  resOk := by simpa [or_imp, forall_and] using ⟨h.resOk, hr⟩
  streamKeys := h.streamKeys
  hits := hHits

/-- Behind an END no HIT waits (R68). -/
theorem hitsBelongToSearch_of_end (s : State) (inc : BitVec 1) (n : Nat) :
    HitsBelongToSearch ((s.setSearch none).pushResult (endWord inc n)) := by
  simp [HitsBelongToSearch]

/-- The HITs below the next candidate are those below the one just tested and, if it matches, its own (R185). -/
theorem hitsBelow_of_tested {q q' : SearchCtx} (hp : q'.p = q.p) (hc : q'.c = q.c) (hCand : q'.cand.val = q.cand.val + 1) :
    hitsBelow q'.p q'.c q'.cand.val =
      hitsBelow q.p q.c q.cand.val ++ if encrypt q.p (vecOf 10 q.cand.val) = q.c then [hitWord q.cand.val] else [] := by
  rw [hp, hc, hCand, hitsBelow_succ]

theorem State.Inv.srchStep {s : State} (h : s.Inv) : (srchStep s).Inv := by
  rcases srchStep_cases s with hHeld | ⟨q, hs, hEnds⟩
  · rwa [hHeld]
  have hOpen : openHits s.resq <:+ hitsBelow q.p q.c q.cand.val := by
    simpa only [HitsBelongToSearch, hs] using h.hits
  rcases hEnds with ⟨hDone, hRoom, hStep⟩ | ⟨hlt, -, hRoom, hStep⟩ | ⟨q', hp, hc, hCand, -, hTested⟩
  · rw [hStep]
    exact h.pushResult hRoom (resOk_endWord 0#1 1024 le_rfl (by simp)) (hitsBelongToSearch_of_end _ _ _)
  · rw [hStep]
    exact h.pushResult hRoom (resOk_endWord 1#1 _ hlt.le (by simpa using hlt.ne)) (hitsBelongToSearch_of_end _ _ _)
  · have hBelow := hitsBelow_of_tested hp hc hCand
    rcases hTested with ⟨hMatch, hRoom, hStep⟩ | ⟨hMiss, hStep⟩
    · have hlt : q.cand.val < 1024 := by have := q'.cand.isLt; omega
      rw [hStep]
      refine h.pushResult hRoom (resOk_hitWord _ hlt) ?_
      simpa [HitsBelongToSearch, hBelow, hMatch, List.suffix_concat_iff] using hOpen
    · rw [hStep]
      refine { h with hits := ?_ }
      simpa [HitsBelongToSearch, hBelow, hMiss] using hOpen

/-- Taking a response leaves fewer of the words that waited (R230). -/
theorem State.Inv.takeResponse {s : State} (h : s.Inv) : s.takeResponse.Inv :=
  { h with
    rspBound := s.rspq.tail_sublist.length_le.trans h.rspBound
    rspOk := fun r hr => h.rspOk r (List.mem_of_mem_tail hr) }

/-- Taking a result word leaves a later part of the HITs that waited (R230). -/
theorem State.Inv.takeResult {s : State} (h : s.Inv) : s.takeResult.Inv :=
  { h with
    resBound := s.resq.tail_sublist.length_le.trans h.resBound
    resOk := fun r hr => h.resOk r (List.mem_of_mem_tail hr)
    hits := by
      have hTail := openHits_tail s.resq
      have hHits := h.hits
      unfold HitsBelongToSearch at hHits ⊢
      cases hs : s.search with
      | none =>
        simp only [hs] at hHits
        rw [hHits] at hTail
        simpa [hs] using hTail
      | some q =>
        simp only [hs] at hHits
        simpa [hs] using hTail.trans hHits }

theorem State.Inv.makeMove {m : Move} {s t : State} (h : s.Inv) (ht : makeMove m s = .next t) : t.Inv := by
  cases m with
  | cmd => exact h.cmdStep ht
  | srch => cases ht; exact h.srchStep
  | put w => cases ht; exact h.of_eq rfl rfl rfl rfl
  | takeResponse => cases ht; exact h.takeResponse
  | takeResult => cases ht; exact h.takeResult
  | setCancel b => cases ht; exact h.of_eq rfl rfl rfl rfl
  | rst => cases ht; exact invariantAfterReset.of_eq rfl rfl rfl rfl

/-- Settles O55: a step makes one move in a state that differs in the model's own fields only, and every move keeps the
invariant. -/
theorem everyStepKeepsTheInvariant : Obligations.EveryStepKeepsTheInvariant := by
  unfold Obligations.EveryStepKeepsTheInvariant
  intro s t h hStep
  rcases step_cases hStep with ⟨-, rfl⟩ | ⟨m, ms, k, -, hm⟩
  · exact h
  · exact (h.of_eq rfl rfl rfl rfl : State.Inv { s with script := ms, turn := k }).makeMove hm

end Sys2Proof.Machine
end

section
/-! PROOFS. A search's results under every interleaving of its steps with commands and HOST moves but reset (R49, R185, R188). -/

namespace Sys2Proof.Machine

/-- CMD leaves a running search as it is: a SEARCH is refused (R49, R182). -/
theorem cmdStep_search {s t : State} {q : SearchCtx} (hs : s.search = some q) (h : cmdStep s = .next t) :
    t.search = some q := by
  rcases cmdStep_cases h with rfl | ⟨w, rest, -, -, hw⟩
  · exact hs
  · rcases execWord_cases hw with ⟨_, -, rfl⟩ | ⟨_, _, rfl⟩ | ⟨_, _, -, -, rfl⟩ | ⟨_, -, -, rfl⟩ | ⟨_, _, -, hIdle, -⟩
    · exact hs
    · exact hs
    · exact hs
    · exact hs
    · cases hIdle.symm.trans hs

/-- A search went on: it runs, and the words `ws` are the HITs from the candidate it was at to the one it is at (R185). -/
def SearchGoesOn (q : SearchCtx) (ws : List ResWord) (t : State) : Prop :=
  ∃ q', t.search = some q' ∧ q'.p = q.p ∧ q'.c = q.c ∧
    hitsBelow q.p q.c q.cand.val ++ ws = hitsBelow q.p q.c q'.cand.val

/-- A search ended among the words `ws`: they begin with the HITs from the candidate it was at to some `CHECKED`, and the END that
says so (R185, R188). -/
def SearchEnded (q : SearchCtx) (ws : List ResWord) : Prop :=
  ∃ inc m, m ≤ 1024 ∧ (inc = 0#1 ↔ m = 1024) ∧
    hitsBelow q.p q.c m ++ [endWord inc m] <+: hitsBelow q.p q.c q.cand.val ++ ws

theorem searchGoesOn_of_kept {q : SearchCtx} {t : State} (ht : t.search = some q) : SearchGoesOn q [] t :=
  ⟨q, ht, rfl, rfl, List.append_nil _⟩

/-- A step of SRCH goes on to the next candidate or ends the search with its END (R183). -/
theorem srchStep_goesOn_or_ended {s : State} {q : SearchCtx} (hs : s.search = some q) {ws : List ResWord}
    (hws : (srchStep s).resq = s.resq ++ ws) : SearchGoesOn q ws (srchStep s) ∨ SearchEnded q ws := by
  rcases srchStep_cases s with hHeld | ⟨q₀, hq₀, hSteps⟩
  · obtain rfl : ws = [] := by simpa [hHeld] using hws
    exact .inl (searchGoesOn_of_kept (by rwa [hHeld]))
  · cases hq₀.symm.trans hs
    rcases hSteps with ⟨hDone, -, hStep⟩ | ⟨hlt, -, -, hStep⟩ | ⟨q', hp, hc, hCand, -, hTested⟩
    · obtain rfl : ws = [endWord 0#1 1024] := by simpa [hStep] using hws.symm
      exact .inr ⟨0#1, 1024, le_rfl, by simp, by rw [hDone]⟩
    · obtain rfl : ws = [endWord 1#1 q.cand.val] := by simpa [hStep] using hws.symm
      exact .inr ⟨1#1, q.cand.val, hlt.le, by simpa using hlt.ne, List.prefix_rfl⟩
    · refine .inl ⟨q', ?_, hp, hc, ?_⟩
      · rcases hTested with ⟨-, -, hStep⟩ | ⟨-, hStep⟩ <;> simp [hStep]
      · have hBelow := hitsBelow_of_tested hp hc hCand
        rw [hp, hc] at hBelow
        rw [hBelow]
        rcases hTested with ⟨hMatch, -, hStep⟩ | ⟨hMiss, hStep⟩
        · obtain rfl : ws = [hitWord q.cand.val] := by simpa [hStep] using hws.symm
          rw [if_pos hMatch]
        · obtain rfl : ws = [] := by simpa [hStep] using hws
          rw [if_neg hMiss]

/-- Any step but reset lets a running search go on or ends it. -/
theorem step_goesOn_or_ended {s t : State} {q : SearchCtx} (hs : s.search = some q) (h : step s = .next t)
    (hReset : Move.rst ∉ moveMade s) : SearchGoesOn q (resultOf s) t ∨ SearchEnded q (resultOf s) := by
  rcases step_cases h with ⟨hn, rfl⟩ | ⟨m, ms, k, hn, hm⟩
  · rw [resultOf_of_not_srch (by simp [hn])]
    exact .inl (searchGoesOn_of_kept hs)
  · have hu : ({ s with script := ms, turn := k } : State).search = some q := hs
    by_cases hSrch : m = .srch
    · subst hSrch
      cases hm
      exact srchStep_goesOn_or_ended hu (resq_srchStep hn)
    · rw [resultOf_of_not_srch (by simpa [hn] using hSrch)]
      refine .inl (searchGoesOn_of_kept ?_)
      cases m with
      | cmd => exact cmdStep_search hu hm
      | srch => exact absurd rfl hSrch
      | put w => cases hm; exact hs
      | takeResponse => cases hm; exact hs
      | takeResult => cases hm; exact hs
      | setCancel b => cases hm; exact hs
      | rst => exact absurd (by simp [moveMade, hn]) hReset

theorem SearchGoesOn.trans {q q' : SearchCtx} {ws ws' : List ResWord} {t : State} (hp : q'.p = q.p) (hc : q'.c = q.c)
    (hBelow : hitsBelow q.p q.c q.cand.val ++ ws = hitsBelow q.p q.c q'.cand.val) (h : SearchGoesOn q' ws' t) :
    SearchGoesOn q (ws ++ ws') t := by
  obtain ⟨q'', ht, hp', hc', hBelow'⟩ := h
  rw [hp, hc] at hBelow'
  exact ⟨q'', ht, hp'.trans hp, hc'.trans hc, by rw [← List.append_assoc, hBelow, hBelow']⟩

theorem SearchEnded.trans {q q' : SearchCtx} {ws ws' : List ResWord} (hp : q'.p = q.p) (hc : q'.c = q.c)
    (hBelow : hitsBelow q.p q.c q.cand.val ++ ws = hitsBelow q.p q.c q'.cand.val) (h : SearchEnded q' ws') :
    SearchEnded q (ws ++ ws') := by
  obtain ⟨inc, m, hm, hInc, hPrefix⟩ := h
  rw [hp, hc] at hPrefix
  exact ⟨inc, m, hm, hInc, by rwa [← List.append_assoc, hBelow]⟩

/-- Once ended, a search stays ended whatever is appended later. -/
theorem SearchEnded.append {q : SearchCtx} {ws : List ResWord} (h : SearchEnded q ws) (later : List ResWord) :
    SearchEnded q (ws ++ later) := by
  obtain ⟨inc, m, hm, hInc, hPrefix⟩ := h
  refine ⟨inc, m, hm, hInc, hPrefix.trans ?_⟩
  rw [← List.append_assoc]
  exact List.prefix_append _ _

/-- Over any number of steps with no reset among the moves a search, at whatever candidate it is, goes on or ends: by induction on
the steps. -/
theorem run_goesOn_or_ended (n : Nat) {s : State} {q : SearchCtx} (hs : s.search = some q)
    (hReset : Move.rst ∉ movesIn n s) :
    (∃ t, core.run n s = .next t ∧ SearchGoesOn q (resultsIn n s) t) ∨ SearchEnded q (resultsIn n s) := by
  induction n generalizing s q with
  | zero => exact .inl ⟨s, rfl, searchGoesOn_of_kept hs⟩
  | succ n ih =>
    obtain ⟨u, hu⟩ := step_total s
    have hResults : resultsIn (n + 1) s = resultOf s ++ resultsIn n u := by simp [resultsIn, hu]
    rw [movesIn_succ n hu, List.mem_append, not_or] at hReset
    rw [hResults, core_run_succ n s u hu]
    rcases step_goesOn_or_ended hs hu hReset.1 with ⟨q', hq', hp, hc, hBelow⟩ | hEnded
    · rcases ih hq' hReset.2 with ⟨t, ht, hOn⟩ | hEnded
      · exact .inl ⟨t, ht, hOn.trans hp hc hBelow⟩
      · exact .inr (hEnded.trans hp hc hBelow)
    · exact .inr (hEnded.append _)

/-- Settles O50: from candidate 0 there are no earlier HITs. -/
theorem searchResultsUnderAnyInterleaving : Obligations.SearchResultsUnderAnyInterleaving := by
  unfold Obligations.SearchResultsUnderAnyInterleaving
  intro n s q hs hCand hReset
  have hNone : hitsBelow q.p q.c q.cand.val = [] := by rw [hCand]; rfl
  rcases run_goesOn_or_ended n hs hReset with ⟨t, ht, q', hq', hp, hc, hBelow⟩ | ⟨inc, m, hm, hInc, hPrefix⟩
  · rw [hNone, List.nil_append] at hBelow
    exact .inl ⟨t, q', ht, hq', hp, hc, hBelow⟩
  · rw [hNone, List.nil_append] at hPrefix
    exact .inr ⟨inc, m, hm, hInc, hPrefix⟩

end Sys2Proof.Machine
end

section
/-! PROOFS. Which move a step makes, the HOST's moves, and the command a step runs (R24, R44, R47, R48, R230). -/

namespace Sys2Proof.Machine

/-- A step makes the chosen move in the state in which it is chosen. -/
theorem step_of_nextMove {s u : State} {m : Move} (h : nextMove s = (some m, u)) : step s = makeMove m u := by
  rw [step, runStep, h]

theorem step_of_no_move {s u : State} (h : nextMove s = (none, u)) : step s = .next u := by
  rw [step, runStep, h]

/-- The script's oldest move comes first (log entry 3). -/
theorem nextMove_of_script {s : State} {m : Move} {ms : List Move} (h : s.script = m :: ms) :
    nextMove s = (some m, s.setScript ms) := by
  simp [nextMove, h]

/-- The script made, an outside that goes on makes the move of the free value (log entry 18). -/
theorem nextMove_of_hostGoesOn {s : State} (hScript : s.script = []) (hHost : s.hostGoesOn = true) :
    nextMove s = (some (Config.freeMove s.turn), s.nextTurn) := by
  simp [nextMove, hScript, hHost]

section
variable {s : State} (hScript : s.script = []) (hHost : s.hostGoesOn = false)
include hScript hHost

theorem nextMove_of_cmd_alone (hCmd : s.cmdReady = true) (hSrch : s.srchReady = false) :
    nextMove s = (some .cmd, s) := by
  simp [nextMove, hScript, hHost, hCmd, hSrch]

theorem nextMove_of_srch_alone (hCmd : s.cmdReady = false) (hSrch : s.srchReady = true) :
    nextMove s = (some .srch, s) := by
  simp [nextMove, hScript, hHost, hCmd, hSrch]

theorem nextMove_of_both (hCmd : s.cmdReady = true) (hSrch : s.srchReady = true) :
    nextMove s = (some (moveOf (Config.freeAgent s.turn)), s.nextTurn) := by
  simp [nextMove, hScript, hHost, hCmd, hSrch]

theorem nextMove_of_neither (hCmd : s.cmdReady = false) (hSrch : s.srchReady = false) : nextMove s = (none, s) := by
  simp [nextMove, hScript, hHost, hCmd, hSrch]

end

/-- Settles O42: the choice of the move in each case, and the HOST's moves as the operations they are. -/
theorem movesOfAStep : Obligations.MovesOfAStep := by
  unfold Obligations.MovesOfAStep
  refine ⟨fun s m ms h => step_of_nextMove (nextMove_of_script h),
    fun s hScript hHost => step_of_nextMove (nextMove_of_hostGoesOn hScript hHost),
    fun s hScript hHost hCmd hSrch => step_of_nextMove (nextMove_of_cmd_alone hScript hHost hCmd hSrch),
    fun s hScript hHost hCmd hSrch => step_of_nextMove (nextMove_of_srch_alone hScript hHost hCmd hSrch), ?both,
    fun s hScript hHost hCmd hSrch => step_of_no_move (nextMove_of_neither hScript hHost hCmd hSrch),
    fun s => ⟨rfl, rfl⟩, fun s w => rfl, ?takeResponse, ?takeResult, fun s level => rfl, ?noResponse, ?noResult⟩
  case both =>
    intro s hScript hHost hCmd hSrch
    rw [step_of_nextMove (nextMove_of_both hScript hHost hCmd hSrch)]
    cases Config.freeAgent s.turn <;> rfl
  case takeResponse =>
    intro s r rest h
    rw [makeMove, State.takeResponse, h, List.tail_cons]
  case takeResult =>
    intro s r rest h
    rw [makeMove, State.takeResult, h, List.tail_cons]
  case noResponse =>
    intro s h
    rw [makeMove, State.takeResponse, h, List.tail_nil, ← h]
  case noResult =>
    intro s h
    rw [makeMove, State.takeResult, h, List.tail_nil, ← h]

/-- CMD with room in `RSPQ` executes the oldest word (R47). -/
theorem cmdStep_of_room {s : State} {w : CmdWord} {rest : List CmdWord} (hq : s.cmdq = w :: rest)
    (hRoom : s.rspRoom = true) : cmdStep s = execWord w (s.setCmdq rest) := by
  simp [cmdStep, hq, hRoom]

theorem cmdStep_of_decode {s : State} {w : CmdWord} {rest : List CmdWord} {i : Instr} (hq : s.cmdq = w :: rest)
    (hRoom : s.rspRoom = true) (hi : decode w = .ok i) : cmdStep s = exec i (s.setCmdq rest) := by
  rw [cmdStep_of_room hq hRoom, execWord_of_decode_ok hi]

/-- A waiting word and room in `RSPQ` make CMD ready (R48). -/
theorem State.cmdReady_iff (s : State) : s.cmdReady = true ↔ ∃ w rest, s.cmdq = w :: rest ∧ s.rspRoom = true := by
  cases hq : s.cmdq <;> simp [State.cmdReady, hq]

/-- No search, no step of SRCH (R48). -/
theorem State.srchReady_of_idle {s : State} (h : s.qBusy = false) : s.srchReady = false := by
  simp [State.srchReady, searchStep?, s.qBusy_eq_false_iff.1 h]

theorem decode_of_decodeTableWord {nbits w : Nat} {i : Instr} (h : decodeTableWord nbits w = some i) :
    decode (tableWord nbits w) = .ok i := by
  unfold decodeTableWord at h
  split at h
  next j hj => cases h; exact hj
  next => cases h

/-- A word is placed where there is room to answer it: a full `RSPQ` is taken empty (log entry 8). -/
theorem State.placeCommand_rspRoom (s : State) (w : CmdWord) : (s.placeCommand w).rspRoom = true := by
  cases h : s.rspRoom with
  | true => rwa [State.rspRoom, State.placeCommand_rspq, h]
  | false => exact State.rspRoom_of_empty _ (by simp [h])

/-- Settles O41: the move is CMD's, from the script, as the one ready agent, or by the placing, and CMD has room. -/
theorem stepRunsTheDecodedCommand : Obligations.StepRunsTheDecodedCommand := by
  unfold Obligations.StepRunsTheDecodedCommand
  refine ⟨fun s w rest ms i hScript hq hRoom hi => ?_, fun s w rest i hScript hHost hIdle hq hRoom hi => ?_,
    fun s nbits w i hi => ?_⟩
  · rw [step_of_nextMove (nextMove_of_script hScript)]
    exact cmdStep_of_decode (s := s.setScript ms) hq (s.rspRoom_iff.2 hRoom) hi
  · have hReady := s.cmdReady_iff.2 ⟨w, rest, hq, s.rspRoom_iff.2 hRoom⟩
    rw [step_of_nextMove (nextMove_of_cmd_alone hScript hHost hReady (State.srchReady_of_idle hIdle))]
    exact cmdStep_of_decode hq (s.rspRoom_iff.2 hRoom) hi
  · have hDecode := decode_of_decodeTableWord hi
    have hRoom := s.placeCommand_rspRoom (tableWord nbits w)
    rw [State.withFetchWord, step_of_nextMove (nextMove_of_script (s.placeCommand_script _))]
    refine (cmdStep_of_decode (s := (s.placeCommand (tableWord nbits w)).setScript s.script) rfl hRoom hDecode).trans ?_
    simp [State.setCmdq, State.setScript, State.placeCommand, State.rspRoom]

end Sys2Proof.Machine
end

section
/-! PROOFS. Held agents, the reach of `CANCEL`, and the two agents beside each other (R24, R48, R49, R50). -/

namespace Sys2Proof.Machine

/-- CMD that has no step changes nothing (R48). -/
theorem cmdStep_of_not_ready {s : State} (h : s.cmdReady = false) : cmdStep s = .next s := by
  unfold cmdStep
  split
  · rfl
  next w rest hq =>
    have hFull : s.rspRoom = false := by simpa [State.cmdReady, hq] using h
    simp [hFull]

/-- SRCH that has no step changes nothing (R48). -/
theorem srchStep_of_not_ready {s : State} (h : s.srchReady = false) : srchStep s = s := by
  have hNone : searchStep? s = none := by simpa [State.srchReady] using h
  rw [srchStep, hNone]

theorem State.cmdReady_of_held {s : State} (h : s.cmdq = [] ∨ s.rspq.length = Config.rspDepth) : s.cmdReady = false := by
  rcases h with h | h <;> simp [State.cmdReady, State.rspRoom, h]

/-- The end of a search, at 1024 or cancelled, and a match append a word (R183). -/
theorem searchAdvance_appends {q : SearchCtx} {b : Bool}
    (h : q.cand.val = 1024 ∨ b = true ∨ encrypt q.p (vecOf 10 q.cand.val) = q.c) :
    (searchAdvance q b).1.isSome = true := by
  by_cases hDone : q.cand.val = 1024
  · rw [searchAdvance_done q b hDone]
    rfl
  · have hlt : q.cand.val < 1024 := by have := q.cand.isLt; omega
    cases b with
    | true =>
      rw [searchAdvance_cancelled q hlt]
      rfl
    | false =>
      have hMatch : encrypt q.p (vecOf 10 q.cand.val) = q.c := by simpa [hDone] using h
      rw [searchAdvance_tested q (by omega), if_pos hMatch]
      rfl

/-- With `RESQ` full, a step that would append a word is no step (R48). -/
theorem State.srchReady_of_full {s : State} {q : SearchCtx} (hs : s.search = some q)
    (hFull : s.resq.length = Config.resDepth) (hWord : (searchAdvance q s.cancel).1.isSome = true) :
    s.srchReady = false := by
  simp [State.srchReady, searchStep?_some hs, hWord, State.resRoom, hFull]

/-- Settles O44: each held agent is one that is not ready, and a readiness is about its own agent's channels. -/
theorem heldAgentsChangeNothing : Obligations.HeldAgentsChangeNothing := by
  unfold Obligations.HeldAgentsChangeNothing
  refine ⟨fun s h => ?_, fun s h => ?_, fun s q hs hFull h => ?_, fun s rs h => h, fun s rs h => h⟩
  · have hHeld := State.cmdReady_of_held h
    exact ⟨cmdStep_of_not_ready hHeld, hHeld⟩
  · have hHeld := State.srchReady_of_idle h
    exact ⟨srchStep_of_not_ready hHeld, hHeld⟩
  · have hHeld := State.srchReady_of_full hs hFull (searchAdvance_appends h)
    exact ⟨srchStep_of_not_ready hHeld, hHeld⟩

/-- A change of state beside CMD: it leaves what CMD reads but the search, and it can as well be made before as after each of CMD's
operations but the start of a search. -/
structure BesideCmd (f : State → State) : Prop where
  stream : ∀ s, (f s).stream = s.stream
  cmdq : ∀ s, (f s).cmdq = s.cmdq
  rspq : ∀ s, (f s).rspq = s.rspq
  setCmdq : ∀ s ws, f (s.setCmdq ws) = (f s).setCmdq ws
  pushResponse : ∀ s r, f (s.pushResponse r) = (f s).pushResponse r
  openStream : ∀ s d kp, f (s.openStream d kp) = (f s).openStream d kp
  closeStream : ∀ s, f s.closeStream = (f s).closeStream

/-- A SEARCH also may come before or after the change `f` in the state `s`: it is refused in both orders, or it starts the same
search in both. -/
def BesideSearch (f : State → State) (s : State) : Prop :=
  (f s).qBusy = s.qBusy ∧ (s.qBusy = false → ∀ p c, f (s.startSearch p c) = (f s).startSearch p c)

section
variable {f : State → State} (hf : BesideCmd f)
include hf

theorem BesideCmd.respond (s : State) (st : Status) (hi lo : BitVec 8) : f (s.respond st hi lo) = (f s).respond st hi lo :=
  hf.pushResponse s _

/-- Executing a command and a change beside it give one state in either order. -/
theorem BesideCmd.exec {i : Instr} {s t : State} (hSearch : (∃ p c, i = .search p c) → BesideSearch f s)
    (h : exec i s = .next t) : Machine.exec i (f s) = .next (f t) := by
  cases i with
  | enc b k => cases h; rw [hf.respond]; rfl
  | dec b k => cases h; rw [hf.respond]; rfl
  | keyinfo k => cases h; rw [hf.respond]; rfl
  | sopen d k =>
    cases hs : s.stream with
    | none =>
      cases (execSopen_closed d k s hs).symm.trans h
      rw [hf.respond, hf.openStream]
      exact execSopen_closed d k (f s) ((hf.stream s).trans hs)
    | some c =>
      cases (execSopen_open d k s c hs).symm.trans h
      rw [State.respondError, hf.respond]
      exact execSopen_open d k (f s) c ((hf.stream s).trans hs)
  | sbyte b =>
    cases hs : s.stream with
    | none =>
      cases (exec_sbyte_closed b s hs).symm.trans h
      rw [State.respondError, hf.respond]
      exact exec_sbyte_closed b (f s) ((hf.stream s).trans hs)
    | some c =>
      cases (exec_sbyte_open b s c hs).symm.trans h
      rw [hf.respond]
      exact exec_sbyte_open b (f s) c ((hf.stream s).trans hs)
  | sclose =>
    cases hs : s.stream with
    | none =>
      cases (execSclose_closed s hs).symm.trans h
      rw [State.respondError, hf.respond]
      exact execSclose_closed (f s) ((hf.stream s).trans hs)
    | some c =>
      cases (execSclose_open s c hs).symm.trans h
      rw [hf.respond, hf.closeStream]
      exact execSclose_open (f s) c ((hf.stream s).trans hs)
  | search p c =>
    obtain ⟨hBusy, hStart⟩ := hSearch ⟨p, c, rfl⟩
    cases hs : s.qBusy with
    | false =>
      cases (exec_search_idle p c s hs).symm.trans h
      rw [hf.respond, hStart hs]
      exact exec_search_idle p c (f s) (hBusy.trans hs)
    | true =>
      cases (exec_search_busy p c s hs).symm.trans h
      rw [State.respondError, hf.respond]
      exact exec_search_busy p c (f s) (hBusy.trans hs)

/-- So does a word, legal or not. -/
theorem BesideCmd.execWord {w : CmdWord} {s t : State} (hSearch : (∃ p c, decode w = .ok (.search p c)) → BesideSearch f s)
    (h : execWord w s = .next t) : Machine.execWord w (f s) = .next (f t) := by
  cases hd : decode w with
  | ok i =>
    rw [execWord_of_decode_ok hd] at h ⊢
    exact hf.exec (fun ⟨p, c, hi⟩ => hSearch ⟨p, c, by rw [hd, hi]⟩) h
  | error e =>
    rw [execWord_of_decode_error hd] at h ⊢
    cases h
    rw [State.respondError, State.respondError, hf.respond]

/-- And so does CMD's step: whether it is held is not changed either. -/
theorem BesideCmd.cmdStep {s t : State} (hSearch : ∀ w rest, s.cmdq = w :: rest →
    (∃ p c, decode w = .ok (.search p c)) → BesideSearch f (s.setCmdq rest))
    (h : cmdStep s = .next t) : Machine.cmdStep (f s) = .next (f t) := by
  cases hReady : s.cmdReady with
  | false =>
    cases (cmdStep_of_not_ready hReady).symm.trans h
    refine cmdStep_of_not_ready ?_
    rwa [State.cmdReady, State.rspRoom, hf.cmdq, hf.rspq]
  | true =>
    obtain ⟨w, rest, hq, hRoom⟩ := s.cmdReady_iff.1 hReady
    have hRoom' : (f s).rspRoom = true := by rwa [State.rspRoom, hf.rspq]
    rw [cmdStep_of_room hq hRoom] at h
    rw [cmdStep_of_room ((hf.cmdq s).trans hq) hRoom', ← hf.setCmdq]
    exact hf.execWord (hSearch w rest hq) h

end

/-- CMD does not read `CANCEL` (R50). -/
theorem besideCmd_setCancel (b : Bool) : BesideCmd (fun s => s.setCancel b) :=
  ⟨fun _ => rfl, fun _ => rfl, fun _ => rfl, fun _ _ => rfl, fun _ _ => rfl, fun _ _ _ => rfl, fun _ => rfl⟩

/-- A change that the choice of the search step does not see, and that can as well be made before as after the writing of the
search context and of `RESQ`, can be made before as after SRCH's step. -/
theorem srchStep_comm {g : State → State} {s : State} (hStep : searchStep? (g s) = searchStep? s)
    (hSearch : ∀ q, (g s).setSearch q = g (s.setSearch q)) (hResult : ∀ t r, (g t).pushResult r = g (t.pushResult r)) :
    srchStep (g s) = g (srchStep s) := by
  unfold srchStep
  rw [hStep]
  split
  · rfl
  · exact hSearch _
  · rw [hSearch, hResult]

/-- SRCH reads and writes nothing of CMD's but the search context (R49). -/
theorem besideCmd_srchStep : BesideCmd srchStep where
  stream := srchStep_stream
  cmdq := srchStep_cmdq
  rspq := srchStep_rspq
  setCmdq _ ws := srchStep_comm (g := fun s => s.setCmdq ws) rfl (fun _ => rfl) (fun _ _ => rfl)
  pushResponse _ r := srchStep_comm (g := fun s => s.pushResponse r) rfl (fun _ => rfl) (fun _ _ => rfl)
  openStream _ d kp := srchStep_comm (g := fun s => s.openStream d kp) rfl (fun _ => rfl) (fun _ _ => rfl)
  closeStream _ := srchStep_comm (g := State.closeStream) rfl (fun _ => rfl) (fun _ _ => rfl)

/-- Once all candidates are tested, `CANCEL` is not used (R183). -/
theorem srchStep_setCancel_of_done {s : State} {q : SearchCtx} (b : Bool) (hs : s.search = some q)
    (hDone : q.cand.val = 1024) : srchStep (s.setCancel b) = (srchStep s).setCancel b := by
  have hs' : (s.setCancel b).search = some q := hs
  have hStep : searchStep? (s.setCancel b) = searchStep? s := by
    rw [searchStep?_some hs, searchStep?_some hs', searchAdvance_done q _ hDone, searchAdvance_done q _ hDone]
    rfl
  exact srchStep_comm (g := fun s => s.setCancel b) hStep (fun _ => rfl) (fun _ _ => rfl)

/-- Only the HOST's setting changes `CANCEL` (R24). -/
theorem makeMove_cancel {m : Move} {s t : State} (hm : ∀ b, m ≠ .setCancel b) (h : makeMove m s = .next t) :
    t.cancel = s.cancel := by
  cases m with
  | cmd => exact cmdStep_cancel h
  | srch => cases h; exact srchStep_cancel s
  | put w => cases h; rfl
  | takeResponse => cases h; rfl
  | takeResult => cases h; rfl
  | setCancel b => exact absurd rfl (hm b)
  | rst => cases h; rfl

/-- With `CANCEL` at 1 a search step ends the search or is held: no candidate is tested (R183). -/
theorem srchStep_search_of_cancel {s : State} {q q' : SearchCtx} (hCancel : s.cancel = true) (hs : s.search = some q)
    (h : (srchStep s).search = some q') : q' = q := by
  rcases srchStep_cases s with hHeld | ⟨_, -, ⟨-, -, hStep⟩ | ⟨-, -, -, hStep⟩ | ⟨_, -, -, -, hNot, -⟩⟩
  · rw [hHeld, hs] at h
    exact (Option.some.inj h).symm
  · simp [hStep] at h
  · simp [hStep] at h
  · cases hNot.symm.trans hCancel

/-- Settles O45: a setting of `CANCEL` passes by CMD's step and by the complete END, no other move makes one, and at 1 it stops
the testing of candidates. -/
theorem cancelReachesOnlyTheSearch : Obligations.CancelReachesOnlyTheSearch := by
  unfold Obligations.CancelReachesOnlyTheSearch
  exact ⟨fun s t b => (besideCmd_setCancel b).cmdStep fun _ _ _ _ => ⟨rfl, fun _ _ _ => rfl⟩,
    fun s q b => srchStep_setCancel_of_done b, fun m s t => makeMove_cancel, fun s q q' => srchStep_search_of_cancel⟩

/-- Settles O46: SRCH's step is a change beside CMD; a SEARCH meets it only where the search runs before and after, and there it is
refused in both orders. -/
theorem agentsCommute : Obligations.AgentsCommute := by
  unfold Obligations.AgentsCommute
  refine ⟨fun s hNoSearch => ?_, fun s hBusy hBusy' => ?_⟩
  · obtain ⟨t, ht⟩ := cmdStep_total s
    refine ⟨t, ht, besideCmd_srchStep.cmdStep (fun w rest hq ⟨p, c, hd⟩ => ?_) ht⟩
    exact absurd hd (hNoSearch w p c (by simp [hq]))
  · obtain ⟨t, ht⟩ := cmdStep_total s
    refine ⟨t, ht, besideCmd_srchStep.cmdStep (fun w rest _ _ => ⟨?_, fun hIdle => ?_⟩) ht⟩
    · rw [besideCmd_srchStep.setCmdq]
      exact hBusy'.trans hBusy.symm
    · cases hIdle.symm.trans hBusy

end Sys2Proof.Machine
end

section
/-! PROOFS. The end of a search within 1025 of its steps, and BRUTE's collection of its results (R77, R185, R189). -/

namespace Sys2Proof.Machine

/-- With room in `RESQ` a search step ends the search or moves it on by one candidate, and appends at most one word (R183). -/
theorem srchStep_progress {s : State} {q : SearchCtx} (hs : s.search = some q) (hRoom : s.resq.length < Config.resDepth) :
    ((srchStep s).search = none ∨
      ∃ q', (srchStep s).search = some q' ∧ q'.cand.val = q.cand.val + 1) ∧
    (srchStep s).resq.length ≤ s.resq.length + 1 := by
  by_cases hDone : q.cand.val = 1024
  · rw [srchStep_done hs hRoom hDone]
    simp
  · have hlt : q.cand.val < 1024 := by have := q.cand.isLt; omega
    cases hCancel : s.cancel with
    | true =>
      rw [srchStep_cancelled hs hRoom hlt hCancel]
      simp
    | false =>
      by_cases hMatch : encrypt q.p (vecOf 10 q.cand.val) = q.c
      · rw [srchStep_hit hs hRoom hCancel hMatch (by omega)]
        simp
      · rw [srchStep_miss hs hCancel hMatch (by omega)]
        simp

/-- The script of SRCH and the HOST moving in turn for `n` search steps. -/
def inTurn (n : Nat) : List Move := (List.replicate n [Move.srch, Move.takeResult]).flatten

theorem inTurn_succ (n : Nat) : inTurn (n + 1) = .srch :: .takeResult :: inTurn n := by
  simp [inTurn, List.replicate_succ]

/-- A run's first step when it is the script's oldest move. -/
theorem core_run_of_script (n : Nat) {s t : State} {m : Move} {ms : List Move} (h : s.script = m :: ms)
    (hm : makeMove m (s.setScript ms) = .next t) : core.run (n + 1) s = core.run n t :=
  core_run_succ n s t ((step_of_nextMove (nextMove_of_script h)).trans hm)

/-- A run of `k` steps leads to a state with no search, and with the rest of what is CMD's as it was. -/
def EndsSearch (k : Nat) (s : State) : Prop :=
  ∃ t, core.run k s = .next t ∧ t.qBusy = false ∧ t.cmdq = s.cmdq ∧ t.stream = s.stream ∧ t.rspq = s.rspq

theorem EndsSearch.succ {k : Nat} {s u : State} {m : Move} {ms : List Move} (hScript : s.script = m :: ms)
    (hm : makeMove m (s.setScript ms) = .next u) (hCmdq : u.cmdq = s.cmdq) (hStream : u.stream = s.stream)
    (hRspq : u.rspq = s.rspq) (h : EndsSearch k u) : EndsSearch (k + 1) s := by
  obtain ⟨t, ht, hIdle, hCmdq', hStream', hRspq'⟩ := h
  exact ⟨t, (core_run_of_script k hScript hm).trans ht, hIdle, hCmdq'.trans hCmdq, hStream'.trans hStream,
    hRspq'.trans hRspq⟩

/-- SRCH and the HOST moving in turn end a search from its candidate on: by induction on the candidates left, the HOST making room
again after each search step (R189). -/
theorem search_ends_in_turn {n : Nat} {s : State} {q : SearchCtx} {rest : List Move} (hs : s.search = some q)
    (hRoom : s.resq.length < Config.resDepth) (hn : q.cand.val + n = 1025) (hScript : s.script = inTurn n ++ rest) :
    ∃ k ≤ 2 * n, EndsSearch k s := by
  induction n generalizing s q with
  | zero => exact absurd hn (by have := q.cand.isLt; omega)
  | succ n ih =>
    rw [inTurn_succ, List.cons_append, List.cons_append] at hScript
    generalize hLater : inTurn n ++ rest = later at hScript ih
    obtain ⟨u, hu⟩ : ∃ u, srchStep (s.setScript (.takeResult :: later)) = u := ⟨_, rfl⟩
    have hProgress := srchStep_progress (s := s.setScript (.takeResult :: later)) hs hRoom
    have hScript' := srchStep_script (s.setScript (.takeResult :: later))
    have hCmdq := srchStep_cmdq (s.setScript (.takeResult :: later))
    have hStream := srchStep_stream (s.setScript (.takeResult :: later))
    have hRspq := srchStep_rspq (s.setScript (.takeResult :: later))
    rw [hu] at hProgress hScript' hCmdq hStream hRspq
    have hMove : makeMove .srch (s.setScript (.takeResult :: later)) = .next u := congrArg Host.Outcome.next hu
    obtain ⟨hNext, hLength⟩ := hProgress
    rcases hNext with hEnd | ⟨q', hq', hCand⟩
    · have hEnds : EndsSearch 0 u := ⟨u, rfl, u.qBusy_eq_false_iff.2 hEnd, rfl, rfl, rfl⟩
      exact ⟨1, by omega, hEnds.succ hScript hMove hCmdq hStream hRspq⟩
    · have hTaken : u.resq.tail.length < Config.resDepth := by
        rw [List.length_tail]
        exact lt_of_le_of_lt (Nat.sub_le_of_le_add hLength) hRoom
      obtain ⟨k, hk, hEnds⟩ := ih (s := (u.setScript later).takeResult) hq' hTaken (by omega) rfl
      have hEnds' : EndsSearch (k + 1) u := hEnds.succ hScript' rfl rfl rfl rfl
      exact ⟨k + 2, by omega, hEnds'.succ hScript hMove hCmdq hStream hRspq⟩

end Sys2Proof.Machine
end

section
/-! PROOFS. The HOST's transactions of single commands, and BRUTE's collection of a search's results (R47, R77, R185). -/

namespace Sys2Proof.Machine

/-- Taking the one word of a channel undoes its appending. -/
theorem State.takeResponse_respond {s : State} (h : s.rspq = []) (st : Status) (hi lo : BitVec 8) :
    (s.respond st hi lo).takeResponse = s := by
  rw [State.respond, State.pushResponse, State.takeResponse, h, List.nil_append, List.tail_cons, ← h]

theorem State.takeResult_pushResult {s : State} (h : s.resq = []) (r : ResWord) : (s.pushResult r).takeResult = s := by
  rw [State.pushResult, State.takeResult, h, List.nil_append, List.tail_cons, ← h]

theorem State.setSearch_none_of_idle {s : State} (h : s.search = none) : s.setSearch none = s := by
  rw [State.setSearch, ← h]

/-- One transaction on a core with no command waiting and no response untaken: the HOST gets the command's answer, and the core is
as the command left it. -/
theorem transact_of_respond {i : Instr} {s u : State} {st : Status} {hi lo : BitVec 8} (hCmdq : s.cmdq = [])
    (hRspq : s.rspq = []) (h : exec i s = .next (u.respond st hi lo)) (hu : u.rspq = s.rspq) :
    transact (encode i) s = some (rspWord st hi lo, u) := by
  have hOne : (u.respond st hi lo).rspq = [rspWord st hi lo] := by rw [State.respond_rspq, hu, hRspq, List.nil_append]
  rw [transact_of_exec (decode_encode i) hCmdq hRspq h hOne, State.takeResponse_respond (hu.trans hRspq)]

section
variable {fuel : Nat} {s u : State} {r : ResWord} (hStep : srchStep s = u.pushResult r) (hResq : u.resq = [])
include hStep hResq

/-- The collection ends with the END word (R77). -/
theorem collectSteps_of_end (hr : resEnd r = 1#1) : collectSteps (fuel + 1) s = some (([], r), u) := by
  simp [collectSteps, hStep, hResq, hr, State.takeResult_pushResult hResq]

/-- A HIT's key is collected before those of the later steps (R77). -/
theorem collectSteps_of_hit (hr : resEnd r = 0#1) {keys : List Nat} {e : ResWord} {t : State}
    (h : collectSteps fuel u = some ((keys, e), t)) :
    collectSteps (fuel + 1) s = some ((intOf (resVal r) :: keys, e), t) := by
  simp [collectSteps, hStep, hResq, hr, State.takeResult_pushResult hResq, h]

end

/-- A step that appends no word is passed over. -/
theorem collectSteps_of_no_word {fuel : Nat} {s u : State} (hStep : srchStep s = u) (hResq : u.resq = []) :
    collectSteps (fuel + 1) s = collectSteps fuel u := by
  simp [collectSteps, hStep, hResq]

/-- On a core with no result word untaken, the HOST collects the matches from the search's candidate on and the complete END, and
the core is then without the search: by induction on the candidates left. -/
theorem collectSteps_uncancelled {n : Nat} {s : State} {q : SearchCtx} (hResq : s.resq = []) (hCancel : s.cancel = false)
    (hn : q.cand.val + n = 1024) :
    ∃ keys, collectSteps (n + 1) (s.setSearch (some q)) = some ((keys, 0x8400), s.setSearch none) ∧
      keysBelow q.p q.c q.cand.val ++ keys = searchKeys q.p q.c := by
  have hRoom : (s.setSearch (some q)).resq.length < Config.resDepth := by simp [hResq, Config.resDepth]
  induction n generalizing q with
  | zero =>
    have hDone : q.cand.val = 1024 := hn
    refine ⟨[], collectSteps_of_end (srchStep_done rfl hRoom hDone) hResq (by decide), ?_⟩
    rw [List.append_nil, hDone]
    rfl
  | succ n ih =>
    have hlt : q.cand.val + 1 < 1025 := by omega
    obtain ⟨keys, hRest, hKeys⟩ := ih (q := ⟨q.p, q.c, ⟨q.cand.val + 1, hlt⟩⟩) (by simp only; omega) hRoom
    rw [keysBelow_succ, List.append_assoc] at hKeys
    by_cases hMatch : encrypt q.p (vecOf 10 q.cand.val) = q.c
    · have hKey : intOf (resVal (hitWord q.cand.val)) = q.cand.val := toNat_resVal_hitWord (by omega)
      refine ⟨q.cand.val :: keys, ?_, by simpa [hMatch] using hKeys⟩
      rw [collectSteps_of_hit (srchStep_hit rfl hRoom hCancel hMatch hlt) hResq (resEnd_hitWord _) hRest, hKey]
    · refine ⟨keys, ?_, by simpa [hMatch] using hKeys⟩
      exact (collectSteps_of_no_word (srchStep_miss (s := s.setSearch (some q)) rfl hCancel hMatch hlt) hResq).trans hRest

section
variable {s : State} (p c : Block) (hCmdq : s.cmdq = []) (hRspq : s.rspq = [])
include hCmdq hRspq

/-- On a core with no search running BRUTE is the collection from candidate 0. -/
theorem bruteOn_idle (hIdle : s.qBusy = false) : bruteOn p c s = collectSteps 1025 (s.setSearch (some ⟨p, c, 0⟩)) := by
  rw [bruteOn, transact_of_respond hCmdq hRspq (exec_search_idle p c s hIdle) rfl]
  exact if_pos (rspStatus_rspWord _ _ _)

/-- With a search running the SEARCH is answered `ERR_BUSY`, and there is nothing to collect (R182). -/
theorem bruteOn_busy (hBusy : s.qBusy = true) : bruteOn p c s = none := by
  rw [bruteOn, transact_of_respond hCmdq hRspq (exec_search_busy p c s hBusy) rfl]
  exact if_neg (by rw [rspStatus_rspWord]; decide)

end

/-- Of the words of one search the HOST collects the HITs' keys and the END; later words are not read (R77). -/
theorem collectSearch_hits_end {keys : List Nat} (hKeys : ∀ k ∈ keys, k < 1024) (inc : BitVec 1) (n : Nat)
    (later : List ResWord) :
    collectSearch (keys.map hitWord ++ endWord inc n :: later) = some (keys, endWord inc n) := by
  induction keys with
  | nil => simp [collectSearch]
  | cons k keys ih =>
    obtain ⟨hk, hRest⟩ := List.forall_mem_cons.1 hKeys
    have hKey : intOf (resVal (hitWord k)) = k := toNat_resVal_hitWord hk
    rw [List.map_cons, List.cons_append, collectSearch, if_neg (by rw [resEnd_hitWord]; decide), ih hRest, Option.map_some,
      hKey]

theorem lt_of_mem_keysBelow {p c : Block} {n k : Nat} (h : k ∈ keysBelow p c n) : k < n :=
  List.mem_range.1 (List.mem_filter.1 h).1

/-- Settles O51: the script ends the search by `search_ends_in_turn`, and BRUTE collects from candidate 0 on, where there are no
earlier keys. -/
theorem searchEndsWithinItsBound : Obligations.SearchEndsWithinItsBound := by
  unfold Obligations.SearchEndsWithinItsBound
  refine ⟨fun s q rest hs hRoom hScript => ?ends, fun p c s hCmdq hRspq hResq hIdle hCancel => ?all,
    fun p c s hCmdq hRspq hResq hIdle hCancel => ?cancelled, fun p c s => bruteOn_busy p c,
    fun p c n inc later hn => ?collect⟩
  case ends =>
    have hCand : q.cand.val + (1025 - q.cand.val) = 1025 := by have := q.cand.isLt; omega
    obtain ⟨k, hk, t, ht⟩ := search_ends_in_turn hs hRoom hCand hScript
    exact ⟨k, t, hk, ht⟩
  case all =>
    obtain ⟨keys, hCollect, hKeys⟩ := collectSteps_uncancelled (n := 1024) (q := ⟨p, c, 0⟩) hResq hCancel rfl
    rw [bruteOn_idle p c hCmdq hRspq hIdle, hCollect, State.setSearch_none_of_idle (s.qBusy_eq_false_iff.1 hIdle), ← hKeys]
    rfl
  case cancelled =>
    have hEnd : endWord 1 0 = 0xC000 := by decide
    have hRoom : (s.setSearch (some ⟨p, c, 0⟩)).resq.length < Config.resDepth := by simp [hResq, Config.resDepth]
    have hStep := srchStep_cancelled (s := s.setSearch (some ⟨p, c, 0⟩)) rfl hRoom (Nat.zero_lt_succ _) hCancel
    rw [bruteOn_idle p c hCmdq hRspq hIdle, collectSteps_of_end hStep hResq (resEnd_endWord _ _)]
    rw [← hEnd]
    exact congrArg (fun t => some (([], endWord 1 0), t)) (State.setSearch_none_of_idle (s.qBusy_eq_false_iff.1 hIdle))
  case collect =>
    exact collectSearch_hits_end (fun k hk => (lt_of_mem_keysBelow hk).trans_le hn) inc n later

end Sys2Proof.Machine
end

section
/-! PROOFS. Runs as sequences of moves, and the quiescent core (R215, R223). -/

namespace Sys2Proof.Machine

/-- A step makes its move and leaves the script, the outside and the draw counter as the choice of the move left them. -/
theorem step_own_fields {s u t : State} {m : Move} (hn : nextMove s = (some m, u)) (h : step s = .next t) :
    t.script = u.script ∧ t.hostGoesOn = u.hostGoesOn ∧ t.turn = u.turn :=
  makeMove_own_fields ((step_of_nextMove hn).symm.trans h)

theorem moveMade_of_nextMove {s u : State} {m : Move} (hn : nextMove s = (some m, u)) : moveMade s = [m] := by
  rw [moveMade, hn]
  rfl

/-- The moves made are the script's, whatever comes later: by induction on the script (R223). -/
theorem movesIn_of_script {ms later : List Move} {s : State} (h : s.script = ms ++ later) : movesIn ms.length s = ms := by
  induction ms generalizing s with
  | nil => rfl
  | cons m ms ih =>
    have hn := nextMove_of_script h
    obtain ⟨t, ht⟩ := step_total s
    obtain ⟨hScript, -, -⟩ := step_own_fields hn ht
    rw [List.length_cons, movesIn_succ _ ht, moveMade_of_nextMove hn, ih hScript, List.singleton_append]

/-- The script made, an outside that goes on makes the free value's moves one after the other: by induction on the steps (R223). -/
theorem movesIn_of_hostGoesOn (n : Nat) {s : State} (hScript : s.script = []) (hHost : s.hostGoesOn = true) :
    movesIn n s = (List.range n).map (fun i => Config.freeMove (s.turn + i)) := by
  induction n generalizing s with
  | zero => rfl
  | succ n ih =>
    have hn := nextMove_of_hostGoesOn hScript hHost
    obtain ⟨t, ht⟩ := step_total s
    obtain ⟨hScript', hHost', hTurn⟩ := step_own_fields hn ht
    rw [movesIn_succ _ ht, moveMade_of_nextMove hn, ih (hScript'.trans hScript) (hHost'.trans hHost), hTurn,
      List.range_succ_eq_map]
    simp [Nat.add_assoc, Nat.add_comm 1]

/-- In a quiescent core neither agent has a step (R223). -/
theorem State.quiescent.not_ready {s : State} (h : s.quiescent) : s.cmdReady = false ∧ s.srchReady = false :=
  ⟨State.cmdReady_of_held (.inl h.1), State.srchReady_of_idle h.2⟩

/-- Beside a silent HOST a quiescent core stays as it is, step after step (R215). -/
theorem run_of_quiescent (n : Nat) {s : State} (h : s.quiescent) (hScript : s.script = []) (hHost : s.hostGoesOn = false) :
    core.run n s = .next s := by
  obtain ⟨hCmd, hSrch⟩ := h.not_ready
  have hStep : step s = .next s := step_of_no_move (nextMove_of_neither hScript hHost hCmd hSrch)
  induction n with
  | zero => rfl
  | succ n ih => rw [core_run_succ n s s hStep, ih]

/-- CMD that has a step takes a word from `CMDQ` (R47). -/
theorem cmdStep_ne_of_ready {s t : State} (hReady : s.cmdReady = true) (h : cmdStep s = .next t) : t ≠ s := by
  obtain ⟨w, rest, hq, hRoom⟩ := s.cmdReady_iff.1 hReady
  obtain ⟨hCmdq, -⟩ := execWord_frame ((cmdStep_of_room hq hRoom).symm.trans h)
  rintro rfl
  exact List.cons_ne_self w rest (hq.symm.trans hCmdq)

/-- A search step never leaves the context as it was: it ends the search or moves on to the next candidate (R183). -/
theorem searchAdvance_ne (q : SearchCtx) (b : Bool) : (searchAdvance q b).2 ≠ some q := by
  by_cases hDone : q.cand.val = 1024
  · rw [searchAdvance_done q b hDone]
    exact (Option.some_ne_none q).symm
  · have hlt : q.cand.val < 1024 := by have := q.cand.isLt; omega
    cases b with
    | true =>
      rw [searchAdvance_cancelled q hlt]
      exact (Option.some_ne_none q).symm
    | false =>
      rw [searchAdvance_tested q (by omega)]
      intro h
      have hCand : q.cand.val + 1 = q.cand.val := congrArg (fun q : SearchCtx => q.cand.val) (Option.some.inj h)
      omega

/-- SRCH that has a step changes the search context. -/
theorem srchStep_ne_of_ready {s : State} (hReady : s.srchReady = true) : srchStep s ≠ s := by
  cases hs : s.search with
  | none => simp [State.srchReady, searchStep?, hs] at hReady
  | some q =>
    have hStep : searchStep? s = some (searchAdvance q s.cancel) := by
      rw [State.srchReady, searchStep?_some hs] at hReady
      rw [searchStep?_some hs]
      split at hReady
      · cases hReady
      next h => rw [if_neg h]
    have hSearch : (srchStep s).search = (searchAdvance q s.cancel).2 := by
      rw [srchStep, hStep]
      rcases searchAdvance q s.cancel with ⟨- | r, next⟩ <;> rfl
    intro hSame
    rw [hSame, hs] at hSearch
    exact searchAdvance_ne q s.cancel hSearch.symm

/-- Beside a silent HOST a core in which an agent has a step changes: the agent's own registers or channels, or, where the free value
chose it, the draw counter. -/
theorem step_ne_of_ready {s t : State} (hScript : s.script = []) (hHost : s.hostGoesOn = false)
    (hReady : s.cmdReady = true ∨ s.srchReady = true) (h : step s = .next t) : t ≠ s := by
  cases hCmd : s.cmdReady with
  | true =>
    cases hSrch : s.srchReady with
    | true =>
      obtain ⟨-, -, hTurn⟩ := step_own_fields (nextMove_of_both hScript hHost hCmd hSrch) h
      rintro rfl
      exact absurd hTurn (Nat.ne_of_lt (Nat.lt_succ_self _))
    | false =>
      rw [step_of_nextMove (nextMove_of_cmd_alone hScript hHost hCmd hSrch)] at h
      exact cmdStep_ne_of_ready hCmd h
  | false =>
    have hSrch : s.srchReady = true := by simpa [hCmd] using hReady
    rw [step_of_nextMove (nextMove_of_srch_alone hScript hHost hCmd hSrch)] at h
    cases h
    exact srchStep_ne_of_ready hSrch

/-- Settles O56: the moves by induction on the script and on the steps; what is quiescent has no agent ready, and a ready agent's
step changes its own state. -/
theorem quiescentCoreStays : Obligations.QuiescentCoreStays := by
  unfold Obligations.QuiescentCoreStays
  refine ⟨fun ms later s => movesIn_of_script rfl, fun n s => movesIn_of_hostGoesOn n, fun s h => ?_,
    fun n s => run_of_quiescent n, fun s t => step_ne_of_ready⟩
  obtain ⟨hCmd, hSrch⟩ := h.not_ready
  exact ⟨cmdStep_of_not_ready hCmd, srchStep_of_not_ready hSrch, hCmd, hSrch⟩

end Sys2Proof.Machine
end

section
/-! PROOFS. `key_info` and the text functions through the core (R75, R77, R165, R166). -/

namespace Sys2Proof.Machine

/-- Settles O29: an invalid key issues no command; a valid one is one transaction, whose response carries the round keys. -/
theorem keyInfoThroughTheCore : Obligations.KeyInfoThroughTheCore := by
  unfold Obligations.KeyInfoThroughTheCore
  intro str s hCmdq hRspq
  refine ⟨fun hValid => ?_, fun hInvalid => ?_⟩
  · have hKey := parseKey_of_valid hValid
    have hCommand : keyInfoCommand str = .ok (encode (.keyinfo ((vecOfString str).setWidth 10))) := by
      rw [keyInfoCommand, hKey]
    refine ⟨_, hKey, hCommand, ?_⟩
    rw [keyInfoOn, hCommand]
    simp [transact_of_respond hCmdq hRspq (exec_keyinfo _ s) rfl, keyInfoReply]
  · rw [keyInfoOn, keyInfoCommand_of_invalid hInvalid]

theorem transactAll_cons {w : CmdWord} {ws : List CmdWord} {s t u : State} {r : RspWord} {rs : List RspWord}
    (h : transact w s = some (r, t)) (hRest : transactAll ws t = some (rs, u)) :
    transactAll (w :: ws) s = some (r :: rs, u) := by
  simp only [transactAll, h, hRest, Option.map_some]

/-- The responses to the SBYTEs of an open stream and its SCLOSE, one transaction each: by induction on the bytes (R162, R163). -/
theorem transactAll_sbytes_sclose (bytes : List Block) {s : State} {c : StreamCtx} (hStream : s.stream = some c)
    (hCmdq : s.cmdq = []) (hRspq : s.rspq = []) :
    transactAll ((bytes.map Instr.sbyte ++ [Instr.sclose]).map encode) s =
      some ((bytes.map (cryptDir c.dir c.keys)).map (rspWord .ok 0) ++ [rspWord .ok 0 0], s.closeStream) := by
  induction bytes with
  | nil =>
    exact transactAll_cons (transact_of_respond hCmdq hRspq (exec_sclose_open s (s.sOpen_eq_true_iff.2 ⟨c, hStream⟩)) rfl) rfl
  | cons b bs ih => exact transactAll_cons (transact_of_respond hCmdq hRspq (exec_sbyte_open b s c hStream) rfl) ih

/-- The commands of ENCTEXT and DECTEXT for the bytes of a text (R77). -/
def streamCommands (dir : Dir) (key : Key) (bytes : List Block) : List Instr :=
  .sopen dir key :: (bytes.map Instr.sbyte ++ [.sclose])

/-- The bytes of a stream's responses are `StreamMap` of the bytes sent, and the core is as it was (R160, R162). -/
theorem transactAll_streamCommands (dir : Dir) (key : Key) (bytes : List Block) {s : State} (hStream : s.stream = none)
    (hCmdq : s.cmdq = []) (hRspq : s.rspq = []) :
    ∃ rs, transactAll ((streamCommands dir key bytes).map encode) s = some (rs, s) ∧
      streamBytes rs = streamMap dir key bytes := by
  have hOpen := transact_of_respond hCmdq hRspq (exec_sopen_closed dir key s (s.sOpen_eq_false_iff.2 hStream)) rfl
  have hRest := transactAll_sbytes_sclose bytes (s := s.openStream dir (keySchedule key)) rfl hCmdq hRspq
  have hSame : (s.openStream dir (keySchedule key)).closeStream = s := by
    rw [State.openStream, State.closeStream, ← hStream]
  rw [hSame] at hRest
  refine ⟨_, transactAll_cons hOpen hRest, ?_⟩
  rw [streamBytes, List.drop_one, List.tail_cons, List.dropLast_concat, streamMap_eq_map]
  simp [Function.comp_def, StreamCtx.keys]

theorem encTextCommands_of_utf8Encode {text : List Nat} {bytes : List Block} (h : utf8Encode text = some bytes) (key : Key) :
    encTextCommands text key = .ok (streamCommands .encrypt key bytes) := by
  rw [encTextCommands, h]
  rfl

theorem encTextCommands_of_not_utf8 {text : List Nat} (h : utf8Encode text = none) (key : Key) :
    encTextCommands text key = .error .shape := by
  rw [encTextCommands, h]

theorem encryptText_of_not_utf8 {text : List Nat} (h : utf8Encode text = none) (key : Key) :
    encryptText text key = .error .shape := by
  rw [encryptText, h]

theorem decTextCommands_of_bytes {cps : List Nat} (h : ∀ c ∈ cps, c ≤ 255) (key : Key) :
    decTextCommands cps key = .ok (streamCommands .decrypt key (cps.map byteOf)) :=
  if_pos ((all_le_255_iff cps).2 h)

theorem decryptText_of_bytes {cps : List Nat} (h : ∀ c ∈ cps, c ≤ 255) (key : Key) :
    decryptText cps key = decodeBytes (streamMap .decrypt key (cps.map byteOf)) :=
  if_pos ((all_le_255_iff cps).2 h)

/-- Settles O60: a text or a list of code points with a shape error issues no command; any other is a stream of its bytes, whose
responses carry `StreamMap` of them. -/
theorem textThroughTheCore : Obligations.TextThroughTheCore := by
  unfold Obligations.TextThroughTheCore
  intro s key hStream hCmdq hRspq
  refine ⟨fun text => ?_, fun cps => ?_⟩
  · cases hText : utf8Encode text with
    | none => rw [encryptTextOn, encTextCommands_of_not_utf8 hText, encryptText_of_not_utf8 hText]
    | some bytes =>
      obtain ⟨rs, hRun, hBytes⟩ := transactAll_streamCommands .encrypt key bytes hStream hCmdq hRspq
      rw [encryptTextOn, encTextCommands_of_utf8Encode hText, encryptText_of_utf8Encode hText]
      simp only [hRun, hBytes, Option.map_some]
  · by_cases hCodes : ∀ c ∈ cps, c ≤ 255
    · obtain ⟨rs, hRun, hBytes⟩ := transactAll_streamCommands .decrypt key (cps.map byteOf) hStream hCmdq hRspq
      rw [decryptTextOn, decTextCommands_of_bytes hCodes, decryptText_of_bytes hCodes]
      simp only [hRun, hBytes, Option.map_some]
    · push Not at hCodes
      rw [decryptTextOn, decTextCommands_of_above_255 hCodes, decryptText_of_above_255 hCodes]

end Sys2Proof.Machine
end

section
/-! PROOFS. The textual form: which words a line is, and which lines form none (R74, R76, R77). -/

namespace Sys2Proof.Machine

theorem blockKeyWord_strOfVec (mk : Block → Key → Instr) (b : Block) (k : Key) :
    blockKeyWord mk (strOfVec b) (strOfVec k) = .ok [encode (mk b k)] := by
  rw [blockKeyWord, parseBlock_strOfVec, parseKey_strOfVec]

theorem keyWord_strOfVec (mk : Key → Instr) (k : Key) : keyWord mk (strOfVec k) = .ok [encode (mk k)] := by
  rw [keyWord, parseKey_strOfVec]

theorem twoBlockWord_strOfVec (mk : Block → Block → Instr) (a b : Block) :
    twoBlockWord mk (strOfVec a) (strOfVec b) = .ok [encode (mk a b)] := by
  rw [twoBlockWord, parseBlock_strOfVec, parseBlock_strOfVec]

theorem assemble_sbyte_strOfVec (b : Block) : assemble (.sbyte (strOfVec b)) = .ok [encode (.sbyte b)] := by
  rw [assemble, parseBlock_strOfVec]

section
variable {cmds : Key → Except BoundaryError (List Instr)}

theorem textWords_strOfVec {k : Key} {is : List Instr} (h : cmds k = .ok is) :
    textWords cmds (strOfVec k) = .ok (is.map encode) := by
  simp only [textWords, parseKey_strOfVec, h]

theorem textWords_of_invalid_key {key : List Char} (h : isValidKey key = false) : textWords cmds key = .error .shape := by
  rw [textWords, parseKey_of_invalid h]

/-- A text whose expansion is an error under every key forms no word, whatever the key string is. -/
theorem textWords_of_error {e : BoundaryError} (h : ∀ k, cmds k = .error e) (key : List Char) :
    textWords cmds key = .error .shape := by
  unfold textWords
  cases parseKey key with
  | ok k => simp only [h]
  | error e => rfl

end

section
variable {hex : List Char}

theorem assemble_word_of_parseWord {w : CmdWord} (h : parseWord hex = some w) : assemble (.word hex) = .ok [w] := by
  rw [assemble, h]

theorem assemble_word_of_malformed (h : parseWord hex = none) : assemble (.word hex) = .error .shape := by
  rw [assemble, h]

end

theorem blockKeyWord_of_invalid (mk : Block → Key → Instr) {blk key : List Char}
    (h : isValidBlock blk = false ∨ isValidKey key = false) : blockKeyWord mk blk key = .error .shape :=
  h.elim (blockKeyWord_of_invalid_block mk key) (blockKeyWord_of_invalid_key mk blk)

theorem twoBlockWord_of_invalid (mk : Block → Block → Instr) {x y : List Char}
    (h : isValidBlock x = false ∨ isValidBlock y = false) : twoBlockWord mk x y = .error .shape :=
  h.elim (twoBlockWord_of_invalid_left mk y) (twoBlockWord_of_invalid_right mk x)

/-- Settles O30: each kind of line is one of the four ways operands are made into words, which read the string of a vector back and
reject a malformed operand. -/
theorem linesAssemble : Obligations.LinesAssemble := by
  unfold Obligations.LinesAssemble
  refine ⟨fun b c k d => ⟨blockKeyWord_strOfVec .enc b k, blockKeyWord_strOfVec .dec b k, keyWord_strOfVec .keyinfo k,
      keyWord_strOfVec (.sopen d) k, assemble_sbyte_strOfVec b, rfl, twoBlockWord_strOfVec .search b c,
      twoBlockWord_strOfVec .search b c⟩,
    fun text bytes k h => ?encText, fun codes k h => ?decText, fun hex w => assemble_word_of_parseWord,
    fun blk key h => ⟨blockKeyWord_of_invalid .enc h, blockKeyWord_of_invalid .dec h⟩,
    fun key h => ⟨keyWord_of_invalid .keyinfo h, fun d => keyWord_of_invalid (.sopen d) h,
      fun text => textWords_of_invalid_key h, fun codes => textWords_of_invalid_key h⟩,
    fun blk => assemble_sbyte_of_invalid,
    fun x y h => ⟨twoBlockWord_of_invalid .search h, twoBlockWord_of_invalid .search h⟩,
    fun text key h => textWords_of_error (encTextCommands_of_not_utf8 h) key,
    fun codes key h => textWords_of_error (decTextCommands_of_above_255 h) key, fun hex => assemble_word_of_malformed⟩
  case encText =>
    rw [assemble, textWords_strOfVec (encTextCommands_of_utf8Encode h k)]
    simp [streamCommands]
  case decText =>
    rw [assemble, textWords_strOfVec (decTextCommands_of_bytes h k)]
    simp [streamCommands, Function.comp_def, byteOf, vecOf]

end Sys2Proof.Machine
end
